-- ==== Sys2Proof/Word.lean ====
section
/-! DEFINITION. The word types of the MME: a limb is one 64-bit unsigned word (spec/00_scope.md R5). -/

namespace Sys2Proof

/-- A limb, a register, a command word: 64 bits (R5, R62, R90). -/
abbrev Word := BitVec 64

/-- A byte of a serialized number (R68, R69); the block itself addresses no bytes. -/
abbrev Byte := BitVec 8

end Sys2Proof
end

