-- ==== Sys2Proof/Machine/Limbs.lean ====
section
/-! DEFINITION. Limb sequences and their value (spec/00_scope.md R10), the word primitives (R12), and the buffer
primitives built from them (R13), with the mask-select idiom of R12. A buffer is the list of its limbs, limb 0 (the
least significant) first. -/

namespace Sys2Proof.Machine

/-- `val(b)` (R10): the number a buffer holds. -/
def val : List Word → Nat
  | []      => 0
  | x :: xs => x.toNat + 2 ^ 64 * val xs

/-- `limbs_n(v)` (R10): the `n` low limbs of `v`. -/
def limbs : Nat → Nat → List Word
  | 0,     _ => []
  | n + 1, v => BitVec.ofNat 64 v :: limbs n (v / 2 ^ 64)

/-- `bit(b, k)` (R10): bit `k` of `val(b)`. -/
def bitAt (b : List Word) (k : Nat) : Bool := (b.getD (k / 64) 0#64).getLsbD (k % 64)

/-- A carry, borrow or flag bit as a word. -/
def bitWord (c : Bool) : Word := if c then 1#64 else 0#64

/-- `addc(x, y, cin)` (R12). -/
def addc (x y : Word) (cin : Bool) : Word × Bool :=
  let t := x.toNat + y.toNat + cin.toNat
  (BitVec.ofNat 64 t, decide (2 ^ 64 ≤ t))

/-- `subb(x, y, bin)` (R12): the borrow is 1 when the integer difference is negative. -/
def subb (x y : Word) (bin : Bool) : Word × Bool :=
  (BitVec.ofNat 64 (2 ^ 64 + x.toNat - (y.toNat + bin.toNat)), decide (x.toNat < y.toNat + bin.toNat))

/-- `mac(x, y, r, c)` (R12): low and high word of `x·y + r + c`. -/
def mac (x y r c : Word) : Word × Word :=
  let t := x.toNat * y.toNat + r.toNat + c.toNat
  (BitVec.ofNat 64 t, BitVec.ofNat 64 (t / 2 ^ 64))

/-- `mask(bit)` (R12): all-ones for 1, all-zero for 0. -/
def maskOf (c : Bool) : Word := 0#64 - bitWord c

/-- `select(m, x, y)` (R12): `x` when `m` is all-ones, `y` when `m` is all-zero. -/
def select (m x y : Word) : Word := (m &&& x) ||| (~~~m &&& y)

/-- `eq_mask(x, y)` (R12). -/
def eqMask (x y : Word) : Word := maskOf (x == y)

/-- `lt_mask64(x, y)` (R12), unsigned. -/
def ltMask (x y : Word) : Word := maskOf (decide (x.toNat < y.toNat))

/-- `select` on buffers, limb by limb with the same mask (R12). -/
def selectBuf (m : Word) (xs ys : List Word) : List Word := List.zipWith (select m) xs ys

/-- The loop of `bn_add` (R13) from a carry. -/
def addLoop : Bool → List Word → List Word → List Word × Bool
  | c, x :: xs, y :: ys =>
    let d := addc x y c
    let r := addLoop d.2 xs ys
    (d.1 :: r.1, r.2)
  | c, _, _ => ([], c)

/-- `bn_add(a, b)` (R13). -/
def bnAdd (a b : List Word) : List Word × Bool := addLoop false a b

/-- The loop of `bn_sub` (R13) from a borrow. -/
def subLoop : Bool → List Word → List Word → List Word × Bool
  | c, x :: xs, y :: ys =>
    let d := subb x y c
    let r := subLoop d.2 xs ys
    (d.1 :: r.1, r.2)
  | c, _, _ => ([], c)

/-- `bn_sub(a, b)` (R13). -/
def bnSub (a b : List Word) : List Word × Bool := subLoop false a b

/-- The last step of `add_mod_n` and of `reduction` (R113, R164; spec/90_conflicts.md C1): from a carry `c0` and a buffer
`s` below `2·n`, the buffer reduced below `n` by one conditional subtraction, selected by mask. -/
def condSub (c0 : Bool) (s n : List Word) : List Word :=
  let d := bnSub s n
  selectBuf (bitWord c0 - bitWord d.2) s d.1

/-- `add_mod_n(n, a, b)` (R113). -/
def addModN (n a b : List Word) : List Word :=
  let d := bnAdd a b
  condSub d.2 d.1 n

/-- The scan of `lt_mask(a, b)` from an accumulator (R114): a higher unequal limb overrides the lower limbs' verdict. -/
def ltScan : Word → List Word → List Word → Word
  | acc, x :: xs, y :: ys => ltScan (select (eqMask x y) acc (ltMask x y)) xs ys
  | acc, _, _ => acc

/-- One row of multiply-accumulate (R130, R164): `win + a·w + c` limb by limb, and the carry word out of the top. -/
def macRow (w : Word) : List Word → List Word → Word → List Word × Word
  | x :: xs, r :: rs, c =>
    let d := mac x w r c
    let t := macRow w xs rs d.2
    (d.1 :: t.1, t.2)
  | _, _, c => ([], c)

/-- The rows of schoolbook multiplication (R130), one per word of the second operand. `win` is the window
`res[i .. i+n)`; a row writes its carry to `res[n+i]`, its lowest limb is final, and the window moves up by one. -/
def mulRows (a : List Word) : List Word → List Word → List Word
  | [],      win => win
  | w :: ws, win =>
    let row := macRow w a win 0#64
    let out := row.1 ++ [row.2]
    out.headD 0#64 :: mulRows a ws out.tail

/-- `bn_mul(a, b)` (R130). -/
def bnMul (a b : List Word) : List Word := mulRows a b (List.replicate a.length 0#64)

/-- The off-diagonal rows of squaring (R132). `win` is the window `acc[2i .. i+n)`: row `i` adds `a[i]·a[j]` for `j > i`
and writes its carry to `acc[i+n]`; limbs `2i` and `2i+1` are then final. -/
def offRows : List Word → List Word → List Word
  | x :: xs, w :: win =>
    let row := macRow x xs win 0#64
    let out := row.1 ++ [row.2]
    w :: out.headD 0#64 :: offRows xs out.tail
  | _, win => win

/-- The diagonal terms `a[i]·a[i]` at limbs `2i`, `2i+1` (R132). -/
def diagTerms : List Word → List Word
  | []      => []
  | x :: xs => (mac x x 0#64 0#64).1 :: (mac x x 0#64 0#64).2 :: diagTerms xs

/-- `bn_sqr(a)` (R132): off-diagonal products once, doubled, plus the diagonal. -/
def bnSqr (a : List Word) : List Word :=
  let acc := offRows a (List.replicate a.length 0#64)
  (bnAdd (bnAdd acc acc).1 (diagTerms a)).1

end Sys2Proof.Machine
end

