-- ==== Sys2Proof/Config.lean ====
section
/-! DEFINITION. What an implementation fixes (spec/00_scope.md R7, R8) and the free values of
spec/93_implementation_defined.md. The two parameters `LMAX` and `MEMWORDS` are plain data: a machine carries them in
`State.params` (log entry 11), so that a statement about every state holds for every choice of them. -/

namespace Sys2Proof

/-- The open parameters of R7: `LMAX` (the largest legal `LEN`) and `MEMWORDS` (the words of `LMEM`). -/
structure Params where
  lmax     : Nat
  memWords : Nat
deriving DecidableEq, Repr

/-- The defaults R7 suggests: `LMAX = 64`, `MEMWORDS = 16384`. -/
def Params.default : Params := { lmax := 64, memWords := 16384 }

/-- The constraints R7 puts on the two parameters. -/
abbrev Params.ok (p : Params) : Prop := 1 ≤ p.lmax ∧ 4 * p.lmax ≤ p.memWords ∧ p.memWords ≤ 16384

/-- `W` of R5: the limb width. -/
abbrev Config.limbBits : Nat := 64

/-- `KTHRESH` of R8: below this many limbs Karatsuba falls back to schoolbook. -/
def Config.karatsubaThreshold : Nat := 32

/-- `KSCRATCH` of R8: the Karatsuba scratch region is this many times `L` limbs. -/
def Config.karatsubaScratch : Nat := 4

/-- `ADDRW` of R8: the width of an address field of a command word. -/
abbrev Config.addrBits : Nat := 14

/-- FREE VALUE. The word drawn when an `LMEM` word that holds no value is read by the host, and the words left in the
context registers by a `CTXLOAD` of an illegal modulus (U1, U6, U7). Applied to `State.freeCtr`; nothing constrains it
(log entries 2, 5). -/
opaque Config.freeWord : Nat → Word

/-- FREE VALUE. The bit drawn for `CY` and for `MASK` when their value is unspecified (U4, U7), and whether a command
that is not promised to complete does so (U1, U6, U7). Applied to `State.freeCtr` (log entries 3, 4, 5, 7). -/
opaque Config.freeBit : Nat → Bool

end Sys2Proof
end

