-- ==== Sys2Proof/Syntax.lean ====
section
/-! DEFINITION. The 17 commands of the MME (spec/30_encoding.md R93) with their USED fields, in the order
`rd, ra, rb, rc` of the assembler syntax (R98), and the six issue errors (spec/60_exceptions.md R211). A field is an
`LMEM` base word address, a number (R92: no sign, no scaling); `Instr.WellFormed` bounds it to 14 bits. -/

namespace Sys2Proof

/-- One constructor per row of spec/opcode_table.json. -/
inductive Instr where
  /-- `ADD`, R111. -/
  | add (rd ra rb : Nat)
  /-- `SUB`, R112. -/
  | sub (rd ra rb : Nat)
  /-- `ADDMODN`, R113; `rc` is the modulus. -/
  | addmodn (rd ra rb rc : Nat)
  /-- `LTMASK`, R114. -/
  | ltmask (ra rb : Nat)
  /-- `MUL`, R131. -/
  | mul (rd ra rb : Nat)
  /-- `SQR`, R133. -/
  | sqr (rd ra : Nat)
  /-- `KMUL`, R136; `rc` is the scratch region. -/
  | kmul (rd ra rb rc : Nat)
  /-- `KSQR`, R138; `rc` is the scratch region. -/
  | ksqr (rd ra rc : Nat)
  /-- `PRECOMPR2`, R165. -/
  | precompr2 (rd ra : Nat)
  /-- `CTXLOAD`, R166. -/
  | ctxload (ra : Nat)
  /-- `REDC`, R167. -/
  | redc (rd ra : Nat)
  /-- `TOMONT`, R168. -/
  | tomont (rd ra : Nat)
  /-- `FROMMONT`, R169. -/
  | frommont (rd ra : Nat)
  /-- `MONTMUL`, R170. -/
  | montmul (rd ra rb : Nat)
  /-- `MONTSQR`, R171. -/
  | montsqr (rd ra : Nat)
  /-- `MODEXP`, R192. -/
  | modexp (rd ra rb : Nat)
  /-- `MODEXPL`, R193. -/
  | modexpl (rd ra rb : Nat)
deriving DecidableEq, Repr

/-- The errors of the block, all detected at issue (R211), in the order of the checks (R212). -/
inductive IssueError where
  /-- `E_OP`: the opcode is not in the map (R95). -/
  | op
  /-- `E_RSVD`: an unused field is not zero (R94). -/
  | rsvd
  /-- `E_LEN`: `LEN = 0` or `LEN > LMAX` (R24). -/
  | len
  /-- `E_BBITS`: `BBITS > 64·LEN` (R25). -/
  | bbits
  /-- `E_NOCTX`: the command needs the context and `CTXV = 0` (R33). -/
  | noCtx
  /-- `E_ADDR`: a region does not fit in `LMEM` (R66). -/
  | addr
deriving DecidableEq, Repr

end Sys2Proof
end

