-- ==== Sys2Proof/WellFormed.lean ====
section
/-! DEFINITION. Well-formed commands: every used field is a 14-bit word address (spec/30_encoding.md R91, R92). -/

namespace Sys2Proof

/-- A number that fits an address field (`ADDRW = 14` bits, R8, R91). -/
def fitsField (a : Nat) : Bool := decide (a < 2 ^ Config.addrBits)

/-- Every used field of the command fits its 14 bits. -/
def Instr.wellFormed (i : Instr) : Bool :=
  match i with
  | .add rd ra rb        => fitsField rd && fitsField ra && fitsField rb
  | .sub rd ra rb        => fitsField rd && fitsField ra && fitsField rb
  | .addmodn rd ra rb rc => fitsField rd && fitsField ra && fitsField rb && fitsField rc
  | .ltmask ra rb        => fitsField ra && fitsField rb
  | .mul rd ra rb        => fitsField rd && fitsField ra && fitsField rb
  | .sqr rd ra           => fitsField rd && fitsField ra
  | .kmul rd ra rb rc    => fitsField rd && fitsField ra && fitsField rb && fitsField rc
  | .ksqr rd ra rc       => fitsField rd && fitsField ra && fitsField rc
  | .precompr2 rd ra     => fitsField rd && fitsField ra
  | .ctxload ra          => fitsField ra
  | .redc rd ra          => fitsField rd && fitsField ra
  | .tomont rd ra        => fitsField rd && fitsField ra
  | .frommont rd ra      => fitsField rd && fitsField ra
  | .montmul rd ra rb    => fitsField rd && fitsField ra && fitsField rb
  | .montsqr rd ra       => fitsField rd && fitsField ra
  | .modexp rd ra rb     => fitsField rd && fitsField ra && fitsField rb
  | .modexpl rd ra rb    => fitsField rd && fitsField ra && fitsField rb

end Sys2Proof
end

