-- ==== Sys2Proof/Decode.lean ====
section
/-! DEFINITION. Decoding and encoding of the one 64-bit command format `C` (spec/30_encoding.md R90 to R97). The decoder
is total: every word is one command, or `E_OP` (R95), or `E_RSVD` (R94). The encoder is written from the same table. -/

namespace Sys2Proof

/-- The `op` field, bits 7:0 (R91). -/
def fieldOp (w : Word) : Nat := w.toNat % 2 ^ 8

/-- The `rd` field, bits 21:8 (R91). -/
def fieldRd (w : Word) : Nat := w.toNat / 2 ^ 8 % 2 ^ 14

/-- The `ra` field, bits 35:22 (R91). -/
def fieldRa (w : Word) : Nat := w.toNat / 2 ^ 22 % 2 ^ 14

/-- The `rb` field, bits 49:36 (R91). -/
def fieldRb (w : Word) : Nat := w.toNat / 2 ^ 36 % 2 ^ 14

/-- The `rc` field, bits 63:50 (R91). -/
def fieldRc (w : Word) : Nat := w.toNat / 2 ^ 50 % 2 ^ 14

/-- Accept a command only when its unused fields are zero (R94). -/
def withReservedZero (zero : Bool) (i : Instr) : Except IssueError Instr :=
  if zero then .ok i else .error .rsvd

/-- The opcode map (R93): every 64-bit word is one command or illegal by name. -/
def decode (w : Word) : Except IssueError Instr :=
  let rd := fieldRd w
  let ra := fieldRa w
  let rb := fieldRb w
  let rc := fieldRc w
  match fieldOp w with
  | 0x10 => withReservedZero (rc == 0) (.add rd ra rb)
  | 0x11 => withReservedZero (rc == 0) (.sub rd ra rb)
  | 0x12 => .ok (.addmodn rd ra rb rc)
  | 0x13 => withReservedZero (rd == 0 && rc == 0) (.ltmask ra rb)
  | 0x20 => withReservedZero (rc == 0) (.mul rd ra rb)
  | 0x21 => withReservedZero (rb == 0 && rc == 0) (.sqr rd ra)
  | 0x22 => .ok (.kmul rd ra rb rc)
  | 0x23 => withReservedZero (rb == 0) (.ksqr rd ra rc)
  | 0x30 => withReservedZero (rb == 0 && rc == 0) (.precompr2 rd ra)
  | 0x31 => withReservedZero (rd == 0 && rb == 0 && rc == 0) (.ctxload ra)
  | 0x32 => withReservedZero (rb == 0 && rc == 0) (.redc rd ra)
  | 0x33 => withReservedZero (rb == 0 && rc == 0) (.tomont rd ra)
  | 0x34 => withReservedZero (rb == 0 && rc == 0) (.frommont rd ra)
  | 0x35 => withReservedZero (rc == 0) (.montmul rd ra rb)
  | 0x36 => withReservedZero (rb == 0 && rc == 0) (.montsqr rd ra)
  | 0x40 => withReservedZero (rc == 0) (.modexp rd ra rb)
  | 0x41 => withReservedZero (rc == 0) (.modexpl rd ra rb)
  | _    => .error .op

/-- The opcode of a command (R93). -/
def Instr.opcode (i : Instr) : Nat :=
  match i with
  | .add _ _ _       => 0x10
  | .sub _ _ _       => 0x11
  | .addmodn _ _ _ _ => 0x12
  | .ltmask _ _      => 0x13
  | .mul _ _ _       => 0x20
  | .sqr _ _         => 0x21
  | .kmul _ _ _ _    => 0x22
  | .ksqr _ _ _      => 0x23
  | .precompr2 _ _   => 0x30
  | .ctxload _       => 0x31
  | .redc _ _        => 0x32
  | .tomont _ _      => 0x33
  | .frommont _ _    => 0x34
  | .montmul _ _ _   => 0x35
  | .montsqr _ _     => 0x36
  | .modexp _ _ _    => 0x40
  | .modexpl _ _ _   => 0x41

/-- The word with these fields: `w = op + rd·2^8 + ra·2^22 + rb·2^36 + rc·2^50` (R91). -/
def packWord (op rd ra rb rc : Nat) : Word :=
  BitVec.ofNat 64 (op + rd * 2 ^ 8 + ra * 2 ^ 22 + rb * 2 ^ 36 + rc * 2 ^ 50)

/-- The command word of a command; unused fields are 0 (R91, R94, R98). -/
def encode (i : Instr) : Word :=
  match i with
  | .add rd ra rb        => packWord i.opcode rd ra rb 0
  | .sub rd ra rb        => packWord i.opcode rd ra rb 0
  | .addmodn rd ra rb rc => packWord i.opcode rd ra rb rc
  | .ltmask ra rb        => packWord i.opcode 0 ra rb 0
  | .mul rd ra rb        => packWord i.opcode rd ra rb 0
  | .sqr rd ra           => packWord i.opcode rd ra 0 0
  | .kmul rd ra rb rc    => packWord i.opcode rd ra rb rc
  | .ksqr rd ra rc       => packWord i.opcode rd ra 0 rc
  | .precompr2 rd ra     => packWord i.opcode rd ra 0 0
  | .ctxload ra          => packWord i.opcode 0 ra 0 0
  | .redc rd ra          => packWord i.opcode rd ra 0 0
  | .tomont rd ra        => packWord i.opcode rd ra 0 0
  | .frommont rd ra      => packWord i.opcode rd ra 0 0
  | .montmul rd ra rb    => packWord i.opcode rd ra rb 0
  | .montsqr rd ra       => packWord i.opcode rd ra 0 0
  | .modexp rd ra rb     => packWord i.opcode rd ra rb 0
  | .modexpl rd ra rb    => packWord i.opcode rd ra rb 0

/-- The command the decoder reads from a table row's word: the low `nbits` bits of `w`, every bit above them 0
(log entry 21). A command is one word written whole to `CMD` (R77, R90), so there is no byte order to lay out. -/
def decodeTableWord (nbits w : Nat) : Option Instr :=
  match decode (BitVec.ofNat 64 (w % 2 ^ nbits)) with
  | .ok i    => some i
  | .error _ => none

end Sys2Proof
end

