-- ==== Sys2Proof/Machine/State.lean ====
section
/-! DEFINITION. The state of one block instance (spec/10_state.md R20, R38, R39), the model's own fields beside it, and
the reset state. Plain data; nothing here is a function. -/

namespace Sys2Proof.Machine

/-- One `LMEM` word at a word address. `LMEM` has no byte addressing (spec/20_memory.md R60, R62, R71), so the unit of
the limb memory is the 64-bit word (log entry 1). -/
abbrev LCell := Nat × Word

/-- The limb memory `LMEM` (R21): the words that hold a value, addresses strictly rising. An unlisted address holds NO
VALUE (spec/70_reset_and_hazards.md R248, spec/93_implementation_defined.md U7; log entry 2). -/
abbrev Memory := List LCell

/-- Addresses strictly rising from at least `lo`. -/
def Memory.risingFrom (lo : Nat) : Memory → Bool
  | []          => true
  | (a, _) :: m => decide (lo ≤ a) && Memory.risingFrom (a + 1) m

/-- The canonical form of a memory: addresses strictly rising. An unlisted address reads as no value, and no entry holds
"no value", so equal memories are equal lists. -/
def Memory.wf (m : Memory) : Bool := Memory.risingFrom 0 m

/-- One move of the block's surroundings, in the one total order of R74. The schedule is the model's own (log entry 10):
it says which agent moves next, so that every interleaving of host and engine is some schedule. -/
inductive Turn where
  /-- `RD reg` (spec/30_encoding.md R100): the host reads a register number of 15 bits (R60). -/
  | read (reg : BitVec 15)
  /-- `WR reg, v` (R100): the host writes a register. -/
  | write (reg : BitVec 15) (v : Word)
  /-- The engine's turn: it completes the command in flight, if there is one (R40). -/
  | engine
  /-- The platform asserts reset (spec/70_reset_and_hazards.md R240). -/
  | reset
deriving DecidableEq, Repr

/-- The machine. The first block of fields is R20's complete list of architectural state; the last five are the model's
own (INVENTORY.md, `## State`). -/
structure State where
  /-- `LMEM`, R21. -/
  lmem        : Memory
  /-- `CMD`, the command latch, R22. -/
  cmd         : Word
  /-- `STATUS.BUSY`, R23, R40. -/
  busy        : Bool
  /-- `STATUS.ERR`, R23, R214 to R216. -/
  err         : Bool
  /-- `STATUS.CY`, R27. -/
  cy          : Bool
  /-- `STATUS.CTXV`, R33. -/
  ctxv        : Bool
  /-- `STATUS.ERRCODE`, R23, R211. -/
  errCode     : BitVec 8
  /-- `LEN`, R24. -/
  len         : Word
  /-- `BBITS`, R25. -/
  bbits       : Word
  /-- `MASK`, R28. -/
  mask        : Word
  /-- `ERRCMD`, R29. -/
  errCmd      : Word
  /-- `CTX_N[0 .. LMAX-1]`, R30, limb 0 first. -/
  ctxN        : List Word
  /-- `CTX_NINV`, R31. -/
  ctxNinv     : Word
  /-- `CTX_R2[0 .. LMAX-1]`, R32, limb 0 first. -/
  ctxR2       : List Word
  /-- The parameters `LMAX`, `MEMWORDS` (R7, R38), which no step changes (log entry 11). -/
  params      : Params
  /-- The poison mark of U1: the context registers hold what a `CTXLOAD` of an illegal modulus left (log entry 5). -/
  ctxPoisoned : Bool
  /-- How many free values have been drawn (log entry 20). -/
  freeCtr     : Nat
  /-- The moves still to come, next first (log entry 10). -/
  schedule    : List Turn
  /-- What the last host read returned (log entry 12). -/
  readOut     : Option Word
deriving DecidableEq, Repr

/-- No step of this machine stops with a fault: the spec's errors are the issue errors, which are taken as R214 says
(`State.takeError`), every undefined situation of spec/93_implementation_defined.md has a next state with free values,
and R40, R210 let no command fail once it has started. The type has no constructor, so that nothing can be raised. -/
inductive Fault where
deriving DecidableEq, Repr

/-- Why an instruction has no meaning. -/
inductive Refusal where
  /-- Raised by an arm of `exec` whose instruction has no meaning yet; safe. Every arm has its meaning, so no step
  raises it. -/
  | notModelled (mnemonic : String)
deriving DecidableEq, Repr

/-- The outcome of a step or of a command. -/
abbrev Out := Host.Outcome State Fault Refusal

/-- The state after reset for given parameters (R39): every register and flag 0, `LMEM` without any value, and the
model's own fields empty (log entries 10, 12, 20). -/
def State.resetWith (p : Params) : State :=
  { lmem := [], cmd := 0#64, busy := false, err := false, cy := false, ctxv := false, errCode := 0#8, len := 0#64, bbits := 0#64,
    mask := 0#64, errCmd := 0#64, ctxN := List.replicate p.lmax 0#64, ctxNinv := 0#64, ctxR2 := List.replicate p.lmax 0#64,
    params := p, ctxPoisoned := false, freeCtr := 0, schedule := [], readOut := none }

/-- The machine right after reset (R39, R240), with the default parameters of R7. -/
def State.reset : State := State.resetWith Params.default

end Sys2Proof.Machine
end

