-- ==== Sys2Proof/Machine/Flags.lean ====
section
/-! DEFINITION. The flags: the `STATUS` word assembled from its bits (spec/10_state.md R23), the error codes
(spec/60_exceptions.md R211), and the verdict `LTMASK` leaves in `MASK` (R28, R114). `CY` is the carry or borrow that
`bnAdd` and `bnSub` return (R27). -/

namespace Sys2Proof.Machine

/-- The cause codes of `ERRCODE` (R211). -/
def errorCode (e : IssueError) : BitVec 8 :=
  match e with
  | .op    => 0x01#8
  | .rsvd  => 0x02#8
  | .len   => 0x03#8
  | .bbits => 0x04#8
  | .noCtx => 0x05#8
  | .addr  => 0x06#8

/-- `STATUS` (R23): bit 0 BUSY, bit 1 ERR, bit 2 CY, bit 3 CTXV, bits 15:8 ERRCODE, every other bit 0. -/
def statusWord (s : State) : Word :=
  BitVec.ofNat 64 (s.busy.toNat + 2 * s.err.toNat + 4 * s.cy.toNat + 8 * s.ctxv.toNat + 256 * s.errCode.toNat)

/-- `lt_mask(a, b)` (R114): the scan from the lowest limb with an all-zero accumulator. -/
def ltMaskBuf (a b : List Word) : Word := ltScan 0#64 a b

end Sys2Proof.Machine
end

