-- ==== Sys2Proof/Machine/Operands.lean ====
section
/-! DEFINITION. The operand forms of the commands: their regions (spec/20_memory.md R65, spec/30_encoding.md R93), which
of them are written, what else a command reads or writes (the "implicit" column of R93), and the permitted overlaps
(spec/70_reset_and_hazards.md R243). -/

namespace Sys2Proof.Machine

/-- A region: `len` consecutive `LMEM` words from `base` (R65). -/
structure Region where
  base : Nat
  len  : Nat
deriving DecidableEq, Repr

/-- The word address lies in the region. -/
def inRegion (r : Region) (a : Nat) : Bool := decide (r.base ≤ a) && decide (a < r.base + r.len)

/-- No word address is in both regions (R65: they do not overlap). -/
def regionsDisjoint (r q : Region) : Bool := decide (r.base + r.len ≤ q.base) || decide (q.base + q.len ≤ r.base)

/-- The regions are identical (same base, same length) or share no word (R65, R243). -/
def identicalOrDisjoint (r q : Region) : Bool := r == q || regionsDisjoint r q

/-- The regions a command writes, for `L = n` (the `W` and `RW` entries of R93). -/
def writtenRegions (i : Instr) (n : Nat) : List Region :=
  match i with
  | .add rd _ _        => [⟨rd, n⟩]
  | .sub rd _ _        => [⟨rd, n⟩]
  | .addmodn rd _ _ _  => [⟨rd, n⟩]
  | .ltmask _ _        => []
  | .mul rd _ _        => [⟨rd, 2 * n⟩]
  | .sqr rd _          => [⟨rd, 2 * n⟩]
  | .kmul rd _ _ rc    => [⟨rd, 2 * n⟩, ⟨rc, Config.karatsubaScratch * n⟩]
  | .ksqr rd _ rc      => [⟨rd, 2 * n⟩, ⟨rc, Config.karatsubaScratch * n⟩]
  | .precompr2 rd _    => [⟨rd, n⟩]
  | .ctxload _         => []
  | .redc rd ra        => [⟨rd, n⟩, ⟨ra, 2 * n⟩]
  | .tomont rd _       => [⟨rd, n⟩]
  | .frommont rd _     => [⟨rd, n⟩]
  | .montmul rd _ _    => [⟨rd, n⟩]
  | .montsqr rd _      => [⟨rd, n⟩]
  | .modexp rd _ _     => [⟨rd, n⟩]
  | .modexpl rd _ _    => [⟨rd, n⟩]

/-- The regions a command reads, for `L = n` (the `R` and `RW` entries of R93). -/
def readRegions (i : Instr) (n : Nat) : List Region :=
  match i with
  | .add _ ra rb        => [⟨ra, n⟩, ⟨rb, n⟩]
  | .sub _ ra rb        => [⟨ra, n⟩, ⟨rb, n⟩]
  | .addmodn _ ra rb rc => [⟨ra, n⟩, ⟨rb, n⟩, ⟨rc, n⟩]
  | .ltmask ra rb       => [⟨ra, n⟩, ⟨rb, n⟩]
  | .mul _ ra rb        => [⟨ra, n⟩, ⟨rb, n⟩]
  | .sqr _ ra           => [⟨ra, n⟩]
  | .kmul _ ra rb _     => [⟨ra, n⟩, ⟨rb, n⟩]
  | .ksqr _ ra _        => [⟨ra, n⟩]
  | .precompr2 _ ra     => [⟨ra, n⟩]
  | .ctxload ra         => [⟨ra, n⟩]
  | .redc _ ra          => [⟨ra, 2 * n⟩]
  | .tomont _ ra        => [⟨ra, n⟩]
  | .frommont _ ra      => [⟨ra, n⟩]
  | .montmul _ ra rb    => [⟨ra, n⟩, ⟨rb, n⟩]
  | .montsqr _ ra       => [⟨ra, n⟩]
  | .modexp _ ra rb     => [⟨ra, n⟩, ⟨rb, n⟩]
  | .modexpl _ ra rb    => [⟨ra, n⟩, ⟨rb, n⟩]

/-- Every region of a command, one per used field (R66, R93). -/
def commandRegions (i : Instr) (n : Nat) : List Region := writtenRegions i n ++ readRegions i n

/-- The command needs `CTXV = 1` (marked `ctx` in R93). -/
def needsCtx (i : Instr) : Bool :=
  match i with
  | .add _ _ _       => false
  | .sub _ _ _       => false
  | .addmodn _ _ _ _ => false
  | .ltmask _ _      => false
  | .mul _ _ _       => false
  | .sqr _ _         => false
  | .kmul _ _ _ _    => false
  | .ksqr _ _ _      => false
  | .precompr2 _ _   => false
  | .ctxload _       => false
  | .redc _ _        => true
  | .tomont _ _      => true
  | .frommont _ _    => true
  | .montmul _ _ _   => true
  | .montsqr _ _     => true
  | .modexp _ _ _    => true
  | .modexpl _ _ _   => true

/-- The command reads `BBITS` (R93). -/
def readsBbits (i : Instr) : Bool :=
  match i with
  | .add _ _ _       => false
  | .sub _ _ _       => false
  | .addmodn _ _ _ _ => false
  | .ltmask _ _      => false
  | .mul _ _ _       => false
  | .sqr _ _         => false
  | .kmul _ _ _ _    => false
  | .ksqr _ _ _      => false
  | .precompr2 _ _   => false
  | .ctxload _       => false
  | .redc _ _        => false
  | .tomont _ _      => false
  | .frommont _ _    => false
  | .montmul _ _ _   => false
  | .montsqr _ _     => false
  | .modexp _ _ _    => true
  | .modexpl _ _ _   => true

/-- The command writes `CY`: `ADD` and `SUB` only (R27). -/
def writesCy (i : Instr) : Bool :=
  match i with
  | .add _ _ _       => true
  | .sub _ _ _       => true
  | .addmodn _ _ _ _ => false
  | .ltmask _ _      => false
  | .mul _ _ _       => false
  | .sqr _ _         => false
  | .kmul _ _ _ _    => false
  | .ksqr _ _ _      => false
  | .precompr2 _ _   => false
  | .ctxload _       => false
  | .redc _ _        => false
  | .tomont _ _      => false
  | .frommont _ _    => false
  | .montmul _ _ _   => false
  | .montsqr _ _     => false
  | .modexp _ _ _    => false
  | .modexpl _ _ _   => false

/-- The command writes `MASK`: `LTMASK` only (R28). -/
def writesMask (i : Instr) : Bool :=
  match i with
  | .add _ _ _       => false
  | .sub _ _ _       => false
  | .addmodn _ _ _ _ => false
  | .ltmask _ _      => true
  | .mul _ _ _       => false
  | .sqr _ _         => false
  | .kmul _ _ _ _    => false
  | .ksqr _ _ _      => false
  | .precompr2 _ _   => false
  | .ctxload _       => false
  | .redc _ _        => false
  | .tomont _ _      => false
  | .frommont _ _    => false
  | .montmul _ _ _   => false
  | .montsqr _ _     => false
  | .modexp _ _ _    => false
  | .modexpl _ _ _   => false

/-- The regions of the command overlap only as R243's table permits: a written region is disjoint from every other
region, but for the destination identical to a source where the table says so. -/
def aliasingPermitted (i : Instr) (n : Nat) : Bool :=
  match i with
  | .add rd ra rb =>
    identicalOrDisjoint ⟨rd, n⟩ ⟨ra, n⟩ && identicalOrDisjoint ⟨rd, n⟩ ⟨rb, n⟩
  | .sub rd ra rb =>
    identicalOrDisjoint ⟨rd, n⟩ ⟨ra, n⟩ && identicalOrDisjoint ⟨rd, n⟩ ⟨rb, n⟩
  | .addmodn rd ra rb rc =>
    identicalOrDisjoint ⟨rd, n⟩ ⟨ra, n⟩ && identicalOrDisjoint ⟨rd, n⟩ ⟨rb, n⟩ && regionsDisjoint ⟨rd, n⟩ ⟨rc, n⟩
  | .ltmask _ _ => true
  | .mul rd ra rb =>
    regionsDisjoint ⟨rd, 2 * n⟩ ⟨ra, n⟩ && regionsDisjoint ⟨rd, 2 * n⟩ ⟨rb, n⟩
  | .sqr rd ra => regionsDisjoint ⟨rd, 2 * n⟩ ⟨ra, n⟩
  | .kmul rd ra rb rc =>
    regionsDisjoint ⟨rd, 2 * n⟩ ⟨ra, n⟩ && regionsDisjoint ⟨rd, 2 * n⟩ ⟨rb, n⟩ &&
    regionsDisjoint ⟨rd, 2 * n⟩ ⟨rc, Config.karatsubaScratch * n⟩ &&
    regionsDisjoint ⟨rc, Config.karatsubaScratch * n⟩ ⟨ra, n⟩ &&
    regionsDisjoint ⟨rc, Config.karatsubaScratch * n⟩ ⟨rb, n⟩
  | .ksqr rd ra rc =>
    regionsDisjoint ⟨rd, 2 * n⟩ ⟨ra, n⟩ && regionsDisjoint ⟨rd, 2 * n⟩ ⟨rc, Config.karatsubaScratch * n⟩ &&
    regionsDisjoint ⟨rc, Config.karatsubaScratch * n⟩ ⟨ra, n⟩
  | .precompr2 rd ra => regionsDisjoint ⟨rd, n⟩ ⟨ra, n⟩
  | .ctxload _ => true
  | .redc rd ra => regionsDisjoint ⟨rd, n⟩ ⟨ra, 2 * n⟩
  | .tomont rd ra => identicalOrDisjoint ⟨rd, n⟩ ⟨ra, n⟩
  | .frommont rd ra => identicalOrDisjoint ⟨rd, n⟩ ⟨ra, n⟩
  | .montmul rd ra rb =>
    identicalOrDisjoint ⟨rd, n⟩ ⟨ra, n⟩ && identicalOrDisjoint ⟨rd, n⟩ ⟨rb, n⟩
  | .montsqr rd ra => identicalOrDisjoint ⟨rd, n⟩ ⟨ra, n⟩
  | .modexp rd ra rb =>
    identicalOrDisjoint ⟨rd, n⟩ ⟨ra, n⟩ && identicalOrDisjoint ⟨rd, n⟩ ⟨rb, n⟩
  | .modexpl rd ra rb =>
    identicalOrDisjoint ⟨rd, n⟩ ⟨ra, n⟩ && identicalOrDisjoint ⟨rd, n⟩ ⟨rb, n⟩

end Sys2Proof.Machine
end

