-- ==== Sys2Proof/Machine/Ops.lean ====
section
/-! DEFINITION. The shared operations: reading and writing `LMEM` (spec/00_scope.md R11), free values
(spec/93_implementation_defined.md), taking an issue error and clearing it (spec/60_exceptions.md R214, R216), reset
(spec/70_reset_and_hazards.md R240), the issue checks (R212), the issue of a command (spec/10_state.md R40), and the
frame every command's meaning is written in (`command`, `modulusCommand`). -/

namespace Sys2Proof.Machine

/-- The value of an `LMEM` word, `none` where the word holds no value (R248). -/
def Memory.read (m : Memory) (a : Nat) : Option Word :=
  match m with
  | []          => none
  | (b, w) :: m => if a = b then some w else Memory.read m a

/-- Set one `LMEM` word, keeping the canonical form. -/
def Memory.write (m : Memory) (a : Nat) (w : Word) : Memory :=
  match m with
  | []          => [(a, w)]
  | (b, v) :: m =>
    if a < b then (a, w) :: (b, v) :: m
    else if a = b then (a, w) :: m
    else (b, v) :: Memory.write m a w

/-- `MemWrite(base, n, v)` (R11): limb `i` to word `base + i`. -/
def Memory.writeBuf (m : Memory) (base : Nat) (ws : List Word) : Memory :=
  match ws with
  | []      => m
  | w :: ws => Memory.writeBuf (Memory.write m base w) (base + 1) ws

/-- `MemRead(base, n)` (R11): the buffer at `base`, `none` if one of its words holds no value. -/
def Memory.readBuf (m : Memory) (base n : Nat) : Option (List Word) :=
  match n with
  | 0     => some []
  | n + 1 =>
    match Memory.read m base, Memory.readBuf m (base + 1) n with
    | some w, some ws => some (w :: ws)
    | _, _            => none

/-- Every word of the region holds no value from here on (U3, U4, U5, U7, U8). -/
def Memory.forget (m : Memory) (r : Region) : Memory := m.filter fun c => !inRegion r c.1

/-- `Memory.forget` on each region of a list. -/
def Memory.forgetAll (m : Memory) (rs : List Region) : Memory := rs.foldl Memory.forget m

/-- `L`, the value of `LEN` as a number (R6, R24). -/
def State.limbCount (s : State) : Nat := s.len.toNat

/-- The buffer a command reads at `base`: `n` words of `LMEM`. -/
def State.operand (s : State) (base n : Nat) : Option (List Word) := s.lmem.readBuf base n

/-- Store a buffer at `base`. -/
def State.store (s : State) (base : Nat) (ws : List Word) : State := { s with lmem := s.lmem.writeBuf base ws }

/-- Make the words of a region hold no value. -/
def State.forget (s : State) (r : Region) : State := { s with lmem := s.lmem.forget r }

/-- The engine completes a command: `BUSY <- 0` (R40). -/
def State.complete (s : State) : State := { s with busy := false }

/-- `raise E` for the word `w` (R214): `ERR <- 1`, `ERRCODE <- code`, `ERRCMD <- w`, `BUSY` is 0, and nothing else
changes. There is no handler, no vector and no saved state. -/
def State.takeError (s : State) (e : IssueError) (w : Word) : State :=
  { s with err := true, errCode := errorCode e, errCmd := w, busy := false }

/-- Return from an error, `CTRL.CLRERR` (R216): `ERR`, `ERRCODE` and `ERRCMD` become 0. -/
def State.clearError (s : State) : State := { s with err := false, errCode := 0#8, errCmd := 0#64 }

/-- The platform asserts reset (R240): every piece of architectural state takes its value of R39, also in the middle of
a command, and all of `LMEM` holds no value (U9). The parameters, the moves still to come, what the host read last and
the count of free values drawn are not the block's state and stay (log entry 13). -/
def State.takeReset (s : State) : State :=
  { State.resetWith s.params with freeCtr := s.freeCtr, schedule := s.schedule, readOut := s.readOut }

/-- Issue checks 3 to 6 of R212 for a decoded command, on unbounded integers, in the order of R213. Checks 1 and 2 are
the decoder's. -/
def issueError (i : Instr) (s : State) : Option IssueError :=
  if s.limbCount = 0 ∨ s.params.lmax < s.limbCount then some .len
  else if readsBbits i = true ∧ 64 * s.limbCount < s.bbits.toNat then some .bbits
  else if needsCtx i = true ∧ s.ctxv = false then some .noCtx
  else if (commandRegions i s.limbCount).any (fun r => decide (s.params.memWords < r.base + r.len)) = true then some .addr
  else none

/-- The command passed its checks: `CMD <- w`, `BUSY <- 1` (R212 step 7). -/
def State.accept (s : State) (w : Word) : State := { s with cmd := w, busy := true }

/-- The issue of a command (R40 step 1): the host writes `w` to `CMD` while `BUSY = 0`. Ignored entirely while `ERR = 1`
(R215); otherwise the checks of R212 run in order and the first that fails is raised. -/
def State.issue (s : State) (w : Word) : State :=
  if s.err then s
  else
    match decode w with
    | .error e => s.takeError e w
    | .ok i =>
      match issueError i s with
      | some e => s.takeError e w
      | none   => s.accept w

/-- A command completes and everything it writes is unspecified (U3, U4, U5; and U1, U6, U7 where it completes): every
word of every region it writes holds no value, `CY` (if it writes `CY`) is a free bit, `MASK` (if it writes `MASK`) is the
mask of a free bit, since `MASK` holds nothing but all-ones or all-zero after an `LTMASK` (R28, log entry 4). All other
state is unchanged. -/
def State.completeUnspecified (s : State) (i : Instr) : State :=
  { s with
    lmem    := s.lmem.forgetAll (writtenRegions i s.limbCount)
    cy      := if writesCy i then Config.freeBit s.freeCtr else s.cy
    mask    := if writesMask i then maskOf (Config.freeBit s.freeCtr) else s.mask
    freeCtr := s.freeCtr + 1
    busy    := false }

/-- A free value has been drawn and nothing else happens. -/
def State.skipFree (s : State) : State := { s with freeCtr := s.freeCtr + 1 }

/-- A command whose completion is not promised (R40; U1, U6, U7): a free bit says whether the engine completes it in this
turn; if not, `BUSY` stays as it is and the next engine turn tries again (log entries 3, 5, 6). -/
def State.perhaps (s : State) (completed : State → State) : State :=
  if Config.freeBit s.freeCtr then completed s.skipFree else s.skipFree

/-- Every word of every region the command reads holds a value (R248). -/
def operandsHeld (i : Instr) (s : State) : Bool :=
  (readRegions i s.limbCount).all fun r => (s.operand r.base r.len).isSome

/-- R40 promises the completion of a command whose result is specified; U3, U4 and U5 say that the commands they speak of
complete too. Left are a poisoned context (U1, U6) and a source word without a value (U7). -/
def completionPromised (i : Instr) (s : State) : Bool := !(needsCtx i && s.ctxPoisoned) && operandsHeld i s

/-- The meaning of a command that takes its modulus, if any, from the context registers. The issue checks come first
(R212; a command in flight passes them, log entry 9). A poisoned context or a source word without a value: completion not
promised and results unspecified (U1, U6, U7). A forbidden overlap: results unspecified (U4). `effect` is the command's
own effect, and `none` where a precondition on operand values fails (U3, U5). -/
def command (i : Instr) (s : State) (effect : Nat → Option State) : Out :=
  match issueError i s with
  | some e => .next (s.takeError e (encode i))
  | none =>
    if completionPromised i s then
      if aliasingPermitted i s.limbCount then
        match effect s.limbCount with
        | some t => .next t.complete
        | none   => .next (s.completeUnspecified i)
      else .next (s.completeUnspecified i)
    else .next (s.perhaps fun u => u.completeUnspecified i)

/-- `val(N)` is odd and at least 3: the modulus range of every rule of spec/42_montgomery.md (R160, R163; U1, U6). -/
def modulusLegal (n : List Word) : Bool := decide (val n % 2 = 1) && decide (3 ≤ val n)

/-- The meaning of a command that takes its modulus from `LMEM` at `ra` (`PRECOMPR2`, `CTXLOAD`). An illegal modulus, or
one with a word that holds no value: completion is not promised, and `illegal` is the state if it does complete (U1, U6,
U7). A forbidden overlap: results unspecified (U4). -/
def modulusCommand (i : Instr) (ra : Nat) (s : State) (illegal : State → State) (effect : List Word → State) : Out :=
  match issueError i s with
  | some e => .next (s.takeError e (encode i))
  | none =>
    match s.operand ra s.limbCount with
    | none   => .next (s.perhaps illegal)
    | some n =>
      if modulusLegal n then
        if aliasingPermitted i s.limbCount then .next (effect n).complete
        else .next (s.completeUnspecified i)
      else .next (s.perhaps illegal)

/-- `n` free words from a count on. -/
def freeWords (ctr n : Nat) : List Word := (List.range n).map fun k => Config.freeWord (ctr + k)

end Sys2Proof.Machine
end

