-- ==== Sys2Proof/Machine/ArithCore.lean ====
section
/-! DEFINITION. The Arithmetic Core commands (spec/40_arith_core.md): `ADD`, `SUB`, `ADDMODN`, `LTMASK`. All sources
are read before the destination is written (R110). -/

namespace Sys2Proof.Machine

/-- `ADD rd, ra, rb` (R111). -/
def execAdd (rd ra rb : Nat) (s : State) : Out :=
  command (.add rd ra rb) s fun n =>
    match s.operand ra n, s.operand rb n with
    | some a, some b => some { s.store rd (bnAdd a b).1 with cy := (bnAdd a b).2 }
    | _, _ => none

/-- `SUB rd, ra, rb` (R112). -/
def execSub (rd ra rb : Nat) (s : State) : Out :=
  command (.sub rd ra rb) s fun n =>
    match s.operand ra n, s.operand rb n with
    | some a, some b => some { s.store rd (bnSub a b).1 with cy := (bnSub a b).2 }
    | _, _ => none

/-- `ADDMODN rd, ra, rb, rc` (R113). Its precondition is `val(a) < val(n)` and `val(b) < val(n)`; where it fails the
result is unspecified (U3). -/
def execAddmodn (rd ra rb rc : Nat) (s : State) : Out :=
  command (.addmodn rd ra rb rc) s fun n =>
    match s.operand ra n, s.operand rb n, s.operand rc n with
    | some a, some b, some m => if val a < val m ∧ val b < val m then some (s.store rd (addModN m a b)) else none
    | _, _, _ => none

/-- `LTMASK ra, rb` (R114). -/
def execLtmask (ra rb : Nat) (s : State) : Out :=
  command (.ltmask ra rb) s fun n =>
    match s.operand ra n, s.operand rb n with
    | some a, some b => some { s with mask := ltMaskBuf a b }
    | _, _ => none

end Sys2Proof.Machine
end

