-- ==== Sys2Proof/Machine/Montgomery.lean ====
section
/-! DEFINITION. The Montgomery Engine commands (spec/42_montgomery.md): `PRECOMPR2`, `CTXLOAD`, `REDC`, `TOMONT`,
`FROMMONT`, `MONTMUL`, `MONTSQR`, and the functions they are made of (R161 to R164). -/

namespace Sys2Proof.Machine

/-- One step of the word inverse: it doubles the number of correct low bits of `x`. -/
def inverseStep (n0 x : Word) : Word := x * (2#64 - n0 * x)

/-- `mod_inv_word(n0)` (R161) for odd `n0`, by the method of spec/93_implementation_defined.md G1 (PRESUMED, log entry
14: the method is not observable, R161 fixes the value). -/
def modInvWord (n0 : Word) : Word :=
  0#64 - inverseStep n0 (inverseStep n0 (inverseStep n0 (inverseStep n0 (inverseStep n0 n0))))

/-- The last index from `i` on at which `p` holds, `ind` if there is none: the full scan of R162. -/
def lastIndex {α : Type} (p : α → Bool) : Nat → Nat → List α → Nat
  | _, ind, []      => ind
  | i, ind, x :: xs => lastIndex p (i + 1) (if p x then i else ind) xs

/-- `top_index(N)` (R162): the index of the highest set bit. -/
def topIndex (n : List Word) : Nat :=
  let ind := lastIndex (fun w => w != 0#64) 0 0 n
  let w := n.getD ind 0#64
  64 * ind + lastIndex (fun k => w.getLsbD k) 0 0 (List.range 64)

/-- `k` times `acc <- add_mod_n(N, acc, acc)` (R163). -/
def doublings (n : List Word) : Nat → List Word → List Word
  | 0,     acc => acc
  | k + 1, acc => doublings n k (addModN n acc acc)

/-- `precompute_r2(N)` (R163; the count is `128·L - tb`, spec/90_conflicts.md C2). -/
def precomputeR2 (n : List Word) : List Word :=
  let tb := topIndex n
  doublings n (128 * n.length - tb)
    ((List.replicate n.length 0#64).set (tb / 64) (BitVec.ofNat 64 (2 ^ (tb % 64))))

/-- The loop of `reduction` (R164): `win` is the window `C[i .. i+L)`, `rest` is `C[i+L .. 2L)`, `c0` the running carry
out of the fold (spec/90_conflicts.md C8). The result is `C[i .. L)`, the high half `hi`, and the last carry. -/
def redcLoop (n : List Word) (nInv : Word) : List Word → List Word → Bool → List Word × List Word × Bool
  | [],      win, c0 => ([], win, c0)
  | x :: xs, win, c0 =>
    let row := macRow (nInv * win.headD 0#64) n win 0#64
    let t := addc x row.2 c0
    let r := redcLoop n nInv xs (row.1.tail ++ [t.1]) t.2
    (row.1.headD 0#64 :: r.1, r.2)

/-- `reduction(N, nInv, C)` (R164): the reduced value, and `C` as the reduction leaves it. -/
def reduction (n : List Word) (nInv : Word) (c : List Word) : List Word × List Word :=
  let r := redcLoop n nInv (c.drop n.length) (c.take n.length) false
  (condSub r.2.2 r.2.1 n, r.1 ++ r.2.1)

/-- `to_montgomery(N, nInv, R2, a)` (R168). -/
def toMont (n : List Word) (nInv : Word) (r2 a : List Word) : List Word := (reduction n nInv (bnMul a r2)).1

/-- `from_montgomery(N, nInv, aM)` (R169): zero-extend to double width and reduce. -/
def fromMont (n : List Word) (nInv : Word) (aM : List Word) : List Word :=
  (reduction n nInv (aM ++ List.replicate n.length 0#64)).1

/-- `mont_mul(N, nInv, aM, bM)` (R170). -/
def montMul (n : List Word) (nInv : Word) (aM bM : List Word) : List Word := (reduction n nInv (bnMul aM bM)).1

/-- `mont_sqr(N, nInv, aM)` (R171). -/
def montSqr (n : List Word) (nInv : Word) (aM : List Word) : List Word := (reduction n nInv (bnSqr aM)).1

/-- `N` of the context at length `L`: `CTX_N[0..L)` (R160). -/
def State.modulus (s : State) (n : Nat) : List Word := s.ctxN.take n

/-- `R2` of the context at length `L`: `CTX_R2[0..L)` (R160). -/
def State.rSquared (s : State) (n : Nat) : List Word := s.ctxR2.take n


/-- A context register file of `LMAX` limbs from a buffer of `L` limbs, zeros above (R166). -/
def padTo (lmax : Nat) (ws : List Word) : List Word := ws ++ List.replicate (lmax - ws.length) 0#64

/-- The effect of `CTXLOAD` for a legal modulus (R166). -/
def State.loadContext (s : State) (n : List Word) : State :=
  { s with
    ctxN        := padTo s.params.lmax n
    ctxNinv     := modInvWord (n.headD 0#64)
    ctxR2       := padTo s.params.lmax (precomputeR2 n)
    ctxv        := true
    ctxPoisoned := false }

/-- The buffer at `ra` holds the modulus 1 (spec/93_implementation_defined.md U6). -/
def State.modulusIsOne (s : State) (ra : Nat) : Bool := decide (s.operand ra s.limbCount = some (limbs s.limbCount 1))

/-- `CTXLOAD` of an illegal modulus at `ra`, if it completes (U1, U6): all three context registers are unspecified, but
for the modulus 1 only `CTX_R2` is (R166's corner cases; R161 gives the inverse of 1). No error is raised, `CTXV` is set
as R166 says, and the context is marked poisoned (log entry 5). -/
def State.poisonContext (s : State) (ra : Nat) : State :=
  { s with
    ctxN        := if s.modulusIsOne ra then padTo s.params.lmax (limbs s.limbCount 1) else freeWords s.freeCtr s.params.lmax
    ctxNinv     := if s.modulusIsOne ra then modInvWord 1#64 else Config.freeWord (s.freeCtr + s.params.lmax)
    ctxR2       := freeWords (s.freeCtr + s.params.lmax + 1) s.params.lmax
    ctxv        := true
    ctxPoisoned := true
    freeCtr     := s.freeCtr + 2 * s.params.lmax + 1
    busy        := false }

/-- `PRECOMPR2 rd, ra` (R165). -/
def execPrecompr2 (rd ra : Nat) (s : State) : Out :=
  modulusCommand (.precompr2 rd ra) ra s (fun u => u.completeUnspecified (.precompr2 rd ra)) fun n =>
    s.store rd (precomputeR2 n)

/-- `CTXLOAD ra` (R166). -/
def execCtxload (ra : Nat) (s : State) : Out :=
  modulusCommand (.ctxload ra) ra s (fun u => u.poisonContext ra) fun n => s.loadContext n

/-- `REDC rd, ra` (R167): the source region is overwritten with what the reduction leaves of `C` (log entry 15). -/
def execRedc (rd ra : Nat) (s : State) : Out :=
  command (.redc rd ra) s fun n =>
    match s.operand ra (2 * n) with
    | some c =>
      if val c < val (s.modulus n) * 2 ^ (64 * n) then
        some ((s.store ra (reduction (s.modulus n) s.ctxNinv c).2).store rd (reduction (s.modulus n) s.ctxNinv c).1)
      else none
    | none => none

/-- `TOMONT rd, ra` (R168). -/
def execTomont (rd ra : Nat) (s : State) : Out :=
  command (.tomont rd ra) s fun n =>
    match s.operand ra n with
    | some a => some (s.store rd (toMont (s.modulus n) s.ctxNinv (s.rSquared n) a))
    | none   => none

/-- `FROMMONT rd, ra` (R169). -/
def execFrommont (rd ra : Nat) (s : State) : Out :=
  command (.frommont rd ra) s fun n =>
    match s.operand ra n with
    | some a => some (s.store rd (fromMont (s.modulus n) s.ctxNinv a))
    | none   => none

/-- `MONTMUL rd, ra, rb` (R170); a product at or above `N·R` leaves the result unspecified (U5). -/
def execMontmul (rd ra rb : Nat) (s : State) : Out :=
  command (.montmul rd ra rb) s fun n =>
    match s.operand ra n, s.operand rb n with
    | some a, some b =>
      if val a * val b < val (s.modulus n) * 2 ^ (64 * n) then
        some (s.store rd (montMul (s.modulus n) s.ctxNinv a b))
      else none
    | _, _ => none

/-- `MONTSQR rd, ra` (R171); a square at or above `N·R` leaves the result unspecified (U5). -/
def execMontsqr (rd ra : Nat) (s : State) : Out :=
  command (.montsqr rd ra) s fun n =>
    match s.operand ra n with
    | some a =>
      if val a * val a < val (s.modulus n) * 2 ^ (64 * n) then
        some (s.store rd (montSqr (s.modulus n) s.ctxNinv a))
      else none
    | none => none

end Sys2Proof.Machine
end

