-- ==== Sys2Proof/Machine/Exponentiation.lean ====
section
/-! DEFINITION. The Exponentiation Engine commands (spec/43_exponentiation.md): `MODEXP` (square and multiply) and
`MODEXPL` (Montgomery ladder). -/

namespace Sys2Proof.Machine

/-- `cswap(s, x, y)` (R191), word by word with the exclusive-or mask idiom. -/
def cswap (c : Bool) : List Word → List Word → List Word × List Word
  | x :: xs, y :: ys =>
    let dummy := maskOf c &&& (x ^^^ y)
    let r := cswap c xs ys
    ((x ^^^ dummy) :: r.1, (y ^^^ dummy) :: r.2)
  | xs, ys => (xs, ys)

/-- The loop of `MODEXP` (R192): `k` bits still to scan from bit `i` up. -/
def powerLoop (n : List Word) (nInv : Word) (b : List Word) : Nat → Nat → List Word → List Word → List Word
  | 0,     _, accM, _     => accM
  | k + 1, i, accM, baseM =>
    powerLoop n nInv b k (i + 1) (if bitAt b i then montMul n nInv accM baseM else accM) (montSqr n nInv baseM)

/-- `mod_exp(N, a, bBits, b)` (R192). -/
def modExp (n : List Word) (nInv : Word) (r2 a b : List Word) (bBits : Nat) : List Word :=
  fromMont n nInv
    (powerLoop n nInv b bBits 0 (toMont n nInv r2 (limbs n.length 1)) (toMont n nInv r2 a))

/-- The loop of `MODEXPL` (R193): the bits `i-1` down to `0` are still to scan, `prev` is the previous swap. The result
is `r0` after the final conditional swap. -/
def ladderLoop (n : List Word) (nInv : Word) (b : List Word) : Nat → Bool → List Word → List Word → List Word
  | 0,     prev, r0, r1 => (cswap prev r0 r1).1
  | i + 1, prev, r0, r1 =>
    let bi := bitAt b i
    let sw := cswap (bi ^^ prev) r0 r1
    ladderLoop n nInv b i bi (montSqr n nInv sw.1) (montMul n nInv sw.2 sw.1)

/-- `mod_exp_mont_ladder(N, a, bBits, b)` (R193). -/
def modExpLadder (n : List Word) (nInv : Word) (r2 a b : List Word) (bBits : Nat) : List Word :=
  fromMont n nInv
    (ladderLoop n nInv b bBits false (toMont n nInv r2 (limbs n.length 1)) (toMont n nInv r2 a))

/-- `MODEXP rd, ra, rb` (R192). -/
def execModexp (rd ra rb : Nat) (s : State) : Out :=
  command (.modexp rd ra rb) s fun n =>
    match s.operand ra n, s.operand rb n with
    | some a, some b => some (s.store rd (modExp (s.modulus n) s.ctxNinv (s.rSquared n) a b s.bbits.toNat))
    | _, _ => none

/-- `MODEXPL rd, ra, rb` (R193). -/
def execModexpl (rd ra rb : Nat) (s : State) : Out :=
  command (.modexpl rd ra rb) s fun n =>
    match s.operand ra n, s.operand rb n with
    | some a, some b => some (s.store rd (modExpLadder (s.modulus n) s.ctxNinv (s.rSquared n) a b s.bbits.toNat))
    | _, _ => none

end Sys2Proof.Machine
end

