-- ==== Sys2Proof/Machine/Multiplier.lean ====
section
/-! DEFINITION. The Multiplier commands (spec/41_multiplier.md): `MUL`, `SQR`, `KMUL`, `KSQR`, and the Karatsuba
functions (R134, R135, R137). -/

namespace Sys2Proof.Machine

/-- `sign_abs(x, y)` (R134): the absolute difference, and whether `val(y) > val(x)`. -/
def signAbs (x y : List Word) : List Word × Bool :=
  let d := bnSub x y
  (selectBuf (maskOf d.2) (bnSub y x).1 d.1, d.2)

/-- The carry chain above the middle window (R135 step 6): add a small carry and let it ripple. -/
def rippleAdd : Nat → List Word → List Word
  | _, []      => []
  | c, x :: xs => BitVec.ofNat 64 (x.toNat + c) :: rippleAdd ((x.toNat + c) / 2 ^ 64) xs

/-- Step 6 of R135: `p0 ‖ p1` with the middle term `mid` (top word `top`) added at limb `h`. -/
def assembleMiddle (h : Nat) (p0 p1 mid : List Word) (top : Word) : List Word :=
  let res := p0 ++ p1
  let n := mid.length
  let d := bnAdd ((res.drop h).take n) mid
  res.take h ++ d.1 ++ rippleAdd (top.toNat + d.2.toNat) (res.drop (h + n))

/-- `n < 32` or `n` odd: the Karatsuba recursion ends (R135, R137). -/
def karatsubaBase (n : Nat) : Bool := decide (n < Config.karatsubaThreshold) || decide (n % 2 = 1)

/-- `kara_mul(n, a, b)` (R135). The first argument bounds the depth of the recursion; `n` halves, so the operands' own
length is enough (log entry 22). -/
def karaMul : Nat → List Word → List Word → List Word
  | 0,        a, b => bnMul a b
  | fuel + 1, a, b =>
    let n := a.length
    if karatsubaBase n then bnMul a b
    else
      let h := n / 2
      let da := signAbs (a.take h) (a.drop h)
      let db := signAbs (b.take h) (b.drop h)
      let p0 := karaMul fuel (a.take h) (b.take h)
      let p1 := karaMul fuel (a.drop h) (b.drop h)
      let pd := karaMul fuel da.1 db.1
      let mid := bnAdd p0 p1
      let ts := bnSub mid.1 pd
      let ta := bnAdd mid.1 pd
      let m := maskOf (da.2 ^^ db.2)
      assembleMiddle h p0 p1 (selectBuf m ta.1 ts.1)
        (select m (bitWord mid.2 + bitWord ta.2) (bitWord mid.2 - bitWord ts.2))

/-- `kara_sqr(n, a)` (R137). -/
def karaSqr : Nat → List Word → List Word
  | 0,        a => bnSqr a
  | fuel + 1, a =>
    let n := a.length
    if karatsubaBase n then bnSqr a
    else
      let h := n / 2
      let da := signAbs (a.take h) (a.drop h)
      let p0 := karaSqr fuel (a.take h)
      let p1 := karaSqr fuel (a.drop h)
      let pd := karaSqr fuel da.1
      let mid := bnAdd p0 p1
      let ts := bnSub mid.1 pd
      assembleMiddle h p0 p1 ts.1 (bitWord mid.2 - bitWord ts.2)

/-- `MUL rd, ra, rb` (R131). -/
def execMul (rd ra rb : Nat) (s : State) : Out :=
  command (.mul rd ra rb) s fun n =>
    match s.operand ra n, s.operand rb n with
    | some a, some b => some (s.store rd (bnMul a b))
    | _, _ => none

/-- `SQR rd, ra` (R133). -/
def execSqr (rd ra : Nat) (s : State) : Out :=
  command (.sqr rd ra) s fun n =>
    match s.operand ra n with
    | some a => some (s.store rd (bnSqr a))
    | none   => none

/-- `KMUL rd, ra, rb, rc` (R136). Every word of the scratch region holds no value afterwards (R139, U8). -/
def execKmul (rd ra rb rc : Nat) (s : State) : Out :=
  command (.kmul rd ra rb rc) s fun n =>
    match s.operand ra n, s.operand rb n with
    | some a, some b =>
      some ((s.store rd (karaMul a.length a b)).forget ⟨rc, Config.karatsubaScratch * n⟩)
    | _, _ => none

/-- `KSQR rd, ra, rc` (R138). Every word of the scratch region holds no value afterwards (R139, U8). -/
def execKsqr (rd ra rc : Nat) (s : State) : Out :=
  command (.ksqr rd ra rc) s fun n =>
    match s.operand ra n with
    | some a => some ((s.store rd (karaSqr a.length a)).forget ⟨rc, Config.karatsubaScratch * n⟩)
    | none   => none

end Sys2Proof.Machine
end

