-- ==== Sys2Proof/Machine/Dispatch.lean ====
section
/-! DEFINITION. One arm per command: the engine's completion of a decoded command (spec/10_state.md R40 step 2). -/

namespace Sys2Proof.Machine

def exec (i : Instr) (s : State) : Host.Outcome State Fault Refusal :=
  match i with
  | .add rd ra rb => Sys2Proof.Machine.execAdd rd ra rb s
  | .sub rd ra rb => Sys2Proof.Machine.execSub rd ra rb s
  | .addmodn rd ra rb rc => Sys2Proof.Machine.execAddmodn rd ra rb rc s
  | .ltmask ra rb => Sys2Proof.Machine.execLtmask ra rb s
  | .mul rd ra rb => Sys2Proof.Machine.execMul rd ra rb s
  | .sqr rd ra => Sys2Proof.Machine.execSqr rd ra s
  | .kmul rd ra rb rc => Sys2Proof.Machine.execKmul rd ra rb rc s
  | .ksqr rd ra rc => Sys2Proof.Machine.execKsqr rd ra rc s
  | .precompr2 rd ra => Sys2Proof.Machine.execPrecompr2 rd ra s
  | .ctxload ra => Sys2Proof.Machine.execCtxload ra s
  | .redc rd ra => Sys2Proof.Machine.execRedc rd ra s
  | .tomont rd ra => Sys2Proof.Machine.execTomont rd ra s
  | .frommont rd ra => Sys2Proof.Machine.execFrommont rd ra s
  | .montmul rd ra rb => Sys2Proof.Machine.execMontmul rd ra rb s
  | .montsqr rd ra => Sys2Proof.Machine.execMontsqr rd ra s
  | .modexp rd ra rb => Sys2Proof.Machine.execModexp rd ra rb s
  | .modexpl rd ra rb => Sys2Proof.Machine.execModexpl rd ra rb s

end Sys2Proof.Machine
end

