-- ==== Sys2Proof/Machine/HostPort.lean ====
section
/-! DEFINITION. The host register interface (spec/20_memory.md R60 to R64): the register map, reads and writes of one
whole 64-bit register, and the lockout while a command is in flight. -/

namespace Sys2Proof.Machine

/-- What a host register number names (R61). -/
inductive HostReg where
  /-- `0x0000`, R22. -/
  | cmd
  /-- `0x0001`, R23. -/
  | status
  /-- `0x0002`, R26. -/
  | ctrl
  /-- `0x0003`, R24. -/
  | len
  /-- `0x0004`, R25. -/
  | bbits
  /-- `0x0005`, R28. -/
  | mask
  /-- `0x0006`, R31. -/
  | ctxNinv
  /-- `0x0007`, R29. -/
  | errCmd
  /-- `0x1000 + i`, R30. -/
  | ctxN (i : Nat)
  /-- `0x2000 + i`, R32. -/
  | ctxR2 (i : Nat)
  /-- `0x4000 + w`, R21. -/
  | lmem (w : Nat)
  /-- Every other number, R63. -/
  | unmapped
deriving DecidableEq, Repr

/-- The register map (R61). -/
def hostReg (p : Params) (reg : BitVec 15) : HostReg :=
  let n := reg.toNat
  if n = 0x0000 then .cmd
  else if n = 0x0001 then .status
  else if n = 0x0002 then .ctrl
  else if n = 0x0003 then .len
  else if n = 0x0004 then .bbits
  else if n = 0x0005 then .mask
  else if n = 0x0006 then .ctxNinv
  else if n = 0x0007 then .errCmd
  else if n < 0x1000 then .unmapped
  else if n < 0x2000 then (if n - 0x1000 < p.lmax then .ctxN (n - 0x1000) else .unmapped)
  else if n < 0x3000 then (if n - 0x2000 < p.lmax then .ctxR2 (n - 0x2000) else .unmapped)
  else if n < 0x4000 then .unmapped
  else if n - 0x4000 < p.memWords then .lmem (n - 0x4000)
  else .unmapped

/-- The value of a readable register; `none` for an `LMEM` word that holds no value. A write-only or unmapped register
reads 0 (R26, R63). -/
def State.readReg (s : State) (r : HostReg) : Option Word :=
  match r with
  | .cmd      => some s.cmd
  | .status   => some (statusWord s)
  | .ctrl     => some 0#64
  | .len      => some s.len
  | .bbits    => some s.bbits
  | .mask     => some s.mask
  | .ctxNinv  => some s.ctxNinv
  | .errCmd   => some s.errCmd
  | .ctxN i   => some (s.ctxN.getD i 0#64)
  | .ctxR2 i  => some (s.ctxR2.getD i 0#64)
  | .lmem w   => s.lmem.read w
  | .unmapped => some 0#64

/-- The host is handed a value. -/
def State.answer (s : State) (v : Word) : State := { s with readOut := some v }

/-- `RD reg` (R62 to R64). No register has a side effect on read. While `BUSY = 1` every register but `STATUS` reads 0.
A word that holds no value reads as a free value, drawn anew for each read (U7). -/
def State.hostRead (s : State) (reg : BitVec 15) : State :=
  let r := hostReg s.params reg
  if s.busy && r != .status then s.answer 0#64
  else
    match s.readReg r with
    | some v => s.answer v
    | none   => s.skipFree.answer (Config.freeWord s.freeCtr)

/-- A write of `LEN` (R24, R33): every write clears `CTXV`, also of the value it holds. -/
def State.setLen (s : State) (v : Word) : State := { s with len := v, ctxv := false }

/-- A write of `BBITS` (R25). -/
def State.setBbits (s : State) (v : Word) : State := { s with bbits := v }

/-- A write of an `LMEM` word through the window (R61). -/
def State.setWord (s : State) (w : Nat) (v : Word) : State := { s with lmem := s.lmem.write w v }

/-- `WR reg, v` (R62 to R64). While `BUSY = 1` every write is dropped; writes to read-only and unmapped registers are
ignored; `CMD` issues a command, `CTRL` bit 0 clears the error. -/
def State.hostWrite (s : State) (reg : BitVec 15) (v : Word) : State :=
  if s.busy then s
  else
    match hostReg s.params reg with
    | .cmd      => s.issue v
    | .ctrl     => if v.getLsbD 0 then s.clearError else s
    | .len      => s.setLen v
    | .bbits    => s.setBbits v
    | .lmem w   => s.setWord w v
    | .status   => s
    | .mask     => s
    | .ctxNinv  => s
    | .errCmd   => s
    | .ctxN _   => s
    | .ctxR2 _  => s
    | .unmapped => s

end Sys2Proof.Machine
end

