-- ==== Sys2Proof/Machine/Engine.lean ====
section
/-! DEFINITION. The moves a step is made of: the engine's turn (spec/10_state.md R40 step 2), the word it runs
(spec/20_memory.md R77), and the turns of host and platform. `Step.lean` only calls these. -/

namespace Sys2Proof.Machine

/-- Run the latched command word: decode it and execute the command. A word in flight has passed its checks (R22, R40),
so the decoder accepts it; a latch that holds an illegal word, which no run reaches, raises its error (log entry 9). -/
def runLatch (s : State) : Out :=
  match decode s.cmd with
  | .ok i    => exec i s
  | .error e => .next (s.takeError e s.cmd)

/-- The engine's turn: it completes the command in flight; with `BUSY = 0` it is idle and keeps all state (R40, R225). -/
def engineTurn (s : State) : Out := if s.busy then runLatch s else .next s

/-- One turn of the schedule, taken in a state that no longer lists it. -/
def takeTurn (t : Turn) (s : State) : Out :=
  match t with
  | .read reg    => .next (s.hostRead reg)
  | .write reg v => .next (s.hostWrite reg v)
  | .engine      => engineTurn s
  | .reset       => .next s.takeReset

/-- The schedule without its first turn. -/
def State.dropTurn (s : State) : State := { s with schedule := s.schedule.tail }

/-- Latch a command word as if it had just been issued, with the engine's turn next (log entry 17). -/
def State.latchWord (s : State) (w : Word) : State :=
  { s with cmd := w, busy := true, schedule := .engine :: s.schedule }

end Sys2Proof.Machine
end

