-- ==== Sys2Proof/Machine/Step.lean ====
section
/-! DEFINITION. One step of the machine: the next turn of the schedule; with no turn left, the engine's (so a command in
flight is completed, the fairness R249 assumes). -/

namespace Sys2Proof.Machine

/-- One step. -/
def step (s : State) : Host.Outcome State Fault Refusal :=
  match s.schedule with
  | []     => engineTurn s
  | t :: _ => takeTurn t s.dropTurn

/-- `s` with the command word `w` (its low `nbits` bits; the bits above are 0) latched where the engine takes its next
command from, and the engine's turn next: `step` runs exactly that command (log entry 17). -/
def State.withFetchWord (s : State) (nbits w : Nat) : State := s.latchWord (BitVec.ofNat 64 (w % 2 ^ nbits))

end Sys2Proof.Machine
end

