-- ==== Sys2Proof/Machine/Assembler.lean ====
section
/-! DEFINITION. The assembler's view of a command (spec/30_encoding.md R98), the pseudo-instructions (R99), and the host
directives as turns of a schedule (R100). -/

namespace Sys2Proof.Machine

/-- The register number of `CMD` (spec/20_memory.md R61). -/
def regCmd : BitVec 15 := 0x0000

/-- The register number of `STATUS` (R61). -/
def regStatus : BitVec 15 := 0x0001

/-- The register number of `CTRL` (R61). -/
def regCtrl : BitVec 15 := 0x0002

/-- The register number of `LEN` (R61). -/
def regLen : BitVec 15 := 0x0003

/-- The register number of `BBITS` (R61). -/
def regBbits : BitVec 15 := 0x0004

/-- The register number of `LMEM[w]` (R61). -/
def regLmem (w : Nat) : BitVec 15 := BitVec.ofNat 15 (0x4000 + w)

/-- The mnemonic of a command (R93). -/
def mnemonic (i : Instr) : String :=
  match i with
  | .add _ _ _       => "ADD"
  | .sub _ _ _       => "SUB"
  | .addmodn _ _ _ _ => "ADDMODN"
  | .ltmask _ _      => "LTMASK"
  | .mul _ _ _       => "MUL"
  | .sqr _ _         => "SQR"
  | .kmul _ _ _ _    => "KMUL"
  | .ksqr _ _ _      => "KSQR"
  | .precompr2 _ _   => "PRECOMPR2"
  | .ctxload _       => "CTXLOAD"
  | .redc _ _        => "REDC"
  | .tomont _ _      => "TOMONT"
  | .frommont _ _    => "FROMMONT"
  | .montmul _ _ _   => "MONTMUL"
  | .montsqr _ _     => "MONTSQR"
  | .modexp _ _ _    => "MODEXP"
  | .modexpl _ _ _   => "MODEXPL"

/-- The written operands of a command: its used fields in the order `rd, ra, rb, rc` (R98). -/
def asmOperands (i : Instr) : List Nat :=
  match i with
  | .add rd ra rb        => [rd, ra, rb]
  | .sub rd ra rb        => [rd, ra, rb]
  | .addmodn rd ra rb rc => [rd, ra, rb, rc]
  | .ltmask ra rb        => [ra, rb]
  | .mul rd ra rb        => [rd, ra, rb]
  | .sqr rd ra           => [rd, ra]
  | .kmul rd ra rb rc    => [rd, ra, rb, rc]
  | .ksqr rd ra rc       => [rd, ra, rc]
  | .precompr2 rd ra     => [rd, ra]
  | .ctxload ra          => [ra]
  | .redc rd ra          => [rd, ra]
  | .tomont rd ra        => [rd, ra]
  | .frommont rd ra      => [rd, ra]
  | .montmul rd ra rb    => [rd, ra, rb]
  | .montsqr rd ra       => [rd, ra]
  | .modexp rd ra rb     => [rd, ra, rb]
  | .modexpl rd ra rb    => [rd, ra, rb]

/-- A line of assembler, mnemonic and operands, as the command it stands for (R98, and the two pseudo-instructions of
R99). A wrong operand count or an address over 14 bits is no command. -/
def assemble (name : String) (ops : List Nat) : Option Instr :=
  let i : Option Instr :=
    match name, ops with
    | "ADD", [rd, ra, rb]            => some (.add rd ra rb)
    | "SUB", [rd, ra, rb]            => some (.sub rd ra rb)
    | "ADDMODN", [rd, ra, rb, rc]    => some (.addmodn rd ra rb rc)
    | "LTMASK", [ra, rb]             => some (.ltmask ra rb)
    | "MUL", [rd, ra, rb]            => some (.mul rd ra rb)
    | "SQR", [rd, ra]                => some (.sqr rd ra)
    | "KMUL", [rd, ra, rb, rc]       => some (.kmul rd ra rb rc)
    | "KSQR", [rd, ra, rc]           => some (.ksqr rd ra rc)
    | "PRECOMPR2", [rd, ra]          => some (.precompr2 rd ra)
    | "CTXLOAD", [ra]                => some (.ctxload ra)
    | "REDC", [rd, ra]               => some (.redc rd ra)
    | "TOMONT", [rd, ra]             => some (.tomont rd ra)
    | "FROMMONT", [rd, ra]           => some (.frommont rd ra)
    | "MONTMUL", [rd, ra, rb]        => some (.montmul rd ra rb)
    | "MONTSQR", [rd, ra]            => some (.montsqr rd ra)
    | "MODEXP", [rd, ra, rb]         => some (.modexp rd ra rb)
    | "MODEXPL", [rd, ra, rb]        => some (.modexpl rd ra rb)
    | "DBLMODN", [rd, ra, rc]        => some (.addmodn rd ra ra rc)
    | "SCHOOLBOOK_MUL", [rd, ra, rb] => some (.mul rd ra rb)
    | _, _                           => none
  i.filter Instr.wellFormed

/-- `WAIT` (R100) when the engine completes after `polls` reads that still show `BUSY`: those reads of `STATUS`, the
engine's turn, and the read that shows `BUSY = 0`. -/
def waitTurns (polls : Nat) : List Turn := List.replicate polls (.read regStatus) ++ [.engine, .read regStatus]

/-- A command line (R100): `WR CMD, <encoding>` followed by `WAIT`. -/
def commandTurns (i : Instr) (polls : Nat) : List Turn := .write regCmd (encode i) :: waitTurns polls

/-- `LOADBN base, L, v` (R100): write limb `i` of the buffer to `LMEM[base+i]`. -/
def loadBufTurns (base : Nat) : List Word → List Turn
  | []      => []
  | w :: ws => .write (regLmem base) w :: loadBufTurns (base + 1) ws

end Sys2Proof.Machine
end

