-- ==== Sys2Proof/Machine/Serialization.lean ====
section
/-! DEFINITION. The serialization contract between byte strings and limb buffers (spec/20_memory.md R68 to R70). The
block has no command for it: the host applies it at the `LMEM` window. -/

namespace Sys2Proof.Machine

/-- The big-endian number a byte string denotes (R68, R69). -/
def bytesVal : List Byte → Nat
  | []      => 0
  | b :: bs => b.toNat * 256 ^ bs.length + bytesVal bs

/-- The eight bytes of a limb, most significant first (R68). -/
def limbBytes (w : Word) : List Byte := (List.range 8).map fun k => BitVec.ofNat 8 (w.toNat / 2 ^ (8 * (7 - k)))

/-- The whole byte string of a buffer, most significant limb first (R68): `8·L` bytes. -/
def bufferBytes (b : List Word) : List Byte := b.reverse.flatMap limbBytes

/-- `to_bytes_be` for a requested byte length `len` with `8·(L-1) < len ≤ 8·L` (R68): the leading bytes are dropped.
No result for another length (log entry 23). -/
def toBytesBE (b : List Word) (len : Nat) : Option (List Byte) :=
  if 8 * (b.length - 1) < len ∧ len ≤ 8 * b.length then some ((bufferBytes b).drop (8 * b.length - len)) else none

/-- `from_bytes_be(len, s)` (R69) with the cap `LMAX`: `ceil(len / 8)` limbs of the left-padded string; no result for
length 0 or for more than `LMAX` limbs. -/
def fromBytesBE (lmax : Nat) (s : List Byte) : Option (List Word) :=
  let n := (s.length + 7) / 8
  let p := List.replicate (8 * n - s.length) 0 ++ s
  if s.length = 0 ∨ lmax < n then none
  else some ((List.range n).map fun i => BitVec.ofNat 64 (bytesVal ((p.drop (8 * (n - 1 - i))).take 8)))

end Sys2Proof.Machine
end

