-- ==== Sys2Proof/Safety.lean ====
section
/-! DEFINITION. The terms claims use: the invariant every step keeps, when a command takes its full effect, what a
command leaves alone, and runs of several steps. -/

namespace Sys2Proof.Machine

/-- A Montgomery context as `CTXLOAD` builds it (spec/42_montgomery.md R161, R163, R166): an odd modulus of at least 3,
its word inverse, and `2^(128L) mod N`. -/
structure ContextFor (n : List Word) (nInv : Word) (r2 : List Word) : Prop where
  odd      : val n % 2 = 1
  three    : 3 ≤ val n
  inverse  : nInv * n.headD 0#64 = BitVec.allOnes 64
  r2Length : r2.length = n.length
  r2Val    : val r2 = 2 ^ (128 * n.length) % val n

/-- The context registers hold a context of a legal modulus for the current `LEN` (spec/10_state.md R30 to R33): what
the preconditions of the Montgomery and exponentiation commands ask for (spec/42_montgomery.md R160). -/
structure ContextReady (s : State) : Prop where
  legal      : ContextFor (s.modulus s.limbCount) s.ctxNinv (s.rSquared s.limbCount)
  length     : (s.modulus s.limbCount).length = s.limbCount
  unpoisoned : s.ctxPoisoned = false

/-- The command passes its issue checks (spec/60_exceptions.md R212) and its regions overlap only as
spec/70_reset_and_hazards.md R243 permits. -/
structure Runs (i : Instr) (s : State) : Prop where
  issued  : issueError i s = none
  regions : aliasingPermitted i s.limbCount = true

/-- The invariant. -/
structure Inv (s : State) : Prop where
  /-- R7. -/
  params     : s.params.ok
  /-- The memory keeps its canonical form. -/
  memory     : s.lmem.wf = true
  /-- `LMEM` has `MEMWORDS` words (R21). -/
  memBound   : ∀ c ∈ s.lmem, c.1 < s.params.memWords
  /-- `CTX_N` and `CTX_R2` have `LMAX` limbs (R30, R32). -/
  ctxNLength : s.ctxN.length = s.params.lmax
  ctxRLength : s.ctxR2.length = s.params.lmax
  /-- The latch holds 0 or a command that passed the decoder's checks (R22). -/
  latch      : s.cmd = 0#64 ∨ ∃ i, decode s.cmd = .ok i
  /-- A command in flight has passed all its checks, and no error stands (R40, R212, R215). -/
  inFlight   : s.busy = true → s.err = false ∧ ∃ i, decode s.cmd = .ok i ∧ issueError i s = none
  /-- `ERRCODE` and `ERRCMD` are 0 when `ERR = 0` (R23, R29). -/
  noError    : s.err = false → s.errCode = 0#8 ∧ s.errCmd = 0#64
  /-- A recorded error has a code of R211, and `E_OP` or `E_RSVD` exactly for a word the decoder refuses so. -/
  error      : s.err = true → ∃ e, s.errCode = errorCode e ∧
                 (decode s.errCmd = .error e ∨ (e ≠ .op ∧ e ≠ .rsvd ∧ ∃ i, decode s.errCmd = .ok i))
  /-- `MASK` is all-ones or all-zero (R28). -/
  mask       : s.mask = 0#64 ∨ s.mask = BitVec.allOnes 64
  /-- A valid context was built under a legal `LEN` (R33). -/
  ctxLength  : s.ctxv = true → 1 ≤ s.limbCount ∧ s.limbCount ≤ s.params.lmax
  /-- A valid context that is not poisoned is the context of an odd modulus of at least 3 (R30 to R33, U1). -/
  ctxLegal   : s.ctxv = true → s.ctxPoisoned = false →
                 ContextFor (s.modulus s.limbCount) s.ctxNinv (s.rSquared s.limbCount)
  /-- The limbs above `L` of such a context are 0 (R30, R32). -/
  ctxPadding : s.ctxv = true → s.ctxPoisoned = false →
                 s.ctxN.drop s.limbCount = List.replicate (s.params.lmax - s.limbCount) 0#64 ∧
                 s.ctxR2.drop s.limbCount = List.replicate (s.params.lmax - s.limbCount) 0#64

/-- `t` has the host-written and error registers of `s`, its latch, and the model's own fields but the count of free
values: what no command's completion changes (spec/60_exceptions.md R226). -/
structure SameHostSide (s t : State) : Prop where
  cmd      : t.cmd = s.cmd
  err      : t.err = s.err
  errCode  : t.errCode = s.errCode
  errCmd   : t.errCmd = s.errCmd
  len      : t.len = s.len
  bbits    : t.bbits = s.bbits
  params   : t.params = s.params
  schedule : t.schedule = s.schedule
  readOut  : t.readOut = s.readOut

/-- `t` has the Montgomery context of `s`, valid or not (spec/10_state.md R34). -/
structure SameContext (s t : State) : Prop where
  ctxv        : t.ctxv = s.ctxv
  ctxN        : t.ctxN = s.ctxN
  ctxNinv     : t.ctxNinv = s.ctxNinv
  ctxR2       : t.ctxR2 = s.ctxR2
  ctxPoisoned : t.ctxPoisoned = s.ctxPoisoned

/-- Every `LMEM` word outside the regions reads in `t` as in `s`. -/
def SameLmemOutside (rs : List Region) (s t : State) : Prop :=
  ∀ a, (∀ r ∈ rs, inRegion r a = false) → t.lmem.read a = s.lmem.read a

/-- `k` steps. -/
def steps : Nat → State → Out
  | 0,     s => .next s
  | k + 1, s =>
    match step s with
    | .next t    => steps k t
    | .fault f   => .fault f
    | .refused r => .refused r

end Sys2Proof.Machine
end

