-- ==== Sys2Proof/Certificates/Slice0/Obligations.lean ====
section
/-! DEFINITION. The statements for the provers. `L` is `s.limbCount`, the value of `LEN`; a result of `L` limbs with the
value `v` is `limbs L v`. -/

open Sys2Proof Sys2Proof.Machine

namespace Sys2Proof.Claims

/-! The opcode map of spec/30_encoding.md R93 written a second time, as a table, so that the statements about decoding
and issue do not rest on the decoder's own text. -/

/-- One row of R93: the opcode, the lengths of the regions the fields `rd`, `ra`, `rb`, `rc` name in multiples of `L`
(0: the field is unused), whether the command needs the context, and whether it reads `BBITS`. -/
structure Row where
  op    : Nat
  rd    : Nat
  ra    : Nat
  rb    : Nat
  rc    : Nat
  ctx   : Bool
  bbits : Bool

/-- The 17 rows of R93, in its order. -/
def rows : List Row :=
  [⟨0x10, 1, 1, 1, 0, false, false⟩, ⟨0x11, 1, 1, 1, 0, false, false⟩, ⟨0x12, 1, 1, 1, 1, false, false⟩,
   ⟨0x13, 0, 1, 1, 0, false, false⟩] ++
  [⟨0x20, 2, 1, 1, 0, false, false⟩, ⟨0x21, 2, 1, 0, 0, false, false⟩, ⟨0x22, 2, 1, 1, 4, false, false⟩,
   ⟨0x23, 2, 1, 0, 4, false, false⟩] ++
  [⟨0x30, 1, 1, 0, 0, false, false⟩, ⟨0x31, 0, 1, 0, 0, false, false⟩, ⟨0x32, 1, 2, 0, 0, true, false⟩,
   ⟨0x33, 1, 1, 0, 0, true, false⟩, ⟨0x34, 1, 1, 0, 0, true, false⟩, ⟨0x35, 1, 1, 1, 0, true, false⟩,
   ⟨0x36, 1, 1, 0, 0, true, false⟩] ++
  [⟨0x40, 1, 1, 1, 0, true, true⟩, ⟨0x41, 1, 1, 1, 0, true, true⟩]

/-- The `op` field, `w[7:0]` (R91). -/
def opOf (w : Word) : Nat := w.toNat % 256

/-- The row of a word's opcode. -/
def rowOf (w : Word) : Option Row := rows.find? fun r => r.op == opOf w

/-- The address fields of a word (R91: `rd` is 21:8, `ra` 35:22, `rb` 49:36, `rc` 63:50), each with the length factor its
row gives it. -/
def addressFields (r : Row) (w : Word) : List (Nat × Nat) :=
  [(w.toNat / 2 ^ 8 % 16384, r.rd), (w.toNat / 2 ^ 22 % 16384, r.ra), (w.toNat / 2 ^ 36 % 16384, r.rb),
   (w.toNat / 2 ^ 50 % 16384, r.rc)]

/-- An unused field is not zero (R94). -/
def reservedViolated (r : Row) (w : Word) : Bool := (addressFields r w).any fun f => f.2 == 0 && f.1 != 0

/-- A region does not fit in `LMEM` (R66): `base + n > MEMWORDS`, for a used field. -/
def regionViolated (r : Row) (w : Word) (L memWords : Nat) : Bool :=
  (addressFields r w).any fun f => f.2 != 0 && decide (memWords < f.1 + f.2 * L)

/-- The 239 opcodes R95 lists. -/
def illegalOp (op : Nat) : Bool :=
  decide (op ≤ 0x0F) || decide (0x14 ≤ op ∧ op ≤ 0x1F) || decide (0x24 ≤ op ∧ op ≤ 0x2F) ||
  decide (0x37 ≤ op ∧ op ≤ 0x3F) || decide (0x42 ≤ op)

/-- `raise` with a cause code (R214): `ERR`, `ERRCODE` and `ERRCMD`, and nothing else. -/
def raised (s : State) (code : BitVec 8) (w : Word) : State := { s with err := true, errCode := code, errCmd := w }

/-- No word address lies in both regions (R65: they do not overlap). -/
def Apart (b n c m : Nat) : Prop := ∀ a, ¬(b ≤ a ∧ a < b + n ∧ c ≤ a ∧ a < c + m)

/-- The destination `(b, n)` is identical to the source `(c, n)` or does not overlap it (R243). -/
def SameOrApart (b c n : Nat) : Prop := b = c ∨ Apart b n c n

/-- The next turn of the schedule is this one. -/
def NextTurn (s : State) (m : Turn) : Prop := s.schedule.head? = some m

/-- The next step is the engine's: its turn is listed, or no turn is. -/
def EnginesTurn (s : State) : Prop := s.schedule = [] ∨ NextTurn s .engine

/-- The engine has not completed the command: nothing has happened but a draw. -/
def NotCompleted (s t : State) : Prop := t = { s with freeCtr := s.freeCtr + 1 }

/-- The command has completed and every word it writes holds no value: the model's form of "any value". Nothing else
changes but the count of free values, for `ADD` and `SUB` the flag `CY`, and for `LTMASK` the register `MASK`, which then
holds all-ones or 0. -/
def LeftOpen (i : Instr) (s t : State) : Prop :=
  t.busy = false ∧ SameHostSide s t ∧ SameContext s t ∧ SameLmemOutside (writtenRegions i s.limbCount) s t ∧
  (∀ r ∈ writtenRegions i s.limbCount, ∀ a, inRegion r a = true → t.lmem.read a = none) ∧
  (t.cy = s.cy ∨ ∃ rd ra rb, i = .add rd ra rb ∨ i = .sub rd ra rb) ∧
  (t.mask = s.mask ∨ (∃ ra rb, i = .ltmask ra rb) ∧ (t.mask = 0xFFFFFFFFFFFFFFFF ∨ t.mask = 0))

end Sys2Proof.Claims

open Sys2Proof.Claims

/-! ## Encoding -/

/-- R91, R93: command words written out from the encoding of the spec's own examples (spec/95_test_vectors.md) decode to
the commands they stand for, one for each family. -/
def Obligations.SpecWordsDecode : Prop :=
  decode 0x0000002000400010#64 = .ok (.add 0x000 0x001 0x002) ∧
  decode 0x0000080010000013#64 = .ok (.ltmask 0x040 0x080) ∧
  decode 0x0300020000008022#64 = .ok (.kmul 0x080 0x000 0x020 0x0C0) ∧
  decode 0x0300000000008023#64 = .ok (.ksqr 0x080 0x000 0x0C0) ∧
  decode 0x0000000000000031#64 = .ok (.ctxload 0x000) ∧
  decode 0x0000004000800035#64 = .ok (.montmul 0x000 0x002 0x004) ∧
  decode 0x0000004000800841#64 = .ok (.modexpl 0x008 0x002 0x004) ∧
  decode 0x0000000000000000#64 = .error .op ∧
  decode 0x001C004000800010#64 = .error .rsvd

/-- R91 to R94: decoding the word of any well-formed command gives the command back, with every operand. -/
def Obligations.DecodeEncode : Prop := ∀ i : Instr, i.wellFormed = true → decode (encode i) = .ok i

/-- R90: the decoder is total and unambiguous. Every word is the encoding of exactly one well-formed command, which is
what it decodes to, or of none, and then it is refused as `E_OP` or `E_RSVD`. -/
def Obligations.TotalDecoder : Prop :=
  ∀ w : Word,
    (∃ i, decode w = .ok i ∧ i.wellFormed = true ∧ encode i = w ∧ ∀ j, j.wellFormed = true → encode j = w → j = i) ∨
    ((decode w = .error .op ∨ decode w = .error .rsvd) ∧ ∀ j, j.wellFormed = true → encode j ≠ w)

/-- R95: the 239 opcodes outside the map are illegal whatever the other fields hold, and no others; issuing one fails
with `E_OP` and is not executed. -/
def Obligations.IllegalOpcode : Prop :=
  ((List.range 256).filter illegalOp).length = 239 ∧
  ∀ w : Word,
    (illegalOp (opOf w) = true ↔ decode w = .error .op) ∧
    (illegalOp (opOf w) = true → ∀ s : State, s.busy = false → s.err = false →
      s.hostWrite regCmd w = raised s 0x01 w)

/-- R94: a word with a legal opcode and a non-zero unused field is illegal, issuing it fails with `E_RSVD` and is not
executed; with the unused fields zero it is a command, also when a used field is 0. -/
def Obligations.ReservedFields : Prop :=
  ∀ (w : Word) (r : Row), rowOf w = some r →
    (reservedViolated r w = true → decode w = .error .rsvd ∧
      ∀ s : State, s.busy = false → s.err = false → s.hostWrite regCmd w = raised s 0x02 w) ∧
    (reservedViolated r w = false → ∃ i, decode w = .ok i)

/-! ## Reset and the invariant -/

/-- R39, R240: after reset, at any time and also in the middle of a command, every register and flag is 0 and no `LMEM`
word holds a value; the machine's initial state is such a state. -/
def Obligations.ResetState : Prop :=
  ∀ s t : State, (t = State.reset ∨ takeTurn .reset s = .next t) →
    (∀ a, t.lmem.read a = none) ∧ t.cmd = 0 ∧ t.busy = false ∧ t.err = false ∧ t.errCode = 0 ∧ t.cy = false ∧
    t.ctxv = false ∧ t.len = 0 ∧ t.bbits = 0 ∧ t.mask = 0 ∧ t.errCmd = 0 ∧ t.ctxN = List.replicate t.params.lmax 0 ∧
    t.ctxNinv = 0 ∧ t.ctxR2 = List.replicate t.params.lmax 0

/-- The invariant holds after reset, for the default parameters of R7 and for every legal choice of them. -/
def Obligations.ResetMeetsInv : Prop := Inv State.reset ∧ ∀ p : Params, p.ok → Inv (State.resetWith p)

/-- Every step keeps the invariant. -/
def Obligations.StepKeepsInv : Prop := ∀ s t : State, Inv s → step s = .next t → Inv t

/-! ## Steps -/

/-- R40, R225: a step of a machine whose next step is the engine's and whose latch holds a command in flight is `exec` of
that command (in the state without the turn); with no command in flight the engine keeps all state. A word placed with
`withFetchWord` is run by the very next step. The schedule and `withFetchWord` are the model's own (log entries 10 and
17). -/
def Obligations.StepRunsDecoded : Prop :=
  (∀ (s : State) (i : Instr), EnginesTurn s → s.busy = true → decode s.cmd = .ok i → step s = exec i s.dropTurn) ∧
  (∀ s : State, EnginesTurn s → s.busy = false → step s = .next s.dropTurn) ∧
  (∀ (s : State) (nbits w : Nat) (i : Instr), decode (BitVec.ofNat 64 (w % 2 ^ nbits)) = .ok i →
    step (s.withFetchWord nbits w) = exec i { s with cmd := BitVec.ofNat 64 (w % 2 ^ nbits), busy := true })

/-- R74, R100: a step whose next turn is the host's or the platform's is that access (the schedule is the model's own, log
entry 10). -/
def Obligations.StepRunsHost : Prop :=
  (∀ (s : State) (reg : BitVec 15), NextTurn s (.read reg) → step s = .next (s.dropTurn.hostRead reg)) ∧
  (∀ (s : State) (reg : BitVec 15) (v : Word), NextTurn s (.write reg v) → step s = .next (s.dropTurn.hostWrite reg v)) ∧
  (∀ s : State, NextTurn s .reset → step s = .next s.dropTurn.takeReset)

/-- R40, R100: a command line. The host writes the word of a command that passes its checks, polls `STATUS` any number of
times, and the engine completes: the write changes `CMD` and `BUSY` only, each poll hands the host a `STATUS` with
`BUSY = 1` and changes nothing else, and the engine's step is the command's effect on the state at issue. (The schedule is
the model's own, log entry 10.) -/
def Obligations.CommandLine : Prop :=
  ∀ (s : State) (i : Instr) (polls : Nat) (rest : List Turn), i.wellFormed = true → s.busy = false → s.err = false →
    issueError i s = none →
    steps (polls + 2) { s with schedule := .write regCmd (encode i) :: (List.replicate polls (.read regStatus) ++ .engine :: rest) } =
      exec i { s with
        cmd      := encode i
        busy     := true
        schedule := rest
        readOut  := if polls = 0 then s.readOut else some (statusWord { s with busy := true }) }

/-- R210: a command that has passed its issue checks cannot fail. Whatever its operands hold, its completion answers a
next state with no error. -/
def Obligations.AcceptedNeverFails : Prop :=
  ∀ s : State, Inv s → s.busy = true → EnginesTurn s →
    ∃ t, step s = .next t ∧ t.err = false ∧ t.errCode = 0 ∧ t.errCmd = 0

/-! ## Issue, errors, the host port -/

/-- R212, R214: the issue checks in their order, on the fields of the word and the values of `LEN`, `BBITS`, `CTXV`; the
first that fails is raised and changes `ERR`, `ERRCODE`, `ERRCMD` only; a word that passes them all is latched. -/
def Obligations.IssueChecks : Prop :=
  ∀ (s : State) (w : Word), s.busy = false → s.err = false →
    s.hostWrite regCmd w =
      match rowOf w with
      | none   => raised s 0x01 w
      | some r =>
        if reservedViolated r w then raised s 0x02 w
        else if s.len.toNat = 0 ∨ s.params.lmax < s.len.toNat then raised s 0x03 w
        else if r.bbits = true ∧ 64 * s.len.toNat < s.bbits.toNat then raised s 0x04 w
        else if r.ctx = true ∧ s.ctxv = false then raised s 0x05 w
        else if regionViolated r w s.len.toNat s.params.memWords then raised s 0x06 w
        else { s with cmd := w, busy := true }

/-- R215, R217: while `ERR = 1` a write of `CMD` is ignored entirely; no step but the host's `CLRERR` or a reset changes
the recorded error; and `LEN`, `BBITS`, the `LMEM` window and reads work as usual. -/
def Obligations.StickyError : Prop :=
  (∀ (s : State) (w : Word), s.err = true → s.hostWrite regCmd w = s) ∧
  (∀ s t : State, Inv s → s.err = true → step s = .next t →
    (t.err = true ∧ t.errCode = s.errCode ∧ t.errCmd = s.errCmd) ∨
    (∃ v, NextTurn s (.write regCtrl v) ∧ v.getLsbD 0 = true) ∨ NextTurn s .reset) ∧
  (∀ (s : State) (v : Word), s.err = true → s.busy = false →
    s.hostWrite regLen v = { s with len := v, ctxv := false } ∧ s.hostWrite regBbits v = { s with bbits := v } ∧
    ∀ a, a < s.params.memWords → a < 16384 → s.hostWrite (regLmem a) v = { s with lmem := s.lmem.write a v }) ∧
  (∀ (s : State) (reg : BitVec 15), reg ≠ regStatus →
    (s.hostRead reg).readOut = (State.hostRead { s with err := false, errCode := 0 } reg).readOut)

/-- R216, R26: writing `CTRL` with bit 0 set clears `ERR`, `ERRCODE` and `ERRCMD` and nothing else, whatever the other
bits; with `ERR = 0` that does nothing; with bit 0 clear the write does nothing; a read of `CTRL` returns 0. -/
def Obligations.ClearError : Prop :=
  (∀ (s : State) (v : Word), s.busy = false → v.getLsbD 0 = true →
    s.hostWrite regCtrl v = { s with err := false, errCode := 0, errCmd := 0 }) ∧
  (∀ (s : State) (v : Word), Inv s → s.err = false → s.hostWrite regCtrl v = s) ∧
  (∀ (s : State) (v : Word), v.getLsbD 0 = false → s.hostWrite regCtrl v = s) ∧
  (∀ s : State, s.hostRead regCtrl = { s with readOut := some 0 })

/-- R210, R213: an error arises only at a write of `CMD` while no command runs, and records that word. -/
def Obligations.ErrorsOnlyAtIssue : Prop :=
  ∀ s t : State, Inv s → step s = .next t → s.err = false → t.err = true →
    s.busy = false ∧ t.busy = false ∧ ∃ w, NextTurn s (.write regCmd w) ∧ t.errCmd = w ∧ t.cmd = s.cmd ∧ t.lmem = s.lmem

/-- R64: while `BUSY = 1` a read of `STATUS` returns it and a read of any other register returns 0; every write is
ignored; neither sets `ERR`. -/
def Obligations.BusyLockout : Prop :=
  ∀ (s : State) (reg : BitVec 15) (v : Word), s.busy = true →
    s.hostWrite reg v = s ∧
    s.hostRead reg = { s with readOut := some (if reg = regStatus then statusWord s else 0) }

/-- R61, R63: what a read of each register number returns while no command runs (`LMEM` words that hold a value), what a
write of each does, and that writes of read-only and unmapped numbers are ignored. -/
def Obligations.HostRegisterMap : Prop :=
  ∀ (s : State) (reg : BitVec 15) (v : Word), s.params.ok → s.busy = false →
    let n := reg.toNat
    let reads := fun x : Word => s.hostRead reg = { s with readOut := some x }
    let readOnly := s.hostWrite reg v = s
    (n = 0x0000 → reads s.cmd ∧ ∀ i, s.err = false → decode v = .ok i → issueError i s = none →
      s.hostWrite reg v = { s with cmd := v, busy := true }) ∧
    (n = 0x0001 → reads (statusWord s) ∧ readOnly) ∧
    (n = 0x0002 → reads 0 ∧
      (v.getLsbD 0 = true → s.hostWrite reg v = { s with err := false, errCode := 0, errCmd := 0 }) ∧
      (v.getLsbD 0 = false → s.hostWrite reg v = s)) ∧
    (n = 0x0003 → reads s.len ∧ s.hostWrite reg v = { s with len := v, ctxv := false }) ∧
    (n = 0x0004 → reads s.bbits ∧ s.hostWrite reg v = { s with bbits := v }) ∧
    (n = 0x0005 → reads s.mask ∧ readOnly) ∧
    (n = 0x0006 → reads s.ctxNinv ∧ readOnly) ∧
    (n = 0x0007 → reads s.errCmd ∧ readOnly) ∧
    (0x0008 ≤ n ∧ n ≤ 0x0FFF → reads 0 ∧ readOnly) ∧
    (∀ i, n = 0x1000 + i → i < s.params.lmax → reads (s.ctxN.getD i 0) ∧ readOnly) ∧
    (∀ i, n = 0x1000 + i → s.params.lmax ≤ i → i < 0x1000 → reads 0 ∧ readOnly) ∧
    (∀ i, n = 0x2000 + i → i < s.params.lmax → reads (s.ctxR2.getD i 0) ∧ readOnly) ∧
    (∀ i, n = 0x2000 + i → s.params.lmax ≤ i → i < 0x1000 → reads 0 ∧ readOnly) ∧
    (0x3000 ≤ n ∧ n ≤ 0x3FFF → reads 0 ∧ readOnly) ∧
    (∀ a x, n = 0x4000 + a → a < s.params.memWords → s.lmem.read a = some x → reads x) ∧
    (∀ a, n = 0x4000 + a → a < s.params.memWords → s.hostWrite reg v = { s with lmem := s.lmem.write a v }) ∧
    (∀ a, n = 0x4000 + a → s.params.memWords ≤ a → reads 0 ∧ readOnly)

/-- R23: the bits of `STATUS`, reserved bits 0. -/
def Obligations.StatusBits : Prop :=
  ∀ (s : State) (k : Nat), (statusWord s).getLsbD k =
    (if k = 0 then s.busy else if k = 1 then s.err else if k = 2 then s.cy else if k = 3 then s.ctxv
     else if 8 ≤ k ∧ k ≤ 15 then s.errCode.getLsbD (k - 8) else false)

/-- R61, R62: a word written through the `LMEM` window reads back, and every other word of the window reads as before. -/
def Obligations.LmemWindow : Prop :=
  ∀ (s : State) (a b : Nat) (v : Word), s.busy = false → a < s.params.memWords → a < 16384 → b < 16384 →
    ((s.hostWrite (regLmem a) v).hostRead (regLmem b)).readOut =
      if b = a then some v else (s.hostRead (regLmem b)).readOut

/-- R65, R67, R100: `LOADBN` writes a buffer limb by limb at rising addresses, after which a command reads that buffer
there and every word outside its region is as it was. -/
def Obligations.LoadBuffer : Prop :=
  ∀ (s : State) (base : Nat) (ws : List Word) (rest : List Turn), s.busy = false → s.params.memWords ≤ 16384 →
    base + ws.length ≤ s.params.memWords →
    ∃ m, steps ws.length { s with schedule := loadBufTurns base ws ++ rest } = .next { s with schedule := rest, lmem := m } ∧
      m.readBuf base ws.length = some ws ∧
      ∀ a, inRegion ⟨base, ws.length⟩ a = false → m.read a = s.lmem.read a

/-- R248, U7: a host read of an `LMEM` word that holds no value returns a free value, another draw for each read, and
changes nothing else. THE MODEL'S CHOICE (log entry 2): the draw is `Config.freeWord` of a counter that the read
advances; the statement holds for every value of both. -/
def Obligations.UnwrittenRead : Prop :=
  ∀ (s : State) (a : Nat), s.busy = false → a < s.params.memWords → a < 16384 → s.lmem.read a = none →
    s.hostRead (regLmem a) =
      { s with readOut := some (Config.freeWord s.freeCtr), freeCtr := s.freeCtr + 1 }

/-- R24, R33: `CTXV` becomes 1 only when the engine completes a `CTXLOAD`, and becomes 0 only by a host write of `LEN`
while no command runs or by a reset; such a write always clears it. -/
def Obligations.ContextValidFlag : Prop :=
  (∀ s t : State, step s = .next t → s.ctxv = false → t.ctxv = true →
    EnginesTurn s ∧ s.busy = true ∧ ∃ ra, decode s.cmd = .ok (.ctxload ra)) ∧
  (∀ s t : State, step s = .next t → s.ctxv = true → t.ctxv = false →
    (s.busy = false ∧ ∃ v, NextTurn s (.write regLen v)) ∨ NextTurn s .reset) ∧
  (∀ (s : State) (v : Word), s.busy = false → s.hostWrite regLen v = { s with len := v, ctxv := false })

/-- R34: the context registers change only when the engine completes a `CTXLOAD`, or by a reset: no other command and no
host access writes them, also when it changes the `LMEM` words the modulus was copied from. -/
def Obligations.ContextImmutable : Prop :=
  ∀ s t : State, step s = .next t →
    (t.ctxN = s.ctxN ∧ t.ctxNinv = s.ctxNinv ∧ t.ctxR2 = s.ctxR2) ∨
    (EnginesTurn s ∧ s.busy = true ∧ ∃ ra, decode s.cmd = .ok (.ctxload ra)) ∨ NextTurn s .reset

/-! ## What each command computes -/

/-- R111: `ADD` stores the sum modulo `2^(64L)` and leaves the carry in `CY`; nothing else but `BUSY` changes. -/
def Obligations.AddResult : Prop :=
  ∀ (rd ra rb : Nat) (s : State) (a b : List Word), Runs (.add rd ra rb) s →
    s.operand ra s.limbCount = some a → s.operand rb s.limbCount = some b →
    exec (.add rd ra rb) s = .next { s with
      lmem := s.lmem.writeBuf rd (limbs s.limbCount ((val a + val b) % 2 ^ (64 * s.limbCount)))
      cy   := decide (2 ^ (64 * s.limbCount) ≤ val a + val b)
      busy := false }

/-- R112: `SUB` stores the difference modulo `2^(64L)` and leaves the borrow in `CY`; nothing else but `BUSY` changes. -/
def Obligations.SubResult : Prop :=
  ∀ (rd ra rb : Nat) (s : State) (a b : List Word), Runs (.sub rd ra rb) s →
    s.operand ra s.limbCount = some a → s.operand rb s.limbCount = some b →
    exec (.sub rd ra rb) s = .next { s with
      lmem := s.lmem.writeBuf rd
                (limbs s.limbCount ((val a + 2 ^ (64 * s.limbCount) - val b) % 2 ^ (64 * s.limbCount)))
      cy   := decide (val a < val b)
      busy := false }

/-- R113: `ADDMODN` of operands below the modulus stores `(a + b) mod n`; nothing else but `BUSY` changes. -/
def Obligations.AddmodnResult : Prop :=
  ∀ (rd ra rb rc : Nat) (s : State) (a b n : List Word), Runs (.addmodn rd ra rb rc) s →
    s.operand ra s.limbCount = some a → s.operand rb s.limbCount = some b → s.operand rc s.limbCount = some n →
    val a < val n → val b < val n →
    exec (.addmodn rd ra rb rc) s = .next { s with
      lmem := s.lmem.writeBuf rd (limbs s.limbCount ((val a + val b) % val n))
      busy := false }

/-- R114, R28: `LTMASK` leaves all-ones in `MASK` if `a < b` and 0 otherwise, equal counting as not less; nothing else but
`BUSY` changes. -/
def Obligations.LtmaskResult : Prop :=
  ∀ (ra rb : Nat) (s : State) (a b : List Word), Runs (.ltmask ra rb) s →
    s.operand ra s.limbCount = some a → s.operand rb s.limbCount = some b →
    exec (.ltmask ra rb) s = .next { s with
      mask := if val a < val b then 0xFFFFFFFFFFFFFFFF else 0
      busy := false }

/-- R131, R133: `MUL` stores the exact product of `2L` limbs, `SQR` the exact square; nothing else but `BUSY` changes. -/
def Obligations.MulSqrResult : Prop :=
  (∀ (rd ra rb : Nat) (s : State) (a b : List Word), Runs (.mul rd ra rb) s →
    s.operand ra s.limbCount = some a → s.operand rb s.limbCount = some b →
    exec (.mul rd ra rb) s = .next { s with
      lmem := s.lmem.writeBuf rd (limbs (2 * s.limbCount) (val a * val b))
      busy := false }) ∧
  (∀ (rd ra : Nat) (s : State) (a : List Word), Runs (.sqr rd ra) s → s.operand ra s.limbCount = some a →
    exec (.sqr rd ra) s = .next { s with
      lmem := s.lmem.writeBuf rd (limbs (2 * s.limbCount) (val a ^ 2))
      busy := false })

/-- R136, R138, R139: `KMUL` stores the exact product of `2L` limbs, `KSQR` the exact square, and every word of the
scratch region of `4L` limbs holds no value afterwards, for every `L`; nothing else but `BUSY` changes. -/
def Obligations.KmulKsqrResult : Prop :=
  (∀ (rd ra rb rc : Nat) (s : State) (a b : List Word), Runs (.kmul rd ra rb rc) s →
    s.operand ra s.limbCount = some a → s.operand rb s.limbCount = some b →
    exec (.kmul rd ra rb rc) s = .next { s with
      lmem := (s.lmem.writeBuf rd (limbs (2 * s.limbCount) (val a * val b))).forget ⟨rc, 4 * s.limbCount⟩
      busy := false }) ∧
  (∀ (rd ra rc : Nat) (s : State) (a : List Word), Runs (.ksqr rd ra rc) s → s.operand ra s.limbCount = some a →
    exec (.ksqr rd ra rc) s = .next { s with
      lmem := (s.lmem.writeBuf rd (limbs (2 * s.limbCount) (val a ^ 2))).forget ⟨rc, 4 * s.limbCount⟩
      busy := false })

/-- R163, R165: `PRECOMPR2` of an odd modulus of at least 3 stores `2^(128L) mod N`; nothing else but `BUSY` changes. -/
def Obligations.Precompr2Result : Prop :=
  ∀ (rd ra : Nat) (s : State) (n : List Word), Runs (.precompr2 rd ra) s → s.operand ra s.limbCount = some n →
    val n % 2 = 1 → 3 ≤ val n →
    exec (.precompr2 rd ra) s = .next { s with
      lmem := s.lmem.writeBuf rd (limbs s.limbCount (2 ^ (128 * s.limbCount) % val n))
      busy := false }

/-- R161, R166: `CTXLOAD` of an odd modulus of at least 3 copies it to `CTX_N` with zeros above, puts the word `v` with
`(v · N[0]) mod 2^64 = 2^64 - 1` in `CTX_NINV` and `2^(128L) mod N` with zeros above in `CTX_R2`, and sets `CTXV`; nothing
else but `BUSY` and the model's poison mark (log entry 5) changes. -/
def Obligations.CtxloadResult : Prop :=
  ∀ (ra : Nat) (s : State) (n : List Word), Runs (.ctxload ra) s → s.operand ra s.limbCount = some n →
    val n % 2 = 1 → 3 ≤ val n →
    ∃ v : Word, v.toNat * (val n % 2 ^ 64) % 2 ^ 64 = 2 ^ 64 - 1 ∧
      exec (.ctxload ra) s = .next { s with
        ctxN        := n ++ List.replicate (s.params.lmax - s.limbCount) 0
        ctxNinv     := v
        ctxR2       := limbs s.limbCount (2 ^ (128 * s.limbCount) % val n) ++
                         List.replicate (s.params.lmax - s.limbCount) 0
        ctxv        := true
        ctxPoisoned := false
        busy        := false }

/-- R164, R167: `REDC` of a value below `N·R` with a legal context. With the multiple `q` of `N` that makes the sum a
multiple of `R`, the source region is left with `L` zero limbs below the high half `hi` of that sum, whose carry is `c0`,
and the destination receives the sum divided by `R`, reduced below `N`: `R` times it is the source modulo `N`. Nothing
else but `BUSY` changes. -/
def Obligations.RedcResult : Prop :=
  ∀ (rd ra : Nat) (s : State) (c : List Word), Runs (.redc rd ra) s → ContextReady s →
    s.operand ra (2 * s.limbCount) = some c → val c < val (s.modulus s.limbCount) * 2 ^ (64 * s.limbCount) →
    ∃ (q : Nat) (hi : List Word) (c0 : Bool),
      q < 2 ^ (64 * s.limbCount) ∧ hi.length = s.limbCount ∧
      2 ^ (64 * s.limbCount) * (val hi + 2 ^ (64 * s.limbCount) * c0.toNat) = val c + q * val (s.modulus s.limbCount) ∧
      (val hi + 2 ^ (64 * s.limbCount) * c0.toNat) % val (s.modulus s.limbCount) * 2 ^ (64 * s.limbCount) %
        val (s.modulus s.limbCount) = val c % val (s.modulus s.limbCount) ∧
      exec (.redc rd ra) s = .next { s with
        lmem := (s.lmem.writeBuf ra (List.replicate s.limbCount 0 ++ hi)).writeBuf rd
                  (limbs s.limbCount ((val hi + 2 ^ (64 * s.limbCount) * c0.toNat) % val (s.modulus s.limbCount)))
        busy := false }

/-- R168: `TOMONT` with a legal context stores `a · R mod N` for any `a`; nothing else but `BUSY` changes. -/
def Obligations.TomontResult : Prop :=
  ∀ (rd ra : Nat) (s : State) (a : List Word), Runs (.tomont rd ra) s → ContextReady s →
    s.operand ra s.limbCount = some a →
    exec (.tomont rd ra) s = .next { s with
      lmem := s.lmem.writeBuf rd
                (limbs s.limbCount (val a * 2 ^ (64 * s.limbCount) % val (s.modulus s.limbCount)))
      busy := false }

/-- R169: `FROMMONT` with a legal context stores `aM · R⁻¹ mod N` for any `aM`: the number below `N` that `R` multiplies to
`aM` modulo `N`; nothing else but `BUSY` changes. -/
def Obligations.FrommontResult : Prop :=
  ∀ (rd ra : Nat) (s : State) (a : List Word), Runs (.frommont rd ra) s → ContextReady s →
    s.operand ra s.limbCount = some a →
    ∃ r, r < val (s.modulus s.limbCount) ∧
      r * 2 ^ (64 * s.limbCount) % val (s.modulus s.limbCount) = val a % val (s.modulus s.limbCount) ∧
      exec (.frommont rd ra) s = .next { s with lmem := s.lmem.writeBuf rd (limbs s.limbCount r), busy := false }

/-- R170, R171: `MONTMUL` of operands whose product is below `N·R`, with a legal context, stores `aM · bM · R⁻¹ mod N`,
and `MONTSQR` the same for the square; nothing else but `BUSY` changes. -/
def Obligations.MontmulMontsqrResult : Prop :=
  (∀ (rd ra rb : Nat) (s : State) (a b : List Word), Runs (.montmul rd ra rb) s → ContextReady s →
    s.operand ra s.limbCount = some a → s.operand rb s.limbCount = some b →
    val a * val b < val (s.modulus s.limbCount) * 2 ^ (64 * s.limbCount) →
    ∃ r, r < val (s.modulus s.limbCount) ∧
      r * 2 ^ (64 * s.limbCount) % val (s.modulus s.limbCount) = val a * val b % val (s.modulus s.limbCount) ∧
      exec (.montmul rd ra rb) s = .next { s with lmem := s.lmem.writeBuf rd (limbs s.limbCount r), busy := false }) ∧
  (∀ (rd ra : Nat) (s : State) (a : List Word), Runs (.montsqr rd ra) s → ContextReady s →
    s.operand ra s.limbCount = some a → val a ^ 2 < val (s.modulus s.limbCount) * 2 ^ (64 * s.limbCount) →
    ∃ r, r < val (s.modulus s.limbCount) ∧
      r * 2 ^ (64 * s.limbCount) % val (s.modulus s.limbCount) = val a ^ 2 % val (s.modulus s.limbCount) ∧
      exec (.montsqr rd ra) s = .next { s with lmem := s.lmem.writeBuf rd (limbs s.limbCount r), busy := false })

/-- R190, R192, R193: with a legal context `MODEXP` and `MODEXPL` store `a^e mod N`, where the exponent `e` is the low
`BBITS` bits of `b` (`0^0 = 1`); nothing else but `BUSY` changes. -/
def Obligations.ModexpModexplResult : Prop :=
  ∀ (rd ra rb : Nat) (s : State) (a b : List Word), Runs (.modexp rd ra rb) s → ContextReady s →
    s.operand ra s.limbCount = some a → s.operand rb s.limbCount = some b →
    exec (.modexp rd ra rb) s = .next { s with
      lmem := s.lmem.writeBuf rd
                (limbs s.limbCount (val a ^ (val b % 2 ^ s.bbits.toNat) % val (s.modulus s.limbCount)))
      busy := false } ∧
    exec (.modexpl rd ra rb) s = .next { s with
      lmem := s.lmem.writeBuf rd
                (limbs s.limbCount (val a ^ (val b % 2 ^ s.bbits.toNat) % val (s.modulus s.limbCount)))
      busy := false }

/-! ## Frames -/

/-- `ADD`, `SUB`, `ADDMODN`, whatever the operands hold: only the `L` words at `rd`, `BUSY`, and for `ADD` and `SUB` the
flag `CY`, change. -/
def Obligations.FrameArithmetic : Prop :=
  ∀ (i : Instr) (rd : Nat) (s t : State),
    ((∃ ra rb, i = .add rd ra rb ∨ i = .sub rd ra rb) ∨ ∃ ra rb rc, i = .addmodn rd ra rb rc) →
    issueError i s = none → exec i s = .next t →
    SameHostSide s t ∧ SameContext s t ∧ SameLmemOutside [⟨rd, s.limbCount⟩] s t ∧ t.mask = s.mask ∧
    ((∃ ra rb rc, i = .addmodn rd ra rb rc) → t.cy = s.cy)

/-- `LTMASK` and `CTXLOAD`, whatever the operands hold: no `LMEM` word changes; `LTMASK` changes `MASK` and `BUSY` only,
`CTXLOAD` the context, `CTXV` and `BUSY` only. This takes in `CTXLOAD` of an illegal modulus, where U1 allows any
behaviour: that `LMEM`, `CY`, `MASK` and the host's registers are kept there is THE MODEL'S CHOICE (log entry 5). -/
def Obligations.FrameRegistersOnly : Prop :=
  (∀ (ra rb : Nat) (s t : State), issueError (.ltmask ra rb) s = none → exec (.ltmask ra rb) s = .next t →
    SameHostSide s t ∧ SameContext s t ∧ t.cy = s.cy ∧ ∀ a, t.lmem.read a = s.lmem.read a) ∧
  (∀ (ra : Nat) (s t : State), issueError (.ctxload ra) s = none → exec (.ctxload ra) s = .next t →
    SameHostSide s t ∧ t.cy = s.cy ∧ t.mask = s.mask ∧ ∀ a, t.lmem.read a = s.lmem.read a)

/-- `MUL`, `SQR`, `KMUL`, `KSQR`, whatever the operands hold: only the `2L` words at `rd`, for `KMUL` and `KSQR` the `4L`
words at `rc`, and `BUSY` change. -/
def Obligations.FrameMultiplier : Prop :=
  (∀ (i : Instr) (rd : Nat) (s t : State), ((∃ ra rb, i = .mul rd ra rb) ∨ ∃ ra, i = .sqr rd ra) →
    issueError i s = none → exec i s = .next t →
    SameHostSide s t ∧ SameContext s t ∧ SameLmemOutside [⟨rd, 2 * s.limbCount⟩] s t ∧ t.mask = s.mask ∧ t.cy = s.cy) ∧
  (∀ (i : Instr) (rd rc : Nat) (s t : State), ((∃ ra rb, i = .kmul rd ra rb rc) ∨ ∃ ra, i = .ksqr rd ra rc) →
    issueError i s = none → exec i s = .next t →
    SameHostSide s t ∧ SameContext s t ∧ SameLmemOutside [⟨rd, 2 * s.limbCount⟩, ⟨rc, 4 * s.limbCount⟩] s t ∧
    t.mask = s.mask ∧ t.cy = s.cy)

/-- `PRECOMPR2`, `TOMONT`, `FROMMONT`, `MONTMUL`, `MONTSQR`, whatever the operands hold: only the `L` words at `rd` and
`BUSY` change. `REDC`: only the `L` words at `rd`, the `2L` words at `ra` and `BUSY` change. (The context register files
have `LMAX` limbs in every state a run reaches: `Inv`.) This takes in `PRECOMPR2` of an illegal modulus and a poisoned
context, where U1 and U6 promise nothing: what is kept there is THE MODEL'S CHOICE (log entries 5 and 6). -/
def Obligations.FrameMontgomery : Prop :=
  (∀ (i : Instr) (rd : Nat) (s t : State),
    ((∃ ra, i = .precompr2 rd ra ∨ i = .tomont rd ra ∨ i = .frommont rd ra ∨ i = .montsqr rd ra) ∨
      ∃ ra rb, i = .montmul rd ra rb) →
    s.ctxN.length = s.params.lmax → s.ctxR2.length = s.params.lmax → issueError i s = none → exec i s = .next t →
    SameHostSide s t ∧ SameContext s t ∧ SameLmemOutside [⟨rd, s.limbCount⟩] s t ∧ t.mask = s.mask ∧ t.cy = s.cy) ∧
  (∀ (rd ra : Nat) (s t : State), s.ctxN.length = s.params.lmax → s.ctxR2.length = s.params.lmax →
    issueError (.redc rd ra) s = none → exec (.redc rd ra) s = .next t →
    SameHostSide s t ∧ SameContext s t ∧ SameLmemOutside [⟨rd, s.limbCount⟩, ⟨ra, 2 * s.limbCount⟩] s t ∧
    t.mask = s.mask ∧ t.cy = s.cy)

/-- `MODEXP`, `MODEXPL`, whatever the operands hold: only the `L` words at `rd` and `BUSY` change. This takes in a
poisoned context, where R195 and U1 leave the whole outcome unspecified: what is kept there is THE MODEL'S CHOICE (log
entries 5 and 6). -/
def Obligations.FrameExponentiation : Prop :=
  ∀ (i : Instr) (rd : Nat) (s t : State), (∃ ra rb, i = .modexp rd ra rb ∨ i = .modexpl rd ra rb) →
    s.ctxN.length = s.params.lmax → s.ctxR2.length = s.params.lmax → issueError i s = none → exec i s = .next t →
    SameHostSide s t ∧ SameContext s t ∧ SameLmemOutside [⟨rd, s.limbCount⟩] s t ∧ t.mask = s.mask ∧ t.cy = s.cy

/-! ## Laws over several commands, and whole-machine rules -/

/-- R27: `ADD` writes the carry out to `CY` and `SUB` the borrow out. No other command writes it and none reads it: any
other command does the same with any value of `CY` and leaves it; `ADD` and `SUB` that pass their checks do the same
whatever it was, and leave it as it was while they have not completed; a write of `CMD`, also of a word that fails its
checks, leaves it. It is 0 after reset. -/
def Obligations.CarryFlag : Prop :=
  (∀ (rd ra rb : Nat) (s : State) (a b : List Word), Runs (.add rd ra rb) s → Runs (.sub rd ra rb) s →
    s.operand ra s.limbCount = some a → s.operand rb s.limbCount = some b →
    ∃ t u, exec (.add rd ra rb) s = .next t ∧ exec (.sub rd ra rb) s = .next u ∧
      val a + val b = (val a + val b) % 2 ^ (64 * s.limbCount) + t.cy.toNat * 2 ^ (64 * s.limbCount) ∧
      (u.cy = true ↔ val a < val b)) ∧
  (∀ (i : Instr) (s t : State) (c : Bool), (∀ rd ra rb, i ≠ .add rd ra rb ∧ i ≠ .sub rd ra rb) → exec i s = .next t →
    t.cy = s.cy ∧ exec i { s with cy := c } = .next { t with cy := c }) ∧
  (∀ (i : Instr) (s t : State) (c : Bool), (∃ rd ra rb, i = .add rd ra rb ∨ i = .sub rd ra rb) → issueError i s = none →
    exec i s = .next t →
    exec i { s with cy := c } = .next t ∨ (NotCompleted s t ∧ exec i { s with cy := c } = .next { t with cy := c })) ∧
  (∀ (s : State) (w : Word), (s.hostWrite regCmd w).cy = s.cy) ∧ State.reset.cy = false

/-- R28: `MASK` is written by `LTMASK` only, read by no command, and after an `LTMASK` that has passed its checks and
completed holds all-ones or 0 and nothing else, also when an operand word held no value (the model's choice, log entry 4);
while it has not completed (log entry 3) `MASK` stays. A host write of it is ignored. -/
def Obligations.MaskRegister : Prop :=
  (∀ (i : Instr) (s t : State) (m : Word), (∀ ra rb, i ≠ .ltmask ra rb) → exec i s = .next t →
    t.mask = s.mask ∧ exec i { s with mask := m } = .next { t with mask := m }) ∧
  (∀ (ra rb : Nat) (s t : State) (m : Word), issueError (.ltmask ra rb) s = none → exec (.ltmask ra rb) s = .next t →
    (t.busy = false ∧ (t.mask = 0xFFFFFFFFFFFFFFFF ∨ t.mask = 0) ∧ exec (.ltmask ra rb) { s with mask := m } = .next t) ∨
    (NotCompleted s t ∧ exec (.ltmask ra rb) { s with mask := m } = .next { t with mask := m })) ∧
  (∀ (s : State) (v : Word), s.hostWrite 0x0005 v = s)

/-- R115: subtracting `b` from the stored sum of `a` and `b` gives `a` back, whatever was carried out; and the borrow of
`SUB` is the verdict of `LTMASK`. -/
def Obligations.ArithmeticLaws : Prop :=
  (∀ (rd ra rb re : Nat) (s : State) (a b : List Word), Runs (.add rd ra rb) s → Runs (.sub re rd rb) s →
    s.operand ra s.limbCount = some a → s.operand rb s.limbCount = some b →
    regionsDisjoint ⟨rd, s.limbCount⟩ ⟨rb, s.limbCount⟩ = true →
    ∃ t u, exec (.add rd ra rb) s = .next t ∧ exec (.sub re rd rb) t = .next u ∧
      u.operand re s.limbCount = some a) ∧
  (∀ (rd ra rb : Nat) (s : State) (a b : List Word), Runs (.sub rd ra rb) s → Runs (.ltmask ra rb) s →
    s.operand ra s.limbCount = some a → s.operand rb s.limbCount = some b →
    ∃ t u, exec (.sub rd ra rb) s = .next t ∧ exec (.ltmask ra rb) s = .next u ∧
      (t.cy = true ↔ u.mask = 0xFFFFFFFFFFFFFFFF))

/-- R140: after `KMUL` the region `(rd, 2L)` is what it is after `MUL`, and after `SQR` and `KSQR` what it is after `MUL`
of the operand with itself, for every `L` and all operand values. -/
def Obligations.KaratsubaEqualsSchoolbook : Prop :=
  (∀ (rd ra rb rc : Nat) (s : State) (a b : List Word), Runs (.kmul rd ra rb rc) s →
    s.operand ra s.limbCount = some a → s.operand rb s.limbCount = some b →
    ∃ t u p, exec (.kmul rd ra rb rc) s = .next t ∧ exec (.mul rd ra rb) s = .next u ∧
      t.operand rd (2 * s.limbCount) = some p ∧ u.operand rd (2 * s.limbCount) = some p) ∧
  (∀ (rd ra rc : Nat) (s : State) (a : List Word), Runs (.ksqr rd ra rc) s → s.operand ra s.limbCount = some a →
    ∃ t u v p, exec (.ksqr rd ra rc) s = .next t ∧ exec (.sqr rd ra) s = .next u ∧ exec (.mul rd ra ra) s = .next v ∧
      t.operand rd (2 * s.limbCount) = some p ∧ u.operand rd (2 * s.limbCount) = some p ∧
      v.operand rd (2 * s.limbCount) = some p)

/-- R169, R170: Montgomery forms. The product of the forms of `x` and `y` is the form of `x·y`; `FROMMONT` of what `TOMONT`
stored gives the number modulo `N` back. -/
def Obligations.MontgomeryForms : Prop :=
  (∀ (rd ra rb x y : Nat) (s : State), Runs (.montmul rd ra rb) s → ContextReady s →
    s.operand ra s.limbCount = some (limbs s.limbCount (x * 2 ^ (64 * s.limbCount) % val (s.modulus s.limbCount))) →
    s.operand rb s.limbCount = some (limbs s.limbCount (y * 2 ^ (64 * s.limbCount) % val (s.modulus s.limbCount))) →
    exec (.montmul rd ra rb) s = .next { s with
      lmem := s.lmem.writeBuf rd
                (limbs s.limbCount (x * y * 2 ^ (64 * s.limbCount) % val (s.modulus s.limbCount)))
      busy := false }) ∧
  (∀ (rd ra re : Nat) (s : State) (a : List Word), Runs (.tomont rd ra) s → Runs (.frommont re rd) s → ContextReady s →
    s.operand ra s.limbCount = some a →
    ∃ t u, exec (.tomont rd ra) s = .next t ∧ exec (.frommont re rd) t = .next u ∧
      u.operand re s.limbCount = some (limbs s.limbCount (val a % val (s.modulus s.limbCount))))

/-- R173: each composite command equals its composition, with a free region `(p, 2L)` for the product: `TOMONT` is `MUL` by
`R²` then `REDC`, `MONTMUL` is `MUL` then `REDC`, `MONTSQR` is `SQR` then `REDC`, `FROMMONT` is `REDC` of the operand
extended with zeros. The two ways leave the same state but for the `LMEM` words of `(p, 2L)`. -/
def Obligations.CompositeCommands : Prop :=
  ∀ (s : State) (rd ra rb p : Nat), ContextReady s → Runs (.redc rd p) s →
    let L := s.limbCount
    let composed := fun (first whole : Instr) => ∃ t u v, exec first s = .next t ∧ exec (.redc rd p) t = .next u ∧
      exec whole s = .next v ∧ u.operand rd L = v.operand rd L ∧ (∃ r, v.operand rd L = some r) ∧
      SameLmemOutside [⟨p, 2 * L⟩] u v ∧ u = { v with lmem := u.lmem }
    (∀ a, Runs (.tomont rd ra) s → Runs (.mul p ra rb) s → s.operand ra L = some a →
      s.operand rb L = some (s.rSquared L) → composed (.mul p ra rb) (.tomont rd ra)) ∧
    (∀ a b, Runs (.montmul rd ra rb) s → Runs (.mul p ra rb) s → s.operand ra L = some a → s.operand rb L = some b →
      val a * val b < val (s.modulus L) * 2 ^ (64 * L) → composed (.mul p ra rb) (.montmul rd ra rb)) ∧
    (∀ a, Runs (.montsqr rd ra) s → Runs (.sqr p ra) s → s.operand ra L = some a →
      val a ^ 2 < val (s.modulus L) * 2 ^ (64 * L) → composed (.sqr p ra) (.montsqr rd ra)) ∧
    (∀ a, Runs (.frommont rd ra) s → s.operand ra L = some a →
      s.operand p (2 * L) = some (a ++ List.replicate L 0) →
      ∃ u v, exec (.redc rd p) s = .next u ∧ exec (.frommont rd ra) s = .next v ∧ u.operand rd L = v.operand rd L ∧
        (∃ r, v.operand rd L = some r) ∧ SameLmemOutside [⟨p, 2 * L⟩] u v ∧ u = { v with lmem := u.lmem })

/-- R194: in every state in which both can be issued and R190's preconditions hold, `MODEXP` and `MODEXPL` with the same
fields have the same effect, limb for limb and in all other state. -/
def Obligations.ExponentiationsAgree : Prop :=
  ∀ (rd ra rb : Nat) (s : State) (a b : List Word), Runs (.modexp rd ra rb) s → Runs (.modexpl rd ra rb) s →
    ContextReady s → s.operand ra s.limbCount = some a → s.operand rb s.limbCount = some b →
    exec (.modexp rd ra rb) s = exec (.modexpl rd ra rb) s ∧
    ∃ t r, exec (.modexp rd ra rb) s = .next t ∧ t.operand rd s.limbCount = some r ∧ r.length = s.limbCount

/-- R243: which overlaps are permitted, command by command; and (U4) a command with any other overlap whose source words
hold values completes without error, every word of every region it writes holds no value afterwards, and all else is
unchanged but `BUSY`, the count of free values, and `CY` for `ADD` and `SUB`, which is free (the model's form of "any
value", log entry 7). (A context or modulus outside its precondition is `U1`, a source word without a value `U7`, and not
this.) -/
def Obligations.OverlapRule : Prop :=
  (∀ rd ra rb rc L : Nat, 0 < L →
    let ok := fun i => aliasingPermitted i L = true
    let oneSource := SameOrApart rd ra L
    let twoSources := SameOrApart rd ra L ∧ SameOrApart rd rb L
    (ok (.add rd ra rb) ↔ twoSources) ∧ (ok (.sub rd ra rb) ↔ twoSources) ∧
    (ok (.addmodn rd ra rb rc) ↔ twoSources ∧ Apart rd L rc L) ∧
    (ok (.tomont rd ra) ↔ oneSource) ∧ (ok (.frommont rd ra) ↔ oneSource) ∧ (ok (.montsqr rd ra) ↔ oneSource) ∧
    (ok (.montmul rd ra rb) ↔ twoSources) ∧ (ok (.modexp rd ra rb) ↔ twoSources) ∧
    (ok (.modexpl rd ra rb) ↔ twoSources) ∧
    (ok (.mul rd ra rb) ↔ Apart rd (2 * L) ra L ∧ Apart rd (2 * L) rb L) ∧
    (ok (.sqr rd ra) ↔ Apart rd (2 * L) ra L) ∧
    (ok (.kmul rd ra rb rc) ↔ Apart rd (2 * L) ra L ∧ Apart rd (2 * L) rb L ∧ Apart rd (2 * L) rc (4 * L) ∧
      Apart rc (4 * L) ra L ∧ Apart rc (4 * L) rb L) ∧
    (ok (.ksqr rd ra rc) ↔ Apart rd (2 * L) ra L ∧ Apart rd (2 * L) rc (4 * L) ∧ Apart rc (4 * L) ra L) ∧
    (ok (.precompr2 rd ra) ↔ Apart rd L ra L) ∧ (ok (.redc rd ra) ↔ Apart rd L ra (2 * L)) ∧
    ok (.ltmask ra rb) ∧ ok (.ctxload ra)) ∧
  (∀ (i : Instr) (s : State), issueError i s = none → aliasingPermitted i s.limbCount = false →
    (needsCtx i = true → s.ctxPoisoned = false) →
    (∀ r ∈ readRegions i s.limbCount, ∃ ws, s.operand r.base r.len = some ws) →
    (∀ rd ra n, i = .precompr2 rd ra → s.operand ra s.limbCount = some n → val n % 2 = 1 ∧ 3 ≤ val n) →
    ∃ t, exec i s = .next t ∧ LeftOpen i s t)

/-- U3, U5: an `ADDMODN` with an operand not below the modulus, and a `MONTMUL` with a product, a `MONTSQR` with a square
and a `REDC` with a source at or above `N·R`, complete without error; the regions they write hold no value afterwards, and
nothing else changes but `BUSY` and the count of free values (the model's form of "any value", log entry 7). U7: any
command with a source word that holds no value either has not completed or leaves every word it writes without a value,
with `CY` of an `ADD` or `SUB` free and `MASK` of an `LTMASK` all-ones or 0 (log entries 3 and 4); a `CTXLOAD` then leaves a
context marked as holding no legal one (log entry 5). The exact form is stated for `ADD`. -/
def Obligations.UnmetPreconditions : Prop :=
  (∀ (rd ra rb rc : Nat) (s : State) (a b n : List Word), Runs (.addmodn rd ra rb rc) s →
    s.operand ra s.limbCount = some a → s.operand rb s.limbCount = some b → s.operand rc s.limbCount = some n →
    (val n ≤ val a ∨ val n ≤ val b) →
    exec (.addmodn rd ra rb rc) s = .next { s with
      lmem := s.lmem.forget ⟨rd, s.limbCount⟩, freeCtr := s.freeCtr + 1, busy := false }) ∧
  (∀ (rd ra rb : Nat) (s : State) (a b : List Word), Runs (.montmul rd ra rb) s → s.ctxPoisoned = false →
    s.operand ra s.limbCount = some a → s.operand rb s.limbCount = some b →
    val (s.modulus s.limbCount) * 2 ^ (64 * s.limbCount) ≤ val a * val b →
    exec (.montmul rd ra rb) s = .next { s with
      lmem := s.lmem.forget ⟨rd, s.limbCount⟩, freeCtr := s.freeCtr + 1, busy := false }) ∧
  (∀ (rd ra : Nat) (s : State) (a : List Word), Runs (.montsqr rd ra) s → s.ctxPoisoned = false →
    s.operand ra s.limbCount = some a → val (s.modulus s.limbCount) * 2 ^ (64 * s.limbCount) ≤ val a ^ 2 →
    exec (.montsqr rd ra) s = .next { s with
      lmem := s.lmem.forget ⟨rd, s.limbCount⟩, freeCtr := s.freeCtr + 1, busy := false }) ∧
  (∀ (rd ra : Nat) (s : State) (c : List Word), Runs (.redc rd ra) s → s.ctxPoisoned = false →
    s.operand ra (2 * s.limbCount) = some c → val (s.modulus s.limbCount) * 2 ^ (64 * s.limbCount) ≤ val c →
    exec (.redc rd ra) s = .next { s with
      lmem := (s.lmem.forget ⟨rd, s.limbCount⟩).forget ⟨ra, 2 * s.limbCount⟩, freeCtr := s.freeCtr + 1, busy := false }) ∧
  (∀ (rd ra rb a : Nat) (s : State), issueError (.add rd ra rb) s = none →
    (inRegion ⟨ra, s.limbCount⟩ a = true ∨ inRegion ⟨rb, s.limbCount⟩ a = true) → s.lmem.read a = none →
    exec (.add rd ra rb) s = .next (if Config.freeBit s.freeCtr then { s with
        lmem := s.lmem.forget ⟨rd, s.limbCount⟩, cy := Config.freeBit (s.freeCtr + 1), freeCtr := s.freeCtr + 2
        busy := false }
      else { s with freeCtr := s.freeCtr + 1 })) ∧
  (∀ (i : Instr) (s t : State) (a : Nat), (∀ ra, i ≠ .ctxload ra) → issueError i s = none →
    (∃ r ∈ readRegions i s.limbCount, inRegion r a = true) → s.lmem.read a = none → exec i s = .next t →
    NotCompleted s t ∨ LeftOpen i s t) ∧
  (∀ (ra a : Nat) (s t : State), issueError (.ctxload ra) s = none → inRegion ⟨ra, s.limbCount⟩ a = true →
    s.lmem.read a = none → exec (.ctxload ra) s = .next t →
    SameHostSide s t ∧ t.lmem = s.lmem ∧ t.cy = s.cy ∧ t.mask = s.mask ∧
    (NotCompleted s t ∨ (t.busy = false ∧ t.ctxv = true ∧ t.ctxPoisoned = true)))

/-- R221, U1, U6: a modulus that is even or below 3 raises nothing. `CTXLOAD` of one either has not completed or leaves
`CTXV` set and the context marked as holding no legal context (for the modulus 1, R166 leaves only `CTX_R2` open);
`PRECOMPR2` of one either has not completed or leaves its destination without a value; a command that uses such a context
either has not completed or leaves every word it writes without a value. Nothing outside changes. THE MODEL'S CHOICE (log
entries 5 and 6): a free bit says which, and the poison mark is the model's own. -/
def Obligations.IllegalModulus : Prop :=
  (∀ (ra : Nat) (s t : State) (n : List Word), issueError (.ctxload ra) s = none →
    s.operand ra s.limbCount = some n → (val n % 2 = 0 ∨ val n < 3) → exec (.ctxload ra) s = .next t →
    SameHostSide s t ∧ t.lmem = s.lmem ∧ t.cy = s.cy ∧ t.mask = s.mask ∧
    (NotCompleted s t ∨
      (t.busy = false ∧ t.ctxv = true ∧ t.ctxPoisoned = true ∧
        (val n = 1 → t.ctxN = n ++ List.replicate (s.params.lmax - s.limbCount) 0 ∧ t.ctxNinv = 0xFFFFFFFFFFFFFFFF)))) ∧
  (∀ (rd ra : Nat) (s t : State) (n : List Word), issueError (.precompr2 rd ra) s = none →
    s.operand ra s.limbCount = some n → (val n % 2 = 0 ∨ val n < 3) → exec (.precompr2 rd ra) s = .next t →
    NotCompleted s t ∨ LeftOpen (.precompr2 rd ra) s t) ∧
  (∀ (i : Instr) (s t : State), needsCtx i = true → s.ctxPoisoned = true → issueError i s = none → exec i s = .next t →
    NotCompleted s t ∨ LeftOpen i s t)

/-- R68: the bytes of a buffer of `L` limbs: byte `8(L-1-i)+k` of the whole string of `8L` bytes is byte `k`, from the top,
of limb `i`, and the string denotes the buffer's value. A requested length `len` with `8(L-1) < len ≤ 8L` gives its last
`len` bytes, which denote that value exactly when it is below `256^len`, that is when the dropped bytes are zero. -/
def Obligations.BufferToBytes : Prop :=
  ∀ b : List Word, 1 ≤ b.length →
    ∃ bytes, toBytesBE b (8 * b.length) = some bytes ∧ bytes.length = 8 * b.length ∧ bytesVal bytes = val b ∧
      (∀ i k, i < b.length → k < 8 → bytes[8 * (b.length - 1 - i) + k]? =
        some (BitVec.ofNat 8 ((b.getD i 0).toNat / 2 ^ (8 * (7 - k)) % 256))) ∧
      ∀ len, 8 * (b.length - 1) < len → len ≤ 8 * b.length →
        ∃ out, toBytesBE b len = some out ∧ out = bytes.drop (8 * b.length - len) ∧ out.length = len ∧
          (bytesVal out = val b ↔ val b < 256 ^ len) ∧
          (val b < 256 ^ len ↔ ∀ x ∈ bytes.take (8 * b.length - len), x = 0)

/-- R70: serialization round trips. Every buffer of 1 to `LMAX` limbs comes back from its `8L` bytes; every byte string of
1 to `8·LMAX` bytes, read into a buffer and written out at the derived width, denotes the same big-endian number; and one
written out at its own length comes back byte for byte. -/
def Obligations.SerializationRoundTrip : Prop :=
  (∀ (lmax : Nat) (b : List Word), 1 ≤ b.length → b.length ≤ lmax →
    ∃ bytes, toBytesBE b (8 * b.length) = some bytes ∧ bytes.length = 8 * b.length ∧ fromBytesBE lmax bytes = some b) ∧
  (∀ (lmax : Nat) (bytes : List Byte), 1 ≤ bytes.length → bytes.length ≤ 8 * lmax →
    ∃ b out, fromBytesBE lmax bytes = some b ∧ b.length = (bytes.length + 7) / 8 ∧ val b = bytesVal bytes ∧
      toBytesBE b (8 * b.length) = some out ∧ bytesVal out = bytesVal bytes ∧
      toBytesBE b bytes.length = some bytes)
end

