-- ==== Sys2Proof/Laws/Limbs.lean ====
section
/-! SUPPORT. What the limb and buffer primitives compute, in terms of the numbers the buffers hold
(spec/00_scope.md R10, R12, R13). -/

namespace Sys2Proof.Machine

/-! Values and limb sequences (R10). -/

@[simp] theorem val_nil : val [] = 0 := rfl

@[simp] theorem val_cons (x : Word) (xs : List Word) : val (x :: xs) = x.toNat + 2 ^ 64 * val xs := rfl

/-- `2^(64(n+1)) = 2^64 · 2^(64n)`, in the one spelling the proofs use. -/
theorem radix_succ (n : Nat) : 2 ^ (64 * (n + 1)) = 2 ^ 64 * 2 ^ (64 * n) := by
  rw [Nat.mul_add, Nat.mul_one, Nat.pow_add, Nat.mul_comm]

theorem radix_pos (n : Nat) : 0 < 2 ^ (64 * n) := Nat.pos_of_ne_zero (by positivity)

theorem val_lt (b : List Word) : val b < 2 ^ (64 * b.length) := by
  induction b with
  | nil => simp
  | cons x xs ih =>
    have hx := x.isLt
    rw [val_cons, List.length_cons, radix_succ]
    have : val xs + 1 ≤ 2 ^ (64 * xs.length) := ih
    nlinarith

@[simp] theorem val_append (a b : List Word) : val (a ++ b) = val a + 2 ^ (64 * a.length) * val b := by
  induction a with
  | nil => simp
  | cons x xs ih => rw [List.cons_append, val_cons, val_cons, ih, List.length_cons, radix_succ]; ring

@[simp] theorem val_replicate_zero (n : Nat) : val (List.replicate n 0#64) = 0 := by
  induction n with
  | zero => rfl
  | succ n ih => simp [List.replicate_succ, ih]

@[simp] theorem limbs_length (n v : Nat) : (limbs n v).length = n := by
  induction n generalizing v with
  | zero => rfl
  | succ n ih => simp [limbs, ih]

theorem val_limbs (n v : Nat) : val (limbs n v) = v % 2 ^ (64 * n) := by
  induction n generalizing v with
  | zero => simp [limbs, Nat.mod_one]
  | succ n ih =>
    rw [limbs, val_cons, ih, radix_succ, BitVec.toNat_ofNat, Nat.mod_mul]

theorem val_limbs_of_lt {n v : Nat} (h : v < 2 ^ (64 * n)) : val (limbs n v) = v := by
  rw [val_limbs, Nat.mod_eq_of_lt h]

/-- A buffer is determined by its length and its value. -/
theorem eq_of_val_eq {a b : List Word} (hl : a.length = b.length) (hv : val a = val b) : a = b := by
  induction a generalizing b with
  | nil => cases b with
    | nil => rfl
    | cons => simp at hl
  | cons x xs ih => cases b with
    | nil => simp at hl
    | cons y ys =>
      rw [val_cons, val_cons] at hv
      have hx := x.isLt
      have hy := y.isLt
      have h1 : x.toNat = y.toNat := by omega
      have h2 : val xs = val ys := by omega
      rw [BitVec.eq_of_toNat_eq h1, ih (by simpa using hl) h2]

theorem limbs_val (b : List Word) : limbs b.length (val b) = b :=
  eq_of_val_eq (limbs_length _ _) (val_limbs_of_lt (val_lt b))

/-- The spelling in which results are stated: a buffer of length `n` with value `v` is `limbs n v`. -/
theorem eq_limbs {b : List Word} {n v : Nat} (hl : b.length = n) (hv : val b = v) : b = limbs n v := by
  subst hl hv; exact (limbs_val b).symm

/-! Word primitives (R12). -/

@[simp] theorem bitWord_toNat (c : Bool) : (bitWord c).toNat = c.toNat := by cases c <;> rfl

theorem addc_spec (x y : Word) (c : Bool) :
    (addc x y c).1.toNat + 2 ^ 64 * (addc x y c).2.toNat = x.toNat + y.toNat + c.toNat := by
  have hx := x.isLt
  have hy := y.isLt
  have hc := Bool.toNat_le c
  by_cases h : 2 ^ 64 ≤ x.toNat + y.toNat + c.toNat
  · simp only [addc, h, decide_true, Bool.toNat_true, BitVec.toNat_ofNat]
    omega
  · simp only [addc, h, decide_false, Bool.toNat_false, BitVec.toNat_ofNat]
    omega

theorem subb_spec (x y : Word) (c : Bool) :
    (subb x y c).1.toNat + (y.toNat + c.toNat) = x.toNat + 2 ^ 64 * (subb x y c).2.toNat := by
  have hx := x.isLt
  have hy := y.isLt
  have hc := Bool.toNat_le c
  by_cases h : x.toNat < y.toNat + c.toNat
  · simp only [subb, h, decide_true, Bool.toNat_true, BitVec.toNat_ofNat]
    omega
  · simp only [subb, h, decide_false, Bool.toNat_false, BitVec.toNat_ofNat]
    omega

theorem mac_spec (x y r c : Word) :
    (mac x y r c).1.toNat + 2 ^ 64 * (mac x y r c).2.toNat = x.toNat * y.toNat + r.toNat + c.toNat := by
  have hx : x.toNat ≤ 2 ^ 64 - 1 := by have := x.isLt; omega
  have hy : y.toNat ≤ 2 ^ 64 - 1 := by have := y.isLt; omega
  have hr := r.isLt
  have hc := c.isLt
  have hxy : x.toNat * y.toNat ≤ (2 ^ 64 - 1) * (2 ^ 64 - 1) := Nat.mul_le_mul hx hy
  simp only [mac, BitVec.toNat_ofNat]
  omega

theorem maskOf_false : maskOf false = 0#64 := by decide

theorem maskOf_true : maskOf true = BitVec.allOnes 64 := by decide

theorem select_zero (x y : Word) : select 0#64 x y = y := by
  rw [select, BitVec.zero_and, BitVec.zero_or, BitVec.not_zero, BitVec.allOnes_and]

theorem select_ones (x y : Word) : select (BitVec.allOnes 64) x y = x := by
  rw [select, BitVec.allOnes_and, BitVec.not_allOnes, BitVec.zero_and, BitVec.or_zero]

@[simp] theorem select_maskOf (c : Bool) (x y : Word) : select (maskOf c) x y = if c then x else y := by
  cases c
  · rw [maskOf_false, select_zero]; rfl
  · rw [maskOf_true, select_ones]; rfl

theorem selectBuf_zero {xs ys : List Word} (h : xs.length = ys.length) : selectBuf 0#64 xs ys = ys := by
  induction xs generalizing ys with
  | nil => cases ys with
    | nil => rfl
    | cons => simp at h
  | cons x xs ih => cases ys with
    | nil => simp at h
    | cons y ys =>
      have := ih (ys := ys) (by simpa using h)
      simp only [selectBuf, List.zipWith_cons_cons, select_zero] at *
      rw [this]

theorem selectBuf_ones {xs ys : List Word} (h : xs.length = ys.length) :
    selectBuf (BitVec.allOnes 64) xs ys = xs := by
  induction xs generalizing ys with
  | nil => rfl
  | cons x xs ih => cases ys with
    | nil => simp at h
    | cons y ys =>
      have := ih (ys := ys) (by simpa using h)
      simp only [selectBuf, List.zipWith_cons_cons, select_ones] at *
      rw [this]

theorem selectBuf_maskOf {xs ys : List Word} (c : Bool) (h : xs.length = ys.length) :
    selectBuf (maskOf c) xs ys = if c then xs else ys := by
  cases c
  · rw [maskOf_false, selectBuf_zero h]; rfl
  · rw [maskOf_true, selectBuf_ones h]; rfl

/-! Buffer addition and subtraction (R13). -/

theorem addLoop_length (c : Bool) {a b : List Word} (h : a.length = b.length) : (addLoop c a b).1.length = a.length := by
  induction a generalizing b c with
  | nil => rfl
  | cons x xs ih => cases b with
    | nil => simp at h
    | cons y ys => simp [addLoop, ih _ (by simpa using h : xs.length = ys.length)]

theorem addLoop_spec (c : Bool) {a b : List Word} (h : a.length = b.length) :
    val (addLoop c a b).1 + 2 ^ (64 * a.length) * (addLoop c a b).2.toNat = val a + val b + c.toNat := by
  induction a generalizing b c with
  | nil => cases b with
    | nil => simp [addLoop]
    | cons => simp at h
  | cons x xs ih => cases b with
    | nil => simp at h
    | cons y ys =>
      have h1 := addc_spec x y c
      have h2 := ih (addc x y c).2 (by simpa using h : xs.length = ys.length)
      simp only [addLoop, val_cons, List.length_cons, radix_succ]
      linear_combination h1 + 2 ^ 64 * h2

theorem subLoop_length (c : Bool) {a b : List Word} (h : a.length = b.length) : (subLoop c a b).1.length = a.length := by
  induction a generalizing b c with
  | nil => rfl
  | cons x xs ih => cases b with
    | nil => simp at h
    | cons y ys => simp [subLoop, ih _ (by simpa using h : xs.length = ys.length)]

theorem subLoop_spec (c : Bool) {a b : List Word} (h : a.length = b.length) :
    val (subLoop c a b).1 + (val b + c.toNat) = val a + 2 ^ (64 * a.length) * (subLoop c a b).2.toNat := by
  induction a generalizing b c with
  | nil => cases b with
    | nil => simp [subLoop]
    | cons => simp at h
  | cons x xs ih => cases b with
    | nil => simp at h
    | cons y ys =>
      have h1 := subb_spec x y c
      have h2 := ih (subb x y c).2 (by simpa using h : xs.length = ys.length)
      simp only [subLoop, val_cons, List.length_cons, radix_succ]
      linear_combination h1 + 2 ^ 64 * h2

@[simp] theorem bnAdd_length {a b : List Word} (h : a.length = b.length) : (bnAdd a b).1.length = a.length :=
  addLoop_length false h

/-- `bn_add` (R13): the sum, with the carry as its top bit. -/
theorem bnAdd_spec {a b : List Word} (h : a.length = b.length) :
    val (bnAdd a b).1 + 2 ^ (64 * a.length) * (bnAdd a b).2.toNat = val a + val b := by
  simpa [bnAdd] using addLoop_spec false h

@[simp] theorem bnSub_length {a b : List Word} (h : a.length = b.length) : (bnSub a b).1.length = a.length :=
  subLoop_length false h

/-- `bn_sub` (R13): the difference, with the borrow as its top bit. -/
theorem bnSub_spec {a b : List Word} (h : a.length = b.length) :
    val (bnSub a b).1 + val b = val a + 2 ^ (64 * a.length) * (bnSub a b).2.toNat := by
  simpa [bnSub] using subLoop_spec false h

/-- `ADD`'s carry-out: the sum does not fit (R111). -/
theorem bnAdd_carry {a b : List Word} (h : a.length = b.length) :
    (bnAdd a b).2 = decide (2 ^ (64 * a.length) ≤ val a + val b) := by
  have hs := bnAdd_spec h
  have hl := val_lt (bnAdd a b).1
  rw [bnAdd_length h] at hl
  cases hc : (bnAdd a b).2
  · rw [hc] at hs; simp at hs
    exact (decide_eq_false (by omega)).symm
  · rw [hc] at hs; simp at hs
    exact (decide_eq_true (by omega)).symm

/-- `ADD`'s result: the sum modulo `2^(64L)` (R111). -/
theorem bnAdd_limbs {a b : List Word} (h : a.length = b.length) :
    (bnAdd a b).1 = limbs a.length ((val a + val b) % 2 ^ (64 * a.length)) := by
  have hs := bnAdd_spec h
  have hl := val_lt (bnAdd a b).1
  rw [bnAdd_length h] at hl
  refine eq_limbs (bnAdd_length h) ?_
  rw [← hs, Nat.add_mul_mod_self_left, Nat.mod_eq_of_lt hl]

/-- `SUB`'s borrow-out: `a < b` (R112). -/
theorem bnSub_borrow {a b : List Word} (h : a.length = b.length) : (bnSub a b).2 = decide (val a < val b) := by
  have hs := bnSub_spec h
  have hl := val_lt (bnSub a b).1
  rw [bnSub_length h] at hl
  have hb := val_lt b
  rw [← h] at hb
  cases hc : (bnSub a b).2
  · rw [hc] at hs; simp at hs
    exact (decide_eq_false (by omega)).symm
  · rw [hc] at hs; simp at hs
    exact (decide_eq_true (by omega)).symm

/-- `SUB`'s result: the difference modulo `2^(64L)` (R112). -/
theorem bnSub_limbs {a b : List Word} (h : a.length = b.length) :
    (bnSub a b).1 = limbs a.length ((val a + 2 ^ (64 * a.length) - val b) % 2 ^ (64 * a.length)) := by
  have hs := bnSub_spec h
  have hl := val_lt (bnSub a b).1
  rw [bnSub_length h] at hl
  have hb := val_lt b
  rw [← h] at hb
  refine eq_limbs (bnSub_length h) ?_
  cases hc : (bnSub a b).2
  · rw [hc] at hs; simp at hs
    rw [show val a + 2 ^ (64 * a.length) - val b = val (bnSub a b).1 + 2 ^ (64 * a.length) by omega,
      Nat.add_mod_right, Nat.mod_eq_of_lt hl]
  · rw [hc] at hs; simp at hs
    rw [show val a + 2 ^ (64 * a.length) - val b = val (bnSub a b).1 by omega, Nat.mod_eq_of_lt hl]

/-! Conditional subtraction and modular addition (R113). -/

theorem condSub_length (c0 : Bool) {s n : List Word} (h : s.length = n.length) : (condSub c0 s n).length = n.length := by
  simp [condSub, selectBuf, bnSub_length h, h]

/-- The mask `c0 - c1` is the mask of "borrow and no carry", but for the case the preconditions exclude. -/
theorem condSub_mask {c0 c1 : Bool} (h : ¬(c0 = true ∧ c1 = false)) :
    bitWord c0 - bitWord c1 = maskOf (!c0 && c1) := by
  cases c0 <;> cases c1 <;> first | decide | simp at h

/-- One conditional subtraction brings a value below `2·n` (carry `c0`, buffer `s`) below `n` (R113, R164). -/
theorem condSub_spec (c0 : Bool) {s n : List Word} (h : s.length = n.length)
    (hlt : val s + 2 ^ (64 * n.length) * c0.toNat < 2 * val n) :
    val (condSub c0 s n) = (val s + 2 ^ (64 * n.length) * c0.toNat) % val n := by
  have hsub := bnSub_spec h
  have hbor := bnSub_borrow h
  have hlen := bnSub_length h
  have hd := val_lt (bnSub s n).1
  have hn := val_lt n
  rw [hlen, h] at hd
  rw [h] at hsub
  simp only [condSub]
  by_cases hb : val s < val n
  · rw [decide_eq_true hb] at hbor
    rw [hbor] at hsub ⊢
    rw [condSub_mask (by simp), selectBuf_maskOf _ hlen.symm]
    cases c0
    · simp [Nat.mod_eq_of_lt hb]
    · simp only [Bool.toNat_true, Nat.mul_one, Bool.not_true, Bool.false_and, Bool.false_eq_true, if_false] at hlt hsub ⊢
      rw [Nat.mod_eq_sub_mod (by omega), Nat.mod_eq_of_lt (by omega)]
      omega
  · rw [decide_eq_false hb] at hbor
    rw [hbor] at hsub ⊢
    cases c0
    · rw [condSub_mask (by simp), selectBuf_maskOf _ hlen.symm]
      simp only [Bool.toNat_false, Nat.mul_zero, Nat.add_zero, Bool.and_false, Bool.false_eq_true, if_false] at hlt hsub ⊢
      rw [Nat.mod_eq_sub_mod (by omega), Nat.mod_eq_of_lt (by omega)]
      omega
    · simp only [Bool.toNat_true, Nat.mul_one] at hlt
      omega

theorem addModN_length {n a b : List Word} (ha : a.length = n.length) (hb : b.length = n.length) :
    (addModN n a b).length = n.length :=
  condSub_length _ (by rw [bnAdd_length (by omega), ha])

/-- `add_mod_n` (R113): the sum modulo `n` for operands below `n`. -/
theorem addModN_spec {n a b : List Word} (ha : a.length = n.length) (hb : b.length = n.length)
    (han : val a < val n) (hbn : val b < val n) : val (addModN n a b) = (val a + val b) % val n := by
  have hab : a.length = b.length := by omega
  have hs := bnAdd_spec hab
  rw [ha] at hs
  unfold addModN
  rw [condSub_spec _ (by rw [bnAdd_length hab, ha]) (by omega), hs]

/-! The comparison scan (R114). -/

theorem ltScan_spec (c : Bool) {a b : List Word} (h : a.length = b.length) :
    ltScan (maskOf c) a b = maskOf (if val a = val b then c else decide (val a < val b)) := by
  induction a generalizing b c with
  | nil => cases b with
    | nil => simp [ltScan]
    | cons => simp at h
  | cons x xs ih => cases b with
    | nil => simp at h
    | cons y ys =>
      have hx := x.isLt
      have hy := y.isLt
      have heq : (x == y) = decide (x.toNat = y.toNat) := by
        by_cases hxy : x = y
        · simp [hxy]
        · have : x.toNat ≠ y.toNat := fun e => hxy (BitVec.eq_of_toNat_eq e)
          simp [hxy, this]
      have hsel : select (eqMask x y) (maskOf c) (ltMask x y)
          = maskOf (if x.toNat = y.toNat then c else decide (x.toNat < y.toNat)) := by
        rw [eqMask, heq, select_maskOf, ltMask]
        by_cases hxy : x.toNat = y.toNat <;> simp [hxy]
      rw [ltScan, hsel, ih _ (by simpa using h : xs.length = ys.length), val_cons, val_cons]
      congr 1
      by_cases hv : val xs = val ys
      · by_cases hxy : x.toNat = y.toNat
        · simp [hv, hxy]
        · have hne : ¬(x.toNat + 2 ^ 64 * val xs = y.toNat + 2 ^ 64 * val ys) := by omega
          rw [if_pos hv, if_neg hxy, if_neg hne]
          simp [hv]
      · have hne : ¬(x.toNat + 2 ^ 64 * val xs = y.toNat + 2 ^ 64 * val ys) := by omega
        rw [if_neg hv, if_neg hne]
        exact decide_eq_decide.mpr (by omega)

/-! Schoolbook multiplication (R130). -/

theorem macRow_length (w : Word) {a win : List Word} (c : Word) (h : a.length = win.length) :
    (macRow w a win c).1.length = a.length := by
  induction a generalizing win c with
  | nil => rfl
  | cons x xs ih => cases win with
    | nil => simp at h
    | cons r rs => simp [macRow, ih _ (by simpa using h : xs.length = rs.length)]

/-- A row adds `a·w` and the incoming carry to the window; the carry word is the limb above it. -/
theorem macRow_spec (w : Word) {a win : List Word} (c : Word) (h : a.length = win.length) :
    val (macRow w a win c).1 + 2 ^ (64 * a.length) * (macRow w a win c).2.toNat
      = val a * w.toNat + val win + c.toNat := by
  induction a generalizing win c with
  | nil => cases win with
    | nil => simp [macRow]
    | cons => simp at h
  | cons x xs ih => cases win with
    | nil => simp at h
    | cons r rs =>
      have h1 := mac_spec x w r c
      have h2 := ih (mac x w r c).2 (by simpa using h : xs.length = rs.length)
      simp only [macRow, val_cons, List.length_cons, radix_succ]
      linear_combination h1 + 2 ^ 64 * h2

/-- A non-empty buffer as its lowest limb and the rest. -/
theorem val_headD_tail {b : List Word} (h : 0 < b.length) : (b.headD 0#64).toNat + 2 ^ 64 * val b.tail = val b := by
  cases b with
  | nil => simp at h
  | cons x xs => simp

theorem mulRows_length {a : List Word} (b : List Word) {win : List Word} (h : win.length = a.length) :
    (mulRows a b win).length = a.length + b.length := by
  induction b generalizing win with
  | nil => simp [mulRows, h]
  | cons w ws ih =>
    have hl : ((macRow w a win 0#64).1 ++ [(macRow w a win 0#64).2]).tail.length = a.length := by
      simp [macRow_length w 0#64 h.symm]
    simp only [mulRows, List.length_cons, ih hl]
    omega

theorem mulRows_val {a : List Word} (b : List Word) {win : List Word} (h : win.length = a.length) :
    val (mulRows a b win) = val win + val a * val b := by
  induction b generalizing win with
  | nil => simp [mulRows]
  | cons w ws ih =>
    have hrow := macRow_spec w 0#64 h.symm
    have hlen := macRow_length w 0#64 h.symm
    have hl : ((macRow w a win 0#64).1 ++ [(macRow w a win 0#64).2]).tail.length = a.length := by simp [hlen]
    have hv : val ((macRow w a win 0#64).1 ++ [(macRow w a win 0#64).2]) = val a * w.toNat + val win := by
      rw [val_append, hlen]; simpa using hrow
    have hht := val_headD_tail (b := (macRow w a win 0#64).1 ++ [(macRow w a win 0#64).2]) (by simp)
    simp only [mulRows, val_cons, ih hl]
    rw [hv] at hht
    linear_combination hht

@[simp] theorem bnMul_length (a b : List Word) : (bnMul a b).length = a.length + b.length :=
  mulRows_length b (by simp)

/-- `bn_mul` (R130) is the exact product. -/
@[simp] theorem bnMul_val (a b : List Word) : val (bnMul a b) = val a * val b := by
  rw [bnMul, mulRows_val b List.length_replicate, val_replicate_zero, Nat.zero_add]

/-! Squaring (R132). -/

theorem offRows_length {a win : List Word} (h : a.length = win.length) : (offRows a win).length = 2 * a.length := by
  induction a generalizing win with
  | nil => cases win with
    | nil => rfl
    | cons => simp at h
  | cons x xs ih => cases win with
    | nil => simp at h
    | cons w win =>
      have hw : xs.length = win.length := by simpa using h
      have hl : xs.length = ((macRow x xs win 0#64).1 ++ [(macRow x xs win 0#64).2]).tail.length := by
        simp [macRow_length x 0#64 hw]
      simp only [offRows, List.length_cons, ih hl]
      omega

/-- The accumulator of the off-diagonal rows: twice it plus the diagonal is the window twice plus the square. -/
theorem offRows_val {a win : List Word} (h : a.length = win.length) :
    2 * val (offRows a win) + val (diagTerms a) = 2 * val win + val a * val a := by
  induction a generalizing win with
  | nil => cases win with
    | nil => rfl
    | cons => simp at h
  | cons x xs ih => cases win with
    | nil => simp at h
    | cons w win =>
      have hw : xs.length = win.length := by simpa using h
      have hrow := macRow_spec x 0#64 hw
      have hlen := macRow_length x 0#64 hw
      have hl : xs.length = ((macRow x xs win 0#64).1 ++ [(macRow x xs win 0#64).2]).tail.length := by simp [hlen]
      have hv : val ((macRow x xs win 0#64).1 ++ [(macRow x xs win 0#64).2]) = val xs * x.toNat + val win := by
        rw [val_append, hlen]; simpa using hrow
      have hht := val_headD_tail (b := (macRow x xs win 0#64).1 ++ [(macRow x xs win 0#64).2]) (by simp)
      have hd := mac_spec x x 0#64 0#64
      have hi := ih hl
      rw [hv] at hht
      simp only [offRows, diagTerms, val_cons, BitVec.toNat_ofNat, Nat.zero_mod, Nat.add_zero] at hd ⊢
      linear_combination hd + 2 ^ 64 * (2 ^ 64 * hi + 2 * hht)

theorem diagTerms_length (a : List Word) : (diagTerms a).length = 2 * a.length := by
  induction a with
  | nil => rfl
  | cons x xs ih => simp only [diagTerms, List.length_cons, ih]; omega

/-- `bn_sqr(a) = bn_mul(a, a)` limb for limb (R132). -/
theorem bnSqr_eq_bnMul (a : List Word) : bnSqr a = bnMul a a := by
  have hrep : a.length = (List.replicate a.length 0#64).length := by simp
  have hlo := offRows_length hrep
  have hoff := offRows_val hrep
  have hld := diagTerms_length a
  rw [val_replicate_zero] at hoff
  have hbound : val a * val a < 2 ^ (64 * (2 * a.length)) := by
    have := val_lt a
    calc val a * val a < 2 ^ (64 * a.length) * 2 ^ (64 * a.length) := Nat.mul_lt_mul'' this this
      _ = 2 ^ (64 * (2 * a.length)) := by rw [← Nat.pow_add]; congr 1; ring
  have h1 := bnAdd_spec (rfl : (offRows a (List.replicate a.length 0#64)).length = _)
  have hl1 := bnAdd_length (rfl : (offRows a (List.replicate a.length 0#64)).length = _)
  rw [hlo] at h1 hl1
  have h2 := bnAdd_spec (a := (bnAdd (offRows a (List.replicate a.length 0#64)) (offRows a (List.replicate a.length 0#64))).1)
    (b := diagTerms a) (by omega)
  have hl2 := bnAdd_length (a := (bnAdd (offRows a (List.replicate a.length 0#64)) (offRows a (List.replicate a.length 0#64))).1)
    (b := diagTerms a) (by omega)
  rw [hl1] at h2 hl2
  refine eq_of_val_eq (by rw [bnMul_length]; exact hl2.trans (by ring)) ?_
  rw [bnMul_val]
  change val (bnAdd (bnAdd (offRows a (List.replicate a.length 0#64)) (offRows a (List.replicate a.length 0#64))).1
    (diagTerms a)).1 = _
  generalize (bnAdd (offRows a (List.replicate a.length 0#64)) (offRows a (List.replicate a.length 0#64))).2 = k1 at h1
  generalize (bnAdd (bnAdd (offRows a (List.replicate a.length 0#64)) (offRows a (List.replicate a.length 0#64))).1
    (diagTerms a)).2 = k2 at h2
  cases k1 <;> cases k2 <;> simp only [Bool.toNat_true, Bool.toNat_false, Nat.mul_one, Nat.mul_zero, Nat.add_zero] at h1 h2 <;>
    omega

@[simp] theorem bnSqr_length (a : List Word) : (bnSqr a).length = a.length + a.length := by
  rw [bnSqr_eq_bnMul, bnMul_length]

@[simp] theorem bnSqr_val (a : List Word) : val (bnSqr a) = val a * val a := by
  rw [bnSqr_eq_bnMul, bnMul_val]

end Sys2Proof.Machine
end

