-- ==== Sys2Proof/Laws/Montgomery.lean ====
section
/-! SUPPORT. What the functions of the Montgomery Engine compute: the word inverse (spec/42_montgomery.md R161), the
top-bit scan (R162), `R² mod N` (R163) and REDC (R164). -/

namespace Sys2Proof.Machine

/-! The word inverse (R161). -/

theorem odd_word {n0 : Word} (h : n0.toNat % 2 = 1) : ∃ m : Word, n0 = 2#64 * m + 1#64 := by
  refine ⟨BitVec.ofNat 64 (n0.toNat / 2), BitVec.eq_of_toNat_eq ?_⟩
  have := n0.isLt
  simp [BitVec.toNat_add, BitVec.toNat_mul]
  omega

theorem inverseStep_error (n0 x : Word) : 1 - n0 * inverseStep n0 x = (1 - n0 * x) ^ 2 := by
  rw [inverseStep, show (2#64 : Word) = 1 + 1 from rfl]; ring

/-- `mod_inv_word(n0)` (R161): for odd `n0` the word `v` with `v·n0 = 2^64 - 1` modulo `2^64`. -/
theorem modInvWord_spec {n0 : Word} (h : n0.toNat % 2 = 1) : modInvWord n0 * n0 = BitVec.allOnes 64 := by
  obtain ⟨m, hm⟩ := odd_word h
  have herr : 1 - n0 * inverseStep n0 (inverseStep n0 (inverseStep n0 (inverseStep n0 (inverseStep n0 n0)))) = 0 := by
    have h0 : (1 - n0 * n0 : Word) = 4#64 * (-(m * (m + 1))) := by
      rw [hm, show (2#64 : Word) = 1 + 1 from rfl, show (1#64 : Word) = 1 from rfl, show (4#64 : Word) = 1 + 1 + 1 + 1 from rfl]
      ring
    have h4 : (4#64 : Word) ^ 32 = 0 := by decide
    rw [inverseStep_error, inverseStep_error, inverseStep_error, inverseStep_error, inverseStep_error, h0]
    rw [show ∀ y : Word, ((((y ^ 2) ^ 2) ^ 2) ^ 2) ^ 2 = y ^ 32 from fun y => by ring, mul_pow, h4, zero_mul]
  have hneg : BitVec.allOnes 64 = (-1 : Word) := by decide
  rw [hneg, modInvWord, show (0#64 : Word) = 0 from rfl]
  linear_combination herr

/-! The top-bit scan (R162). -/

theorem lastIndex_none {α : Type} (p : α → Bool) (i ind : Nat) {xs : List α} (h : ∀ x ∈ xs, p x = false) :
    lastIndex p i ind xs = ind := by
  induction xs generalizing i ind with
  | nil => rfl
  | cons x xs ih =>
    rw [lastIndex, h x (by simp), ih _ _ (fun y hy => h y (by simp [hy]))]; simp

/-- The full scan returns the last index at which the predicate holds. -/
theorem lastIndex_spec {α : Type} (p : α → Bool) (i ind : Nat) {xs : List α} (h : ∃ x ∈ xs, p x = true) :
    ∃ l x r, xs = l ++ x :: r ∧ p x = true ∧ (∀ y ∈ r, p y = false) ∧ lastIndex p i ind xs = i + l.length := by
  induction xs generalizing i ind with
  | nil => simp at h
  | cons x xs ih =>
    by_cases hx : ∃ y ∈ xs, p y = true
    · obtain ⟨l, y, r, rfl, hy, hr, hl⟩ := ih (i + 1) (if p x then i else ind) hx
      exact ⟨x :: l, y, r, rfl, hy, hr, by rw [lastIndex, hl, List.length_cons]; omega⟩
    · have hxs : ∀ y ∈ xs, p y = false := fun y hy => by
        by_contra hne
        exact hx ⟨y, hy, by simpa using hne⟩
      have hpx : p x = true := by
        obtain ⟨y, hy, hp⟩ := h
        rcases List.mem_cons.mp hy with rfl | hy
        · exact hp
        · exact absurd hp (by simp [hxs y hy])
      exact ⟨[], x, xs, rfl, hpx, hxs, by rw [lastIndex, lastIndex_none p _ _ hxs, hpx]; simp⟩

/-- The bit scan of a non-zero word. -/
theorem topBit_spec {w : Word} (h : w ≠ 0#64) :
    2 ^ lastIndex (fun k => w.getLsbD k) 0 0 (List.range 64) ≤ w.toNat ∧
    w.toNat < 2 ^ (lastIndex (fun k => w.getLsbD k) 0 0 (List.range 64) + 1) ∧
    lastIndex (fun k => w.getLsbD k) 0 0 (List.range 64) < 64 := by
  have hex : ∃ k ∈ List.range 64, w.getLsbD k = true := by
    by_contra hne
    refine h (BitVec.eq_of_getLsbD_eq fun k hk => ?_)
    have := fun hp => hne ⟨k, by simpa using hk, hp⟩
    simpa using this
  obtain ⟨l, k, r, hsplit, hk, hr, hl⟩ := lastIndex_spec (fun k => w.getLsbD k) 0 0 hex
  have hlen : l.length + (r.length + 1) = 64 := by
    have := congrArg List.length hsplit; simpa using this.symm
  have hkl : k = l.length := by
    have := congrArg (fun xs => xs[l.length]?) hsplit
    simpa [List.getElem?_range, show l.length < 64 by omega] using this.symm
  rw [hl, Nat.zero_add, ← hkl]
  refine ⟨Nat.ge_two_pow_of_testBit hk, ?_, by omega⟩
  refine Nat.lt_pow_two_of_testBit _ fun j hj => ?_
  by_cases hj64 : j < 64
  · refine hr j ?_
    have hget := congrArg (fun xs => xs[j]?) hsplit
    rw [List.getElem?_range hj64, List.getElem?_append_right (by omega),
      show j - l.length = (j - l.length - 1) + 1 by omega, List.getElem?_cons_succ] at hget
    exact List.mem_of_getElem? hget.symm
  · exact BitVec.getLsbD_of_ge w j (by omega)

theorem val_eq_zero_of_all_zero {b : List Word} (h : ∀ w ∈ b, (w != 0#64) = false) : val b = 0 := by
  induction b with
  | nil => rfl
  | cons x xs ih =>
    have hx : x = 0#64 := by simpa using h x (by simp)
    rw [val_cons, ih fun w hw => h w (by simp [hw]), hx]; rfl

/-- `top_index(N)` (R162): `2^top_index(N) ≤ val(N) < 2^(top_index(N)+1)` for a non-zero buffer. -/
theorem topIndex_spec {n : List Word} (h : 1 ≤ val n) :
    2 ^ topIndex n ≤ val n ∧ val n < 2 ^ (topIndex n + 1) ∧ topIndex n < 64 * n.length := by
  have hex : ∃ w ∈ n, (w != 0#64) = true := by
    by_contra hne
    have := val_eq_zero_of_all_zero (b := n) fun w hw => by
      by_contra hp; exact hne ⟨w, hw, by simpa using hp⟩
    omega
  obtain ⟨l, w, r, hsplit, hw, hr, hl⟩ := lastIndex_spec (fun w => w != 0#64) 0 0 hex
  have hw0 : w ≠ 0#64 := by simpa using hw
  obtain ⟨h1, h2, h3⟩ := topBit_spec hw0
  have hget : n.getD l.length 0#64 = w := by rw [hsplit]; simp
  have htop : topIndex n = 64 * l.length + lastIndex (fun k => w.getLsbD k) 0 0 (List.range 64) := by
    simp only [topIndex, hl, Nat.zero_add, hget]
  have hval : val n = val l + 2 ^ (64 * l.length) * w.toNat := by
    rw [hsplit, val_append, val_cons, val_eq_zero_of_all_zero hr]; ring
  have hll := val_lt l
  have hlen : n.length = l.length + (r.length + 1) := by rw [hsplit]; simp
  generalize lastIndex (fun k => w.getLsbD k) 0 0 (List.range 64) = t at *
  rw [htop, hval]
  refine ⟨?_, ?_, by omega⟩
  · rw [Nat.pow_add]
    exact (Nat.mul_le_mul_left _ h1).trans (Nat.le_add_left _ _)
  · rw [Nat.add_assoc, Nat.pow_add]
    calc val l + 2 ^ (64 * l.length) * w.toNat < 2 ^ (64 * l.length) + 2 ^ (64 * l.length) * w.toNat := by omega
      _ = 2 ^ (64 * l.length) * (w.toNat + 1) := by ring
      _ ≤ _ := Nat.mul_le_mul_left _ h2

/-! `R² mod N` (R163). -/

theorem doublings_spec {n : List Word} (k : Nat) {acc : List Word} (hl : acc.length = n.length) (hlt : val acc < val n) :
    (doublings n k acc).length = n.length ∧ val (doublings n k acc) = val acc * 2 ^ k % val n := by
  induction k generalizing acc with
  | zero => exact ⟨hl, by simp [doublings, Nat.mod_eq_of_lt hlt]⟩
  | succ k ih =>
    have hs := addModN_spec hl hl hlt hlt
    have hll := addModN_length hl hl
    obtain ⟨h1, h2⟩ := ih hll (by rw [hs]; exact Nat.mod_lt _ (by omega))
    refine ⟨h1, ?_⟩
    rw [doublings, h2, hs, Nat.mod_mul_mod, ← two_mul, Nat.pow_succ]
    congr 1; ring

theorem val_set_zero {k i : Nat} (w : Word) (h : i < k) :
    val ((List.replicate k 0#64).set i w) = 2 ^ (64 * i) * w.toNat := by
  induction k generalizing i with
  | zero => omega
  | succ k ih =>
    rw [List.replicate_succ]
    cases i with
    | zero => simp
    | succ i => rw [List.set_cons_succ, val_cons, ih (by omega), radix_succ]; simp [Nat.mul_assoc]

/-- `precompute_r2(N)` (R163) is `2^(128L) mod N` for odd `val(N) ≥ 3`. -/
theorem precomputeR2_spec {n : List Word} (hodd : val n % 2 = 1) (h3 : 3 ≤ val n) :
    precomputeR2 n = limbs n.length (2 ^ (128 * n.length) % val n) := by
  obtain ⟨h1, h2, hti⟩ := topIndex_spec (n := n) (by omega)
  have hne : 2 ^ topIndex n < val n := by
    refine lt_of_le_of_ne h1 fun he => ?_
    rcases Nat.eq_zero_or_pos (topIndex n) with h0 | h0
    · rw [h0] at he; omega
    · obtain ⟨m, hm⟩ : ∃ m, topIndex n = m + 1 := ⟨topIndex n - 1, by omega⟩
      rw [← he, hm, Nat.pow_succ, Nat.mul_mod_left] at hodd
      omega
  have hval : val ((List.replicate n.length 0#64).set (topIndex n / 64) (BitVec.ofNat 64 (2 ^ (topIndex n % 64))))
      = 2 ^ topIndex n := by
    rw [val_set_zero _ (by omega), BitVec.toNat_ofNat,
      Nat.mod_eq_of_lt (Nat.pow_lt_pow_right (by norm_num) (Nat.mod_lt _ (by norm_num))), ← Nat.pow_add, Nat.div_add_mod]
  obtain ⟨hl, hv⟩ := doublings_spec (n := n) (128 * n.length - topIndex n)
    (acc := (List.replicate n.length 0#64).set (topIndex n / 64) (BitVec.ofNat 64 (2 ^ (topIndex n % 64))))
    (by simp) (by rw [hval]; exact hne)
  refine eq_limbs hl ?_
  rw [hval, ← Nat.pow_add, show topIndex n + (128 * n.length - topIndex n) = 128 * n.length by omega] at hv
  exact hv

/-! REDC (R164). -/

/-- The low word of `mac` is the word arithmetic. -/
theorem mac_low (x y r : Word) : (mac x y r 0#64).1 = x * y + r := by
  apply BitVec.eq_of_toNat_eq
  simp [mac, BitVec.toNat_add, BitVec.toNat_mul]

/-- The quotient word makes the lowest limb of the row vanish. -/
theorem redc_low_zero {nInv n0 w0 : Word} (h : nInv * n0 = BitVec.allOnes 64) :
    (mac n0 (nInv * w0) w0 0#64).1 = 0#64 := by
  have hneg : BitVec.allOnes 64 = (-1 : Word) := by decide
  rw [mac_low, show n0 * (nInv * w0) + w0 = (nInv * n0) * w0 + w0 by ring, h, hneg,
    show (-1 : Word) * w0 + w0 = 0 by ring]
  rfl

theorem macRow_head_zero {nInv : Word} {n win : List Word} (hl : n.length = win.length) (h0 : 0 < n.length)
    (h : nInv * n.headD 0#64 = BitVec.allOnes 64) :
    (macRow (nInv * win.headD 0#64) n win 0#64).1.headD 0#64 = 0#64 := by
  cases n with
  | nil => simp at h0
  | cons x xs => cases win with
    | nil => simp at hl
    | cons r rs =>
      simp only [List.headD_cons] at h
      simp only [macRow, List.headD_cons]
      exact redc_low_zero h

/-- The loop of `reduction` (R164): the low limbs come out 0, and the window with its carry is the whole divided by the
radix, after adding a multiple `q` of the modulus. -/
theorem redcLoop_spec {n : List Word} {nInv : Word} (h0 : 0 < n.length) (h : nInv * n.headD 0#64 = BitVec.allOnes 64)
    (rest : List Word) {win : List Word} (c0 : Bool) (hw : win.length = n.length) :
    (redcLoop n nInv rest win c0).1 = List.replicate rest.length 0#64 ∧
    (redcLoop n nInv rest win c0).2.1.length = n.length ∧
    ∃ q, q < 2 ^ (64 * rest.length) ∧
      2 ^ (64 * rest.length) * (val (redcLoop n nInv rest win c0).2.1
        + 2 ^ (64 * n.length) * (redcLoop n nInv rest win c0).2.2.toNat)
      = val win + 2 ^ (64 * n.length) * (val rest + c0.toNat) + q * val n := by
  induction rest generalizing win c0 with
  | nil => exact ⟨rfl, hw, 0, by simp, by simp [redcLoop]⟩
  | cons x xs ih =>
    have hrow := macRow_spec (nInv * win.headD 0#64) 0#64 hw.symm
    have hrl := macRow_length (nInv * win.headD 0#64) 0#64 hw.symm
    have hhd := macRow_head_zero hw.symm h0 h
    have hht := val_headD_tail (b := (macRow (nInv * win.headD 0#64) n win 0#64).1) (by omega)
    generalize hr : macRow (nInv * win.headD 0#64) n win 0#64 = row at hrow hrl hhd hht
    have ht := addc_spec x row.2 c0
    have htl : row.1.tail.length + 1 = n.length := by simp; omega
    have hnew : (row.1.tail ++ [(addc x row.2 c0).1]).length = n.length := by simp; omega
    obtain ⟨i1, i2, q, hq, hv⟩ := ih (win := row.1.tail ++ [(addc x row.2 c0).1]) (addc x row.2 c0).2 hnew
    simp only [redcLoop, hr]
    refine ⟨by rw [i1, hhd, List.length_cons, List.replicate_succ], i2, (nInv * win.headD 0#64).toNat + 2 ^ 64 * q, ?_, ?_⟩
    · have := (nInv * win.headD 0#64).isLt
      rw [List.length_cons, radix_succ]
      nlinarith
    · rw [List.length_cons, radix_succ, Nat.mul_assoc, hv, val_append, val_cons, val_cons]
      rw [hhd] at hht
      have hB : 2 ^ (64 * n.length) = 2 ^ 64 * 2 ^ (64 * row.1.tail.length) := by rw [← htl, radix_succ]
      rw [hB] at hrow ⊢
      simp only [val_nil, Nat.mul_zero, Nat.add_zero, BitVec.toNat_ofNat, Nat.zero_mod, Nat.zero_add] at hht hrow ⊢
      linear_combination hht + hrow + 2 ^ 64 * 2 ^ (64 * row.1.tail.length) * ht

/-- What `reduction` returns (R164). `q` is DOC1's `Q`; the high half of `C` with the carry `c0` is `(C + Q·N)/R`. -/
theorem reduction_spec {n : List Word} {nInv : Word} {c : List Word} (h0 : 0 < n.length)
    (h : nInv * n.headD 0#64 = BitVec.allOnes 64) (hc : c.length = 2 * n.length)
    (hlt : val c < val n * 2 ^ (64 * n.length)) :
    (reduction n nInv c).1.length = n.length ∧
    val (reduction n nInv c).1 < val n ∧
    val (reduction n nInv c).1 * 2 ^ (64 * n.length) % val n = val c % val n ∧
    ∃ q hi c0, q < 2 ^ (64 * n.length) ∧ hi.length = n.length ∧
      (reduction n nInv c).2 = List.replicate n.length 0#64 ++ hi ∧
      2 ^ (64 * n.length) * (val hi + 2 ^ (64 * n.length) * Bool.toNat c0) = val c + q * val n ∧
      val (reduction n nInv c).1 = (val hi + 2 ^ (64 * n.length) * Bool.toNat c0) % val n := by
  have hd : (c.drop n.length).length = n.length := by simp; omega
  obtain ⟨l1, l2, q, hq, hv⟩ := redcLoop_spec h0 h (c.drop n.length) (win := c.take n.length) false (by simp; omega)
  have hsplit : val (c.take n.length) + 2 ^ (64 * n.length) * val (c.drop n.length) = val c := by
    conv_rhs => rw [← List.take_append_drop n.length c]
    rw [val_append, List.length_take, Nat.min_eq_left (by omega)]
  rw [hd] at l1 hq hv
  simp only [Bool.toNat_false, Nat.add_zero] at hv
  rw [hsplit] at hv
  have hpos := radix_pos n.length
  have hn : 0 < val n := by
    rcases Nat.eq_zero_or_pos (val n) with hz | hz
    · rw [hz] at hlt; omega
    · exact hz
  have hV : val (redcLoop n nInv (c.drop n.length) (c.take n.length) false).2.1
      + 2 ^ (64 * n.length) * (redcLoop n nInv (c.drop n.length) (c.take n.length) false).2.2.toNat < 2 * val n := by
    refine Nat.lt_of_mul_lt_mul_left (a := 2 ^ (64 * n.length)) ?_
    rw [hv]
    have : q * val n ≤ 2 ^ (64 * n.length) * val n := Nat.mul_le_mul_right _ hq.le
    nlinarith
  have hres := condSub_spec (redcLoop n nInv (c.drop n.length) (c.take n.length) false).2.2 l2 hV
  refine ⟨condSub_length _ l2, ?_, ?_, q, _, _, hq, l2, ?_, hv, hres⟩
  · simp only [reduction]; rw [hres]; exact Nat.mod_lt _ hn
  · simp only [reduction]
    rw [hres, Nat.mod_mul_mod, Nat.mul_comm, hv, Nat.add_mul_mod_self_right]
  · simp only [reduction, l1]

end Sys2Proof.Machine
end

