-- ==== Sys2Proof/Laws/Exponentiation.lean ====
section
/-! SUPPORT. The Montgomery operations on values (spec/42_montgomery.md R168 to R171) and the two exponentiation loops
(spec/43_exponentiation.md R191 to R193) in terms of the numbers they represent. -/

namespace Sys2Proof.Machine

theorem ContextFor.nonempty {n r2 : List Word} {nInv : Word} (h : ContextFor n nInv r2) : 0 < n.length := by
  cases n with
  | nil => have := h.three; simp at this
  | cons => simp

theorem ContextFor.pos {n r2 : List Word} {nInv : Word} (h : ContextFor n nInv r2) : 0 < val n := by
  have := h.three; omega

/-- The radix `R = 2^(64L)` is a unit modulo the odd modulus. -/
theorem ContextFor.radix_coprime {n r2 : List Word} {nInv : Word} (h : ContextFor n nInv r2) :
    Nat.Coprime (val n) (2 ^ (64 * n.length)) :=
  Nat.Coprime.pow_right _ (Nat.coprime_two_right.mpr (Nat.odd_iff.mpr h.odd))

/-- Values below `N` that agree modulo `N` after multiplication by `R` are equal. -/
theorem ContextFor.cancel {n r2 : List Word} {nInv : Word} (h : ContextFor n nInv r2) {x y : Nat} (hx : x < val n)
    (hy : y < val n) (he : x * 2 ^ (64 * n.length) ≡ y * 2 ^ (64 * n.length) [MOD val n]) : x = y := by
  have : x ≡ y [MOD val n] := Nat.ModEq.cancel_right_of_coprime h.radix_coprime he
  rwa [Nat.ModEq, Nat.mod_eq_of_lt hx, Nat.mod_eq_of_lt hy] at this

/-! The Montgomery operations on values (R168 to R171). -/

/-- What `reduction` returns, as a number: below `N`, and `R` times it is the input modulo `N`. -/
theorem ContextFor.reduction_value {n r2 c : List Word} {nInv : Word} (h : ContextFor n nInv r2)
    (hc : c.length = 2 * n.length) (hlt : val c < val n * 2 ^ (64 * n.length)) :
    (reduction n nInv c).1.length = n.length ∧ val (reduction n nInv c).1 < val n ∧
    val (reduction n nInv c).1 * 2 ^ (64 * n.length) ≡ val c [MOD val n] := by
  obtain ⟨h1, h2, h3, -⟩ := reduction_spec h.nonempty h.inverse hc hlt
  exact ⟨h1, h2, h3⟩

/-- `to_montgomery` (R168): the Montgomery form of any `L`-limb number. -/
theorem ContextFor.toMont_spec {n r2 a : List Word} {nInv : Word} (h : ContextFor n nInv r2) (ha : a.length = n.length) :
    toMont n nInv r2 a = limbs n.length (val a * 2 ^ (64 * n.length) % val n) := by
  have hr2 : val r2 < val n := by rw [h.r2Val]; exact Nat.mod_lt _ h.pos
  have hav := val_lt a
  rw [ha] at hav
  obtain ⟨h1, h2, h3⟩ := h.reduction_value (c := bnMul a r2) (by rw [bnMul_length, ha, h.r2Length]; ring) (by
    rw [bnMul_val, Nat.mul_comm (val n)]; exact Nat.mul_lt_mul'' hav hr2)
  refine eq_limbs h1 (h.cancel h2 (Nat.mod_lt _ h.pos) (h3.trans ?_))
  rw [bnMul_val, h.r2Val, show 128 * n.length = 64 * n.length + 64 * n.length by ring, Nat.pow_add]
  exact ((Nat.mod_modEq _ _).mul_left _).trans
    (by rw [← Nat.mul_assoc]; exact ((Nat.mod_modEq _ _).symm.mul_right _))

/-- `from_montgomery` (R169): the number below `N` that `R` multiplies to `aM` modulo `N`. -/
theorem ContextFor.fromMont_spec {n r2 a : List Word} {nInv : Word} (h : ContextFor n nInv r2) (ha : a.length = n.length) :
    (fromMont n nInv a).length = n.length ∧ val (fromMont n nInv a) < val n ∧
    val (fromMont n nInv a) * 2 ^ (64 * n.length) ≡ val a [MOD val n] := by
  have hav := val_lt a
  rw [ha] at hav
  have := h.reduction_value (c := a ++ List.replicate n.length 0#64) (by simp; omega) (by
    rw [val_append, val_replicate_zero]
    have := h.pos
    nlinarith [radix_pos n.length])
  simpa [fromMont] using this

/-- `mont_mul` (R170) below the bound: `R` times the result is the product modulo `N`. -/
theorem ContextFor.montMul_spec {n r2 a b : List Word} {nInv : Word} (h : ContextFor n nInv r2) (ha : a.length = n.length)
    (hb : b.length = n.length) (hlt : val a * val b < val n * 2 ^ (64 * n.length)) :
    (montMul n nInv a b).length = n.length ∧ val (montMul n nInv a b) < val n ∧
    val (montMul n nInv a b) * 2 ^ (64 * n.length) ≡ val a * val b [MOD val n] := by
  have := h.reduction_value (c := bnMul a b) (by rw [bnMul_length, ha, hb]; ring) (by rwa [bnMul_val])
  rwa [bnMul_val] at this

/-- `mont_sqr` is `mont_mul` of a value with itself, limb for limb (R171). -/
theorem montSqr_eq_montMul (n : List Word) (nInv : Word) (a : List Word) : montSqr n nInv a = montMul n nInv a a := by
  rw [montSqr, montMul, bnSqr_eq_bnMul]

/-- `v` is the Montgomery form of `x`: `L` limbs, fully reduced, `x·R` modulo `N`. -/
structure IsMont (n : List Word) (x : Nat) (v : List Word) : Prop where
  length  : v.length = n.length
  reduced : val v < val n
  form    : val v ≡ x * 2 ^ (64 * n.length) [MOD val n]

theorem ContextFor.isMont_toMont {n r2 a : List Word} {nInv : Word} (h : ContextFor n nInv r2) (ha : a.length = n.length) :
    IsMont n (val a) (toMont n nInv r2 a) := by
  have hlt := Nat.mod_lt (val a * 2 ^ (64 * n.length)) h.pos
  have hv : val (toMont n nInv r2 a) = val a * 2 ^ (64 * n.length) % val n := by
    rw [h.toMont_spec ha, val_limbs_of_lt (hlt.trans (val_lt n))]
  exact ⟨by rw [h.toMont_spec ha, limbs_length], by rw [hv]; exact hlt, by rw [hv]; exact Nat.mod_modEq _ _⟩

theorem ContextFor.isMont_mul {n r2 u v : List Word} {nInv : Word} {x y : Nat} (h : ContextFor n nInv r2)
    (hu : IsMont n x u) (hv : IsMont n y v) : IsMont n (x * y) (montMul n nInv u v) := by
  have hun := val_lt n
  obtain ⟨h1, h2, h3⟩ := h.montMul_spec hu.length hv.length
    (Nat.mul_lt_mul'' hu.reduced (hv.reduced.trans hun))
  refine ⟨h1, h2, Nat.ModEq.cancel_right_of_coprime h.radix_coprime (h3.trans ((hu.form.mul hv.form).trans ?_))⟩
  rw [show x * 2 ^ (64 * n.length) * (y * 2 ^ (64 * n.length))
    = x * y * 2 ^ (64 * n.length) * 2 ^ (64 * n.length) by ring]

theorem ContextFor.isMont_sqr {n r2 u : List Word} {nInv : Word} {x : Nat} (h : ContextFor n nInv r2)
    (hu : IsMont n x u) : IsMont n (x * x) (montSqr n nInv u) := by
  rw [montSqr_eq_montMul]; exact h.isMont_mul hu hu

theorem ContextFor.fromMont_of_isMont {n r2 u : List Word} {nInv : Word} {x : Nat} (h : ContextFor n nInv r2)
    (hu : IsMont n x u) : fromMont n nInv u = limbs n.length (x % val n) := by
  obtain ⟨h1, h2, h3⟩ := h.fromMont_spec hu.length
  refine eq_limbs h1 (h.cancel h2 (Nat.mod_lt _ h.pos) (h3.trans (hu.form.trans ?_)))
  exact (Nat.mod_modEq _ _).symm.mul_right _

/-! The exponent bits (R10, R190). -/

theorem bitAt_eq_testBit (b : List Word) (k : Nat) : bitAt b k = (val b).testBit k := by
  induction b generalizing k with
  | nil => simp [bitAt]
  | cons x xs ih =>
    have hx := x.isLt
    by_cases hk : k < 64
    · rw [bitAt, Nat.div_eq_of_lt hk, Nat.mod_eq_of_lt hk, List.getD_cons_zero, val_cons, Nat.add_comm,
        Nat.testBit_two_pow_mul_add _ hx, if_pos hk]; rfl
    · have := ih (k - 64)
      rw [bitAt] at this ⊢
      rw [show k / 64 = (k - 64) / 64 + 1 by omega, show k % 64 = (k - 64) % 64 by omega, List.getD_cons_succ, this,
        val_cons, Nat.add_comm, Nat.testBit_two_pow_mul_add _ hx, if_neg hk]

theorem mod_two_pow_low (v k : Nat) : v % 2 ^ (k + 1) = (v.testBit 0).toNat + 2 * (v / 2 % 2 ^ k) := by
  rw [Nat.pow_succ, Nat.mul_comm, Nat.mod_mul, Nat.testBit_zero]
  congr 1
  rcases Nat.mod_two_eq_zero_or_one v with h | h <;> simp [h]

theorem mod_two_pow_high (v i : Nat) : v % 2 ^ (i + 1) = 2 ^ i * (v.testBit i).toNat + v % 2 ^ i := by
  rw [Nat.pow_succ, Nat.mod_mul, Nat.testBit_eq_decide_div_mod_eq, Nat.add_comm]
  congr 2
  rcases Nat.mod_two_eq_zero_or_one (v / 2 ^ i) with h | h <;> simp [h]

/-! Square and multiply (R192). -/

/-- The loop multiplies the accumulator by the base to the power of the bits still to scan. -/
theorem ContextFor.powerLoop_spec {n r2 : List Word} {nInv : Word} (h : ContextFor n nInv r2) (b : List Word) (k i : Nat)
    {x y : Nat} {acc base : List Word} (hx : IsMont n x acc) (hy : IsMont n y base) :
    IsMont n (x * y ^ (val b / 2 ^ i % 2 ^ k)) (powerLoop n nInv b k i acc base) := by
  induction k generalizing i x y acc base with
  | zero => simpa [powerLoop, Nat.mod_one] using hx
  | succ k ih =>
    have hdiv : val b / 2 ^ i / 2 = val b / 2 ^ (i + 1) := by rw [Nat.div_div_eq_div_mul, Nat.pow_succ]
    have hbit : (val b / 2 ^ i).testBit 0 = bitAt b i := by
      rw [bitAt_eq_testBit, Nat.testBit_div_two_pow, Nat.zero_add]
    rw [powerLoop, mod_two_pow_low, hbit, hdiv, pow_add, pow_mul, ← Nat.mul_assoc, pow_two]
    refine ih (i + 1) ?_ (h.isMont_sqr hy)
    cases bitAt b i
    · simpa using hx
    · simpa using h.isMont_mul hx hy

/-! The ladder (R191, R193). -/

theorem cswap_spec (c : Bool) {xs ys : List Word} (h : xs.length = ys.length) :
    cswap c xs ys = if c then (ys, xs) else (xs, ys) := by
  induction xs generalizing ys with
  | nil => cases ys with
    | nil => cases c <;> rfl
    | cons => simp at h
  | cons x xs ih => cases ys with
    | nil => simp at h
    | cons y ys =>
      rw [cswap, ih (by simpa using h : xs.length = ys.length)]
      cases c
      · simp [maskOf_false]
      · have e1 : x ^^^ (BitVec.allOnes 64 &&& (x ^^^ y)) = y := by
          rw [BitVec.allOnes_and, ← BitVec.xor_assoc, BitVec.xor_self, BitVec.zero_xor]
        have e2 : y ^^^ (BitVec.allOnes 64 &&& (x ^^^ y)) = x := by
          rw [BitVec.allOnes_and, BitVec.xor_comm x y, ← BitVec.xor_assoc, BitVec.xor_self, BitVec.zero_xor]
        simp only [maskOf_true, if_true, e1, e2]

/-- The ladder's invariant (R193): the unswapped pair holds `x0` and `x0·a`, and the rest of the loop raises `x0` to the
power of two of the bits left and multiplies by `a` to those bits. -/
theorem ContextFor.ladderLoop_spec {n r2 : List Word} {nInv : Word} (h : ContextFor n nInv r2) (b : List Word) (i : Nat)
    (prev : Bool) {x a : Nat} {r0 r1 : List Word}
    (h0 : IsMont n (if prev then x * a else x) r0) (h1 : IsMont n (if prev then x else x * a) r1) :
    IsMont n (x ^ 2 ^ i * a ^ (val b % 2 ^ i)) (ladderLoop n nInv b i prev r0 r1) := by
  induction i generalizing prev x r0 r1 with
  | zero =>
    rw [ladderLoop, cswap_spec _ (h0.length.trans h1.length.symm)]
    cases prev
    · simpa [Nat.mod_one] using h0
    · simpa [Nat.mod_one] using h1
  | succ i ih =>
    rw [ladderLoop, cswap_spec _ (h0.length.trans h1.length.symm), mod_two_pow_high, ← bitAt_eq_testBit]
    have key : ∀ u v : List Word, IsMont n (if bitAt b i then x * a else x) u →
        IsMont n (if bitAt b i then x else x * a) v →
        IsMont n (x ^ 2 ^ (i + 1) * a ^ (2 ^ i * (bitAt b i).toNat + val b % 2 ^ i))
          (ladderLoop n nInv b i (bitAt b i) (montSqr n nInv u) (montMul n nInv v u)) := by
      intro u v hu hv
      have hs := h.isMont_sqr hu
      have hm := h.isMont_mul hv hu
      cases hb : bitAt b i
      · rw [hb] at hs hm
        have := ih false (x := x * x) (r0 := montSqr n nInv u) (r1 := montMul n nInv v u)
          (by simpa using hs) (by simpa [mul_comm, mul_assoc, mul_left_comm] using hm)
        rw [show x ^ 2 ^ (i + 1) = (x * x) ^ 2 ^ i by rw [← pow_two, ← pow_mul, pow_succ, mul_comm (2 ^ i)]]
        simpa using this
      · rw [hb] at hs hm
        have := ih true (x := x * (x * a)) (r0 := montSqr n nInv u) (r1 := montMul n nInv v u)
          (by simpa [mul_comm, mul_assoc, mul_left_comm] using hs) (by simpa using hm)
        rw [show x ^ 2 ^ (i + 1) * a ^ (2 ^ i * true.toNat + val b % 2 ^ i)
            = (x * (x * a)) ^ 2 ^ i * a ^ (val b % 2 ^ i) by
          rw [Bool.toNat_true, Nat.mul_one, pow_add a, ← mul_assoc x x a, mul_pow (x * x) a, ← pow_two, ← pow_mul, pow_succ,
            mul_comm (2 ^ i) 2, mul_assoc]]
        exact this
    cases hp : prev <;> cases hb : bitAt b i <;> rw [hp] at h0 h1 <;> rw [hb] at key <;>
      simp only [Bool.xor_false, Bool.xor_true, Bool.not_false, Bool.not_true, if_true, Bool.false_eq_true, if_false]
        at h0 h1 key ⊢
    · exact key _ _ h0 h1
    · exact key _ _ h1 h0
    · exact key _ _ h1 h0
    · exact key _ _ h0 h1

theorem val_limbs_one {n : Nat} (h : 0 < n) : val (limbs n 1) = 1 :=
  val_limbs_of_lt (Nat.one_lt_two_pow (by omega))

/-- `mod_exp` (R192): `val(a)^e mod val(N)` with `e = val(b) mod 2^bBits`. -/
theorem ContextFor.modExp_spec {n r2 a : List Word} {nInv : Word} (h : ContextFor n nInv r2) (ha : a.length = n.length)
    (b : List Word) (bBits : Nat) :
    modExp n nInv r2 a b bBits = limbs n.length (val a ^ (val b % 2 ^ bBits) % val n) := by
  have h1 := h.isMont_toMont (limbs_length n.length 1)
  rw [val_limbs_one h.nonempty] at h1
  have := h.fromMont_of_isMont (h.powerLoop_spec b bBits 0 h1 (h.isMont_toMont ha))
  simpa [modExp] using this

/-- `mod_exp_mont_ladder` (R193): the same power. -/
theorem ContextFor.modExpLadder_spec {n r2 a : List Word} {nInv : Word} (h : ContextFor n nInv r2)
    (ha : a.length = n.length) (b : List Word) (bBits : Nat) :
    modExpLadder n nInv r2 a b bBits = limbs n.length (val a ^ (val b % 2 ^ bBits) % val n) := by
  have h1 := h.isMont_toMont (limbs_length n.length 1)
  rw [val_limbs_one h.nonempty] at h1
  have := h.fromMont_of_isMont (h.ladderLoop_spec b bBits false (x := 1) (a := val a)
    (by simpa using h1) (by simpa using h.isMont_toMont ha))
  simpa [modExpLadder] using this

end Sys2Proof.Machine
end

