-- ==== Sys2Proof/Laws/Karatsuba.lean ====
section
/-! SUPPORT. The Karatsuba functions compute the schoolbook product (spec/41_multiplier.md R134 to R137, R140). -/

namespace Sys2Proof.Machine

theorem val_take_drop (a : List Word) {h : Nat} (hh : h ≤ a.length) :
    val (a.take h) + 2 ^ (64 * h) * val (a.drop h) = val a := by
  conv_rhs => rw [← List.take_append_drop h a]
  rw [val_append, List.length_take, Nat.min_eq_left hh]

/-- `sign_abs` (R134): the absolute difference and its sign. -/
theorem signAbs_spec {x y : List Word} (h : x.length = y.length) :
    (signAbs x y).1.length = x.length ∧
    (if (signAbs x y).2 then val x + val (signAbs x y).1 = val y else val y + val (signAbs x y).1 = val x) := by
  have h1 := bnSub_spec h
  have h2 := bnSub_spec h.symm
  have b1 := bnSub_borrow h
  have b2 := bnSub_borrow h.symm
  have l1 := bnSub_length h
  have l2 := bnSub_length h.symm
  simp only [signAbs]
  have hsel := selectBuf_maskOf (bnSub x y).2 (l2.trans (h.symm.trans l1.symm))
  by_cases hlt : val x < val y
  · rw [decide_eq_true hlt] at b1
    rw [b2, decide_eq_false (by omega)] at h2
    rw [b1] at hsel
    simp [b1, hsel] at h2 ⊢
    exact ⟨by omega, by omega⟩
  · rw [decide_eq_false hlt] at b1
    rw [b1] at h1 hsel
    simp [b1, hsel] at h1 ⊢
    exact ⟨by omega, by omega⟩

theorem rippleAdd_length (c : Nat) (xs : List Word) : (rippleAdd c xs).length = xs.length := by
  induction xs generalizing c with
  | nil => rfl
  | cons x xs ih => simp [rippleAdd, ih]

/-- The carry chain adds its carry modulo the size of the buffer. -/
theorem rippleAdd_spec (c : Nat) (xs : List Word) :
    ∃ q, val (rippleAdd c xs) + 2 ^ (64 * xs.length) * q = val xs + c := by
  induction xs generalizing c with
  | nil => exact ⟨c, by simp [rippleAdd]⟩
  | cons x xs ih =>
    obtain ⟨q, hq⟩ := ih ((x.toNat + c) / 2 ^ 64)
    refine ⟨q, ?_⟩
    have hm := Nat.mod_add_div (x.toNat + c) (2 ^ 64)
    simp only [rippleAdd, val_cons, List.length_cons, radix_succ, BitVec.toNat_ofNat]
    linear_combination hm + 2 ^ 64 * hq

/-- Step 6 of R135 adds the middle term at limb `h`, modulo the size of the product. -/
theorem assembleMiddle_spec {h k : Nat} {p0 p1 mid : List Word} (top : Word)
    (hl : p0.length + p1.length = h + mid.length + k) :
    (assembleMiddle h p0 p1 mid top).length = p0.length + p1.length ∧
    ∃ q, val (assembleMiddle h p0 p1 mid top) + 2 ^ (64 * (h + mid.length + k)) * q
      = val (p0 ++ p1) + 2 ^ (64 * h) * (val mid + 2 ^ (64 * mid.length) * top.toNat) := by
  have hres : (p0 ++ p1).length = h + mid.length + k := by simpa using hl
  have hY : (((p0 ++ p1).drop h).take mid.length).length = mid.length := by simp; omega
  have hX : ((p0 ++ p1).take h).length = h := by simp; omega
  have hZ : ((p0 ++ p1).drop (h + mid.length)).length = k := by simp; omega
  have hadd := bnAdd_spec hY
  have hlen := bnAdd_length hY
  obtain ⟨q, hq⟩ := rippleAdd_spec
    (top.toNat + (bnAdd (((p0 ++ p1).drop h).take mid.length) mid).2.toNat) ((p0 ++ p1).drop (h + mid.length))
  have s1 := val_take_drop (p0 ++ p1) (h := h) (by omega)
  have s2 := val_take_drop ((p0 ++ p1).drop h) (h := mid.length) (by simp; omega)
  rw [List.drop_drop] at s2
  rw [hY] at hadd hlen
  rw [hZ] at hq
  refine ⟨by simp only [assembleMiddle, List.length_append, rippleAdd_length, hlen, hX, hZ]; omega, q, ?_⟩
  simp only [assembleMiddle, val_append _ (rippleAdd _ _), val_append (List.take _ _) _, List.length_append, hX, hlen]
  rw [Nat.mul_add 64 h, Nat.pow_add, Nat.mul_add 64 (h + _), Nat.pow_add, Nat.mul_add 64 h, Nat.pow_add]
  linear_combination (2 ^ (64 * h)) * hadd + (2 ^ (64 * h) * 2 ^ (64 * mid.length)) * hq + s1 + 2 ^ (64 * h) * s2

theorem val_mul_lt (a b : List Word) : val a * val b < 2 ^ (64 * (a.length + b.length)) := by
  rw [Nat.mul_add, Nat.pow_add]
  exact Nat.mul_lt_mul'' (val_lt a) (val_lt b)

/-- Adding the right middle term gives the product of the whole operands. -/
theorem assembleMiddle_eq {h : Nat} {a b p0 p1 mid : List Word} (top : Word) (ha : a.length = 2 * h)
    (hb : b.length = 2 * h) (h0 : p0 = bnMul (a.take h) (b.take h)) (h1 : p1 = bnMul (a.drop h) (b.drop h))
    (hml : mid.length = 2 * h)
    (hm : val mid + 2 ^ (64 * (2 * h)) * top.toNat
      = val (a.take h) * val (b.drop h) + val (a.drop h) * val (b.take h)) :
    assembleMiddle h p0 p1 mid top = bnMul a b := by
  have hl0 : p0.length = 2 * h := by rw [h0, bnMul_length]; simp; omega
  have hl1 : p1.length = 2 * h := by rw [h1, bnMul_length]; simp; omega
  obtain ⟨hlen, q, hq⟩ := assembleMiddle_spec (h := h) (k := h) (p0 := p0) (p1 := p1) (mid := mid) top (by omega)
  have va := val_take_drop a (h := h) (by omega)
  have vb := val_take_drop b (h := h) (by omega)
  rw [hml, hm, val_append, hl0, h0, h1, bnMul_val, bnMul_val] at hq
  have hprod : val a * val b = val (a.take h) * val (b.take h)
      + 2 ^ (64 * (2 * h)) * (val (a.drop h) * val (b.drop h))
      + 2 ^ (64 * h) * (val (a.take h) * val (b.drop h) + val (a.drop h) * val (b.take h)) := by
    rw [← va, ← vb, show 64 * (2 * h) = 64 * h + 64 * h by ring, Nat.pow_add]; ring
  have hlt := val_mul_lt a b
  rw [ha, hb] at hlt
  refine eq_of_val_eq (by rw [hlen, bnMul_length]; omega) ?_
  rw [← h0, ← h1, ← hprod] at hq
  have hq0 : q = 0 := by
    by_contra hne
    have : 1 ≤ q := Nat.one_le_iff_ne_zero.mpr hne
    rw [show h + 2 * h + h = 2 * h + 2 * h by ring] at hq
    nlinarith [Nat.zero_le (val (assembleMiddle h p0 p1 mid top)), radix_pos (2 * h + 2 * h)]
  rw [hq0] at hq
  rw [bnMul_val]
  omega

/-- The signed cross term: `p0 + p1` minus or plus the product of the differences is `a0·b1 + a1·b0`. -/
theorem cross_term {a0 a1 b0 b1 da db : Nat} {c0 c1 : Bool}
    (h0 : if c0 then a0 + da = a1 else a1 + da = a0) (h1 : if c1 then b0 + db = b1 else b1 + db = b0) :
    if (c0 ^^ c1) then a0 * b0 + a1 * b1 + da * db = a0 * b1 + a1 * b0
    else a0 * b0 + a1 * b1 = a0 * b1 + a1 * b0 + da * db := by
  cases c0 <;> cases c1 <;> simp only [Bool.xor_false, Bool.xor_true, Bool.not_false,
    Bool.not_true, if_true, Bool.false_eq_true, if_false] at h0 h1 ⊢ <;> subst h0 h1 <;> ring

/-- The selected candidate of step 5 with its top word is the middle term. -/
theorem middle_selected {mid pd : List Word} {s : Bool} {c2 : Bool} {t : Nat} (hl : mid.length = pd.length)
    (ht : if s then val mid + 2 ^ (64 * mid.length) * c2.toNat + val pd = t
      else val mid + 2 ^ (64 * mid.length) * c2.toNat = t + val pd) :
    val (selectBuf (maskOf s) (bnAdd mid pd).1 (bnSub mid pd).1)
      + 2 ^ (64 * mid.length)
        * (select (maskOf s) (bitWord c2 + bitWord (bnAdd mid pd).2) (bitWord c2 - bitWord (bnSub mid pd).2)).toNat = t := by
  have la := bnAdd_length hl
  have ls := bnSub_length hl
  rw [selectBuf_maskOf _ (by omega), select_maskOf]
  have lsub := val_lt (bnSub mid pd).1
  rw [ls] at lsub
  cases s
  · have hs := bnSub_spec hl
    simp only [Bool.false_eq_true, if_false] at ht ⊢
    generalize (bnSub mid pd).2 = c3 at hs ⊢
    cases c2 <;> cases c3 <;> simp [bitWord] at ht hs ⊢ <;> omega
  · have ha := bnAdd_spec hl
    simp only [if_true] at ht ⊢
    generalize (bnAdd mid pd).2 = c4 at ha ⊢
    cases c2 <;> cases c4 <;> simp [bitWord] at ht ha ⊢ <;> omega

theorem karatsuba_even {n : Nat} (h : karatsubaBase n = false) : n = 2 * (n / 2) := by
  simp only [karatsubaBase, Bool.or_eq_false_iff, decide_eq_false_iff_not] at h
  omega

/-- One level of Karatsuba over exact half products is the exact product (steps 1 to 6 of R135). -/
theorem karatsuba_level {h : Nat} {a b da db : List Word} {c0 c1 : Bool} (ha : a.length = 2 * h) (hb : b.length = 2 * h)
    (hda : da.length = h) (hdb : db.length = h)
    (h0 : if c0 then val (a.take h) + val da = val (a.drop h) else val (a.drop h) + val da = val (a.take h))
    (h1 : if c1 then val (b.take h) + val db = val (b.drop h) else val (b.drop h) + val db = val (b.take h)) :
    assembleMiddle h (bnMul (a.take h) (b.take h)) (bnMul (a.drop h) (b.drop h))
      (selectBuf (maskOf (c0 ^^ c1))
        (bnAdd (bnAdd (bnMul (a.take h) (b.take h)) (bnMul (a.drop h) (b.drop h))).1 (bnMul da db)).1
        (bnSub (bnAdd (bnMul (a.take h) (b.take h)) (bnMul (a.drop h) (b.drop h))).1 (bnMul da db)).1)
      (select (maskOf (c0 ^^ c1))
        (bitWord (bnAdd (bnMul (a.take h) (b.take h)) (bnMul (a.drop h) (b.drop h))).2
          + bitWord (bnAdd (bnAdd (bnMul (a.take h) (b.take h)) (bnMul (a.drop h) (b.drop h))).1 (bnMul da db)).2)
        (bitWord (bnAdd (bnMul (a.take h) (b.take h)) (bnMul (a.drop h) (b.drop h))).2
          - bitWord (bnSub (bnAdd (bnMul (a.take h) (b.take h)) (bnMul (a.drop h) (b.drop h))).1 (bnMul da db)).2))
      = bnMul a b := by
  have hl0 : (bnMul (a.take h) (b.take h)).length = 2 * h := by simp; omega
  have hl1 : (bnMul (a.drop h) (b.drop h)).length = 2 * h := by simp; omega
  have hmid := bnAdd_spec (hl0.trans hl1.symm)
  have hmidl := bnAdd_length (hl0.trans hl1.symm)
  rw [hl0, bnMul_val, bnMul_val] at hmid
  rw [hl0] at hmidl
  have hx := cross_term h0 h1
  rw [← hmid, ← bnMul_val da db] at hx
  generalize bnAdd (bnMul (a.take h) (b.take h)) (bnMul (a.drop h) (b.drop h)) = mid at hmidl hx ⊢
  have hlpd : mid.1.length = (bnMul da db).length := by rw [hmidl, bnMul_length]; omega
  generalize bnMul da db = pd at hx hlpd ⊢
  have la := bnAdd_length hlpd
  have ls := bnSub_length hlpd
  have := middle_selected hlpd (s := c0 ^^ c1) (c2 := mid.2) (by rw [hmidl]; exact hx)
  rw [hmidl] at this
  exact assembleMiddle_eq _ ha hb rfl rfl
    (by rw [selectBuf_maskOf _ (by omega)]; split <;> omega) this

/-- `kara_mul(n, a, b) = bn_mul(a, b)` limb for limb (R135, R140), whatever the bound on the depth. -/
theorem karaMul_eq_bnMul (fuel : Nat) {a b : List Word} (h : a.length = b.length) : karaMul fuel a b = bnMul a b := by
  induction fuel generalizing a b with
  | zero => rfl
  | succ fuel ih =>
    by_cases hb : karatsubaBase a.length = true
    · simp [karaMul, hb]
    · have he := karatsuba_even (by simpa using hb)
      obtain ⟨dal, dav⟩ := signAbs_spec (x := a.take (a.length / 2)) (y := a.drop (a.length / 2)) (by simp; omega)
      obtain ⟨dbl, dbv⟩ := signAbs_spec (x := b.take (a.length / 2)) (y := b.drop (a.length / 2)) (by simp; omega)
      simp only [karaMul, hb, Bool.false_eq_true, if_false]
      rw [ih (by simp; omega), ih (by simp; omega), ih (by rw [dal, dbl]; simp; omega)]
      exact karatsuba_level he (by omega) (by rw [dal]; simp; omega) (by rw [dbl]; simp; omega) dav dbv

/-- `kara_sqr(n, a) = bn_mul(a, a)` limb for limb (R137, R140). -/
theorem karaSqr_eq_bnMul (fuel : Nat) (a : List Word) : karaSqr fuel a = bnMul a a := by
  induction fuel generalizing a with
  | zero => exact bnSqr_eq_bnMul a
  | succ fuel ih =>
    by_cases hb : karatsubaBase a.length = true
    · simp [karaSqr, hb, bnSqr_eq_bnMul]
    · have he := karatsuba_even (by simpa using hb)
      obtain ⟨dal, dav⟩ := signAbs_spec (x := a.take (a.length / 2)) (y := a.drop (a.length / 2)) (by simp; omega)
      simp only [karaSqr, hb, Bool.false_eq_true, if_false]
      rw [ih, ih, ih]
      have hda : (signAbs (a.take (a.length / 2)) (a.drop (a.length / 2))).1.length = a.length / 2 := by
        rw [dal]; simp; omega
      have hmid : (bnAdd (bnMul (a.take (a.length / 2)) (a.take (a.length / 2)))
          (bnMul (a.drop (a.length / 2)) (a.drop (a.length / 2)))).1.length
          = (bnMul (signAbs (a.take (a.length / 2)) (a.drop (a.length / 2))).1
            (signAbs (a.take (a.length / 2)) (a.drop (a.length / 2))).1).length := by
        rw [bnAdd_length (by simp; omega), bnMul_length, bnMul_length, hda]; simp; omega
      have := karatsuba_level he he hda hda dav dav
      rw [Bool.xor_self, selectBuf_maskOf _ ((bnAdd_length hmid).trans (bnSub_length hmid).symm), select_maskOf] at this
      simpa using this

end Sys2Proof.Machine
end

