-- ==== Sys2Proof/Laws/Memory.lean ====
section
/-! SUPPORT. What the memory operations do, word by word, and that each keeps the canonical form. -/

namespace Sys2Proof.Machine

/-! Reading and writing one word. -/

@[simp] theorem Memory.read_nil (a : Nat) : Memory.read [] a = none := rfl

@[simp] theorem Memory.read_cons (b : Nat) (w : Word) (m : Memory) (a : Nat) :
    Memory.read ((b, w) :: m) a = if a = b then some w else Memory.read m a := rfl

@[simp] theorem Memory.read_write_same (m : Memory) (a : Nat) (w : Word) : (m.write a w).read a = some w := by
  induction m with
  | nil => simp [Memory.write]
  | cons c m ih =>
    obtain ⟨b, v⟩ := c
    simp only [Memory.write]
    split
    · simp
    · split
      · simp
      · rw [Memory.read_cons, if_neg (by omega), ih]

@[simp] theorem Memory.read_write_other (m : Memory) {a b : Nat} (w : Word) (h : b ≠ a) :
    (m.write a w).read b = m.read b := by
  induction m with
  | nil => simp [Memory.write, h]
  | cons c m ih =>
    obtain ⟨k, v⟩ := c
    simp only [Memory.write]
    split
    · rw [Memory.read_cons, if_neg h]
    · split
      · next h1 h2 => subst h2; simp [h]
      · simp only [Memory.read_cons, ih]

theorem Memory.read_write (m : Memory) (a b : Nat) (w : Word) :
    (m.write a w).read b = if b = a then some w else m.read b := by
  split
  · next h => rw [h, Memory.read_write_same]
  · next h => exact Memory.read_write_other m w h

/-! Buffers. -/

theorem Memory.read_writeBuf (m : Memory) (base : Nat) (ws : List Word) (a : Nat) :
    (m.writeBuf base ws).read a = if base ≤ a ∧ a < base + ws.length then ws[a - base]? else m.read a := by
  induction ws generalizing m base with
  | nil => rw [if_neg (by simp)]; rfl
  | cons w ws ih =>
    rw [Memory.writeBuf, ih, Memory.read_write]
    by_cases h : a = base
    · subst h; simp
    · rw [if_neg h]
      refine if_ctx_congr (by simp; omega) (fun h' => ?_) (fun _ => rfl)
      obtain ⟨k, rfl⟩ : ∃ k, a = base + 1 + k := ⟨a - base - 1, by omega⟩
      rw [show base + 1 + k - (base + 1) = k by omega, show base + 1 + k - base = k + 1 by omega,
        List.getElem?_cons_succ]

/-- A store leaves every word outside its region alone. -/
theorem Memory.read_writeBuf_outside (m : Memory) {base : Nat} {ws : List Word} {a : Nat}
    (h : inRegion ⟨base, ws.length⟩ a = false) : (m.writeBuf base ws).read a = m.read a := by
  rw [Memory.read_writeBuf, if_neg]
  simpa [inRegion] using h

/-- What a buffer read returns: the words, all of which hold a value. -/
theorem Memory.readBuf_eq_some {m : Memory} {base n : Nat} {ws : List Word} :
    m.readBuf base n = some ws ↔ ws.length = n ∧ ∀ i, i < n → m.read (base + i) = ws[i]? := by
  induction n generalizing base ws with
  | zero => simp [Memory.readBuf, List.eq_nil_iff_length_eq_zero, eq_comm]
  | succ n ih =>
    have hshift : ∀ i, base + 1 + i = base + (i + 1) := fun i => by omega
    rw [Memory.readBuf]
    constructor
    · intro h
      cases hw : m.read base with
      | none => rw [hw] at h; simp at h
      | some w =>
        cases hs : m.readBuf (base + 1) n with
        | none => rw [hw, hs] at h; simp at h
        | some vs =>
          rw [hw, hs] at h
          obtain ⟨h1, h2⟩ := ih.mp hs
          cases h
          refine ⟨by simp [h1], fun i hi => ?_⟩
          cases i with
          | zero => simpa using hw
          | succ i => rw [← hshift, h2 i (by omega), List.getElem?_cons_succ]
    · rintro ⟨h1, h2⟩
      cases ws with
      | nil => simp at h1
      | cons w vs =>
        have hw : m.read base = some w := by simpa using h2 0 (by omega)
        have hs : m.readBuf (base + 1) n = some vs := ih.mpr ⟨by simpa using h1, fun i hi => by
          rw [hshift, h2 (i + 1) (by omega), List.getElem?_cons_succ]⟩
        rw [hw, hs]

/-- A buffer with a word that holds no value is not read. -/
theorem Memory.readBuf_of_read_none {m : Memory} {base n a : Nat} (h1 : base ≤ a) (h2 : a < base + n)
    (h : m.read a = none) : m.readBuf base n = none := by
  cases ho : m.readBuf base n with
  | none => rfl
  | some ws =>
    obtain ⟨hl, hr⟩ := Memory.readBuf_eq_some.1 ho
    have := hr (a - base) (by omega)
    rw [show base + (a - base) = a by omega, h] at this
    simp [show a - base < ws.length by omega] at this

theorem Memory.readBuf_length {m : Memory} {base n : Nat} {ws : List Word} (h : m.readBuf base n = some ws) :
    ws.length = n := (Memory.readBuf_eq_some.mp h).1

/-- The buffer just stored reads back. -/
theorem Memory.readBuf_writeBuf (m : Memory) (base : Nat) (ws : List Word) :
    (m.writeBuf base ws).readBuf base ws.length = some ws := by
  refine Memory.readBuf_eq_some.mpr ⟨rfl, fun i hi => ?_⟩
  rw [Memory.read_writeBuf, if_pos ⟨by omega, by omega⟩, Nat.add_sub_cancel_left]

/-- A buffer read depends on the words of its region only. -/
theorem Memory.readBuf_congr {m m' : Memory} {base n : Nat} (h : ∀ a, base ≤ a → a < base + n → m.read a = m'.read a) :
    m.readBuf base n = m'.readBuf base n := by
  induction n generalizing base with
  | zero => rfl
  | succ n ih => rw [Memory.readBuf, Memory.readBuf, h base (by omega) (by omega), ih fun a h1 h2 => h a (by omega) (by omega)]

theorem regionsDisjoint_iff {r q : Region} :
    regionsDisjoint r q = true ↔ r.base + r.len ≤ q.base ∨ q.base + q.len ≤ r.base := by simp [regionsDisjoint]

/-- A store leaves the buffer of a disjoint region alone. -/
theorem Memory.readBuf_writeBuf_disjoint (m : Memory) {base base' n : Nat} {ws : List Word}
    (h : regionsDisjoint ⟨base, ws.length⟩ ⟨base', n⟩ = true) :
    (m.writeBuf base ws).readBuf base' n = m.readBuf base' n := by
  rw [regionsDisjoint_iff] at h
  simp only at h
  refine Memory.readBuf_congr fun a h1 h2 => ?_
  rw [Memory.read_writeBuf, if_neg (by omega)]

/-! Words that stop holding a value. -/

theorem Memory.read_forget (m : Memory) (r : Region) (a : Nat) :
    (m.forget r).read a = if inRegion r a then none else m.read a := by
  induction m with
  | nil => simp [Memory.forget]
  | cons c m ih =>
    obtain ⟨b, w⟩ := c
    rw [Memory.forget, List.filter_cons]
    by_cases hb : inRegion r b = true
    · simp only [hb, Bool.not_true, Bool.false_eq_true, if_false]
      rw [← Memory.forget, ih, Memory.read_cons]
      by_cases hab : a = b
      · subst hab; simp [hb]
      · rw [if_neg hab]
    · simp only [hb, Bool.not_false, if_true]
      rw [Memory.read_cons, Memory.read_cons, ← Memory.forget, ih]
      by_cases hab : a = b
      · subst hab; simp [hb]
      · simp only [if_neg hab]

theorem Memory.read_forgetAll (m : Memory) (rs : List Region) (a : Nat) :
    (m.forgetAll rs).read a = if rs.any (fun r => inRegion r a) then none else m.read a := by
  induction rs generalizing m with
  | nil => simp [Memory.forgetAll]
  | cons r rs ih =>
    rw [Memory.forgetAll, List.foldl_cons, ← Memory.forgetAll, ih, Memory.read_forget, List.any_cons]
    cases inRegion r a <;> simp

/-! The canonical form. -/

theorem Memory.risingFrom_mono {lo lo' : Nat} {m : Memory} (h : lo' ≤ lo) (hm : m.risingFrom lo = true) :
    m.risingFrom lo' = true := by
  cases m with
  | nil => rfl
  | cons c m =>
    simp only [Memory.risingFrom, Bool.and_eq_true, decide_eq_true_eq] at hm ⊢
    exact ⟨by omega, hm.2⟩

theorem Memory.read_below {lo : Nat} {m : Memory} (hm : m.risingFrom lo = true) {a : Nat} (h : a < lo) :
    m.read a = none := by
  induction m generalizing lo with
  | nil => rfl
  | cons c m ih =>
    simp only [Memory.risingFrom, Bool.and_eq_true, decide_eq_true_eq] at hm
    rw [Memory.read_cons, if_neg (by omega), ih hm.2 (by omega)]

theorem Memory.risingFrom_write {lo : Nat} {m : Memory} (hm : m.risingFrom lo = true) {a : Nat} (w : Word) (h : lo ≤ a) :
    (m.write a w).risingFrom lo = true := by
  induction m generalizing lo with
  | nil => simp [Memory.write, Memory.risingFrom, h]
  | cons c m ih =>
    obtain ⟨b, v⟩ := c
    simp only [Memory.risingFrom, Bool.and_eq_true, decide_eq_true_eq] at hm
    simp only [Memory.write]
    split
    · next hab =>
      simp only [Memory.risingFrom, Bool.and_eq_true, decide_eq_true_eq]
      exact ⟨h, by omega, hm.2⟩
    · split
      · next hab => subst hab; simpa [Memory.risingFrom] using hm
      · simp only [Memory.risingFrom, Bool.and_eq_true, decide_eq_true_eq]
        exact ⟨hm.1, ih hm.2 (by omega)⟩

/-- A write keeps the canonical form. -/
theorem Memory.wf_write {m : Memory} (hm : m.wf = true) (a : Nat) (w : Word) : (m.write a w).wf = true :=
  Memory.risingFrom_write hm w (Nat.zero_le a)

/-- A store of a buffer keeps the canonical form. -/
theorem Memory.wf_writeBuf {m : Memory} (hm : m.wf = true) (base : Nat) (ws : List Word) :
    (m.writeBuf base ws).wf = true := by
  induction ws generalizing m base with
  | nil => exact hm
  | cons w ws ih => exact ih (Memory.wf_write hm base w) (base + 1)

theorem Memory.risingFrom_filter {lo : Nat} {m : Memory} (p : LCell → Bool) (hm : m.risingFrom lo = true) :
    Memory.risingFrom lo (m.filter p) = true := by
  induction m generalizing lo with
  | nil => rfl
  | cons c m ih =>
    obtain ⟨b, v⟩ := c
    simp only [Memory.risingFrom, Bool.and_eq_true, decide_eq_true_eq] at hm
    rw [List.filter_cons]
    split
    · simp only [Memory.risingFrom, Bool.and_eq_true, decide_eq_true_eq]
      exact ⟨hm.1, ih hm.2⟩
    · exact Memory.risingFrom_mono (by omega) (ih hm.2)

/-- Forgetting a region keeps the canonical form. -/
theorem Memory.wf_forget {m : Memory} (hm : m.wf = true) (r : Region) : (m.forget r).wf = true :=
  Memory.risingFrom_filter _ hm

theorem Memory.wf_forgetAll {m : Memory} (hm : m.wf = true) (rs : List Region) : (m.forgetAll rs).wf = true := by
  induction rs generalizing m with
  | nil => exact hm
  | cons r rs ih => exact ih (Memory.wf_forget hm r)

/-- The memory at reset is in canonical form. -/
theorem reset_memory_wf : State.reset.lmem.wf = true := rfl

/-- Memories in canonical form that read alike are equal. -/
theorem Memory.ext {m m' : Memory} (hm : m.wf = true) (hm' : m'.wf = true) (h : ∀ a, m.read a = m'.read a) : m = m' := by
  suffices H : ∀ lo, m.risingFrom lo = true → m'.risingFrom lo = true → m = m' from H 0 hm hm'
  clear hm hm'
  induction m generalizing m' with
  | nil =>
    intro lo _ _
    cases m' with
    | nil => rfl
    | cons c m' => obtain ⟨b, v⟩ := c; have := h b; simp at this
  | cons c m ih =>
    intro lo hm hm'
    obtain ⟨b, v⟩ := c
    cases m' with
    | nil => have := h b; simp at this
    | cons c' m' =>
      obtain ⟨b', v'⟩ := c'
      simp only [Memory.risingFrom, Bool.and_eq_true, decide_eq_true_eq] at hm hm'
      have hbb : b = b' := by
        rcases Nat.lt_trichotomy b b' with hlt | heq | hgt
        · have := h b
          rw [Memory.read_cons, if_pos rfl, Memory.read_cons, if_neg (by omega), Memory.read_below hm'.2 (by omega)] at this
          simp at this
        · exact heq
        · have := h b'
          rw [Memory.read_cons, if_neg (by omega), Memory.read_below hm.2 (by omega), Memory.read_cons, if_pos rfl] at this
          simp at this
      subst hbb
      have hv : v = v' := by have := h b; simpa using this
      subst hv
      rw [ih (m' := m') (fun a => ?_) (b + 1) hm.2 hm'.2]
      by_cases hab : a < b + 1
      · rw [Memory.read_below hm.2 hab, Memory.read_below hm'.2 hab]
      · have := h a
        rwa [Memory.read_cons, Memory.read_cons, if_neg (by omega), if_neg (by omega)] at this

/-! Addresses in range. -/

theorem Memory.bound_write {m : Memory} {k a : Nat} (w : Word) (hm : ∀ c ∈ m, c.1 < k) (ha : a < k) :
    ∀ c ∈ m.write a w, c.1 < k := by
  induction m with
  | nil => simpa [Memory.write] using ha
  | cons d m ih =>
    obtain ⟨b, v⟩ := d
    have ih := ih fun c hc => hm c (List.mem_cons_of_mem _ hc)
    have hb : b < k := hm (b, v) (by simp)
    intro c hc
    simp only [Memory.write] at hc
    split at hc
    · rcases List.mem_cons.mp hc with rfl | hc
      · exact ha
      · exact hm c hc
    · split at hc
      · rcases List.mem_cons.mp hc with rfl | hc
        · exact ha
        · exact hm c (List.mem_cons_of_mem _ hc)
      · rcases List.mem_cons.mp hc with rfl | hc
        · exact hb
        · exact ih c hc

theorem Memory.bound_writeBuf {m : Memory} {k base : Nat} {ws : List Word} (hm : ∀ c ∈ m, c.1 < k)
    (h : base + ws.length ≤ k) : ∀ c ∈ m.writeBuf base ws, c.1 < k := by
  induction ws generalizing m base with
  | nil => exact hm
  | cons w ws ih =>
    rw [List.length_cons] at h
    exact ih (Memory.bound_write w hm (by omega)) (by omega)

theorem Memory.bound_forget {m : Memory} {k : Nat} (r : Region) (hm : ∀ c ∈ m, c.1 < k) :
    ∀ c ∈ m.forget r, c.1 < k := fun c hc => hm c (List.mem_filter.mp hc).1

theorem Memory.bound_forgetAll {m : Memory} {k : Nat} (rs : List Region) (hm : ∀ c ∈ m, c.1 < k) :
    ∀ c ∈ m.forgetAll rs, c.1 < k := by
  induction rs generalizing m with
  | nil => exact hm
  | cons r rs ih => exact ih (Memory.bound_forget r hm)

end Sys2Proof.Machine
end

