-- ==== Sys2Proof/Laws/State.lean ====
section
/-! SUPPORT. One lemma per field per named update of `State`, each true by `rfl`, so that no proof unfolds a record
update. -/

namespace Sys2Proof.Machine

@[simp] theorem State.store_lmem (s : State) (base : Nat) (ws : List Word) :
    (s.store base ws).lmem = s.lmem.writeBuf base ws := rfl
@[simp] theorem State.store_cmd (s : State) (base : Nat) (ws : List Word) : (s.store base ws).cmd = s.cmd := rfl
@[simp] theorem State.store_busy (s : State) (base : Nat) (ws : List Word) : (s.store base ws).busy = s.busy := rfl
@[simp] theorem State.store_err (s : State) (base : Nat) (ws : List Word) : (s.store base ws).err = s.err := rfl
@[simp] theorem State.store_cy (s : State) (base : Nat) (ws : List Word) : (s.store base ws).cy = s.cy := rfl
@[simp] theorem State.store_ctxv (s : State) (base : Nat) (ws : List Word) : (s.store base ws).ctxv = s.ctxv := rfl
@[simp] theorem State.store_errCode (s : State) (base : Nat) (ws : List Word) :
    (s.store base ws).errCode = s.errCode := rfl
@[simp] theorem State.store_len (s : State) (base : Nat) (ws : List Word) : (s.store base ws).len = s.len := rfl
@[simp] theorem State.store_bbits (s : State) (base : Nat) (ws : List Word) : (s.store base ws).bbits = s.bbits := rfl
@[simp] theorem State.store_mask (s : State) (base : Nat) (ws : List Word) : (s.store base ws).mask = s.mask := rfl
@[simp] theorem State.store_errCmd (s : State) (base : Nat) (ws : List Word) :
    (s.store base ws).errCmd = s.errCmd := rfl
@[simp] theorem State.store_ctxN (s : State) (base : Nat) (ws : List Word) : (s.store base ws).ctxN = s.ctxN := rfl
@[simp] theorem State.store_ctxNinv (s : State) (base : Nat) (ws : List Word) :
    (s.store base ws).ctxNinv = s.ctxNinv := rfl
@[simp] theorem State.store_ctxR2 (s : State) (base : Nat) (ws : List Word) : (s.store base ws).ctxR2 = s.ctxR2 := rfl
@[simp] theorem State.store_params (s : State) (base : Nat) (ws : List Word) :
    (s.store base ws).params = s.params := rfl
@[simp] theorem State.store_ctxPoisoned (s : State) (base : Nat) (ws : List Word) :
    (s.store base ws).ctxPoisoned = s.ctxPoisoned := rfl
@[simp] theorem State.store_freeCtr (s : State) (base : Nat) (ws : List Word) :
    (s.store base ws).freeCtr = s.freeCtr := rfl
@[simp] theorem State.store_schedule (s : State) (base : Nat) (ws : List Word) :
    (s.store base ws).schedule = s.schedule := rfl
@[simp] theorem State.store_readOut (s : State) (base : Nat) (ws : List Word) :
    (s.store base ws).readOut = s.readOut := rfl
@[simp] theorem State.store_limbCount (s : State) (base : Nat) (ws : List Word) : (s.store base ws).limbCount = s.limbCount := rfl

@[simp] theorem State.forget_lmem (s : State) (r : Region) : (s.forget r).lmem = s.lmem.forget r := rfl
@[simp] theorem State.forget_cmd (s : State) (r : Region) : (s.forget r).cmd = s.cmd := rfl
@[simp] theorem State.forget_busy (s : State) (r : Region) : (s.forget r).busy = s.busy := rfl
@[simp] theorem State.forget_err (s : State) (r : Region) : (s.forget r).err = s.err := rfl
@[simp] theorem State.forget_cy (s : State) (r : Region) : (s.forget r).cy = s.cy := rfl
@[simp] theorem State.forget_ctxv (s : State) (r : Region) : (s.forget r).ctxv = s.ctxv := rfl
@[simp] theorem State.forget_errCode (s : State) (r : Region) : (s.forget r).errCode = s.errCode := rfl
@[simp] theorem State.forget_len (s : State) (r : Region) : (s.forget r).len = s.len := rfl
@[simp] theorem State.forget_bbits (s : State) (r : Region) : (s.forget r).bbits = s.bbits := rfl
@[simp] theorem State.forget_mask (s : State) (r : Region) : (s.forget r).mask = s.mask := rfl
@[simp] theorem State.forget_errCmd (s : State) (r : Region) : (s.forget r).errCmd = s.errCmd := rfl
@[simp] theorem State.forget_ctxN (s : State) (r : Region) : (s.forget r).ctxN = s.ctxN := rfl
@[simp] theorem State.forget_ctxNinv (s : State) (r : Region) : (s.forget r).ctxNinv = s.ctxNinv := rfl
@[simp] theorem State.forget_ctxR2 (s : State) (r : Region) : (s.forget r).ctxR2 = s.ctxR2 := rfl
@[simp] theorem State.forget_params (s : State) (r : Region) : (s.forget r).params = s.params := rfl
@[simp] theorem State.forget_ctxPoisoned (s : State) (r : Region) : (s.forget r).ctxPoisoned = s.ctxPoisoned := rfl
@[simp] theorem State.forget_freeCtr (s : State) (r : Region) : (s.forget r).freeCtr = s.freeCtr := rfl
@[simp] theorem State.forget_schedule (s : State) (r : Region) : (s.forget r).schedule = s.schedule := rfl
@[simp] theorem State.forget_readOut (s : State) (r : Region) : (s.forget r).readOut = s.readOut := rfl
@[simp] theorem State.forget_limbCount (s : State) (r : Region) : (s.forget r).limbCount = s.limbCount := rfl

@[simp] theorem State.complete_lmem (s : State) : (s.complete).lmem = s.lmem := rfl
@[simp] theorem State.complete_cmd (s : State) : (s.complete).cmd = s.cmd := rfl
@[simp] theorem State.complete_busy (s : State) : (s.complete).busy = false := rfl
@[simp] theorem State.complete_err (s : State) : (s.complete).err = s.err := rfl
@[simp] theorem State.complete_cy (s : State) : (s.complete).cy = s.cy := rfl
@[simp] theorem State.complete_ctxv (s : State) : (s.complete).ctxv = s.ctxv := rfl
@[simp] theorem State.complete_errCode (s : State) : (s.complete).errCode = s.errCode := rfl
@[simp] theorem State.complete_len (s : State) : (s.complete).len = s.len := rfl
@[simp] theorem State.complete_bbits (s : State) : (s.complete).bbits = s.bbits := rfl
@[simp] theorem State.complete_mask (s : State) : (s.complete).mask = s.mask := rfl
@[simp] theorem State.complete_errCmd (s : State) : (s.complete).errCmd = s.errCmd := rfl
@[simp] theorem State.complete_ctxN (s : State) : (s.complete).ctxN = s.ctxN := rfl
@[simp] theorem State.complete_ctxNinv (s : State) : (s.complete).ctxNinv = s.ctxNinv := rfl
@[simp] theorem State.complete_ctxR2 (s : State) : (s.complete).ctxR2 = s.ctxR2 := rfl
@[simp] theorem State.complete_params (s : State) : (s.complete).params = s.params := rfl
@[simp] theorem State.complete_ctxPoisoned (s : State) : (s.complete).ctxPoisoned = s.ctxPoisoned := rfl
@[simp] theorem State.complete_freeCtr (s : State) : (s.complete).freeCtr = s.freeCtr := rfl
@[simp] theorem State.complete_schedule (s : State) : (s.complete).schedule = s.schedule := rfl
@[simp] theorem State.complete_readOut (s : State) : (s.complete).readOut = s.readOut := rfl
@[simp] theorem State.complete_limbCount (s : State) : (s.complete).limbCount = s.limbCount := rfl

@[simp] theorem State.takeError_lmem (s : State) (e : IssueError) (w : Word) : (s.takeError e w).lmem = s.lmem := rfl
@[simp] theorem State.takeError_cmd (s : State) (e : IssueError) (w : Word) : (s.takeError e w).cmd = s.cmd := rfl
@[simp] theorem State.takeError_busy (s : State) (e : IssueError) (w : Word) : (s.takeError e w).busy = false := rfl
@[simp] theorem State.takeError_err (s : State) (e : IssueError) (w : Word) : (s.takeError e w).err = true := rfl
@[simp] theorem State.takeError_cy (s : State) (e : IssueError) (w : Word) : (s.takeError e w).cy = s.cy := rfl
@[simp] theorem State.takeError_ctxv (s : State) (e : IssueError) (w : Word) : (s.takeError e w).ctxv = s.ctxv := rfl
@[simp] theorem State.takeError_errCode (s : State) (e : IssueError) (w : Word) :
    (s.takeError e w).errCode = errorCode e := rfl
@[simp] theorem State.takeError_len (s : State) (e : IssueError) (w : Word) : (s.takeError e w).len = s.len := rfl
@[simp] theorem State.takeError_bbits (s : State) (e : IssueError) (w : Word) : (s.takeError e w).bbits = s.bbits := rfl
@[simp] theorem State.takeError_mask (s : State) (e : IssueError) (w : Word) : (s.takeError e w).mask = s.mask := rfl
@[simp] theorem State.takeError_errCmd (s : State) (e : IssueError) (w : Word) : (s.takeError e w).errCmd = w := rfl
@[simp] theorem State.takeError_ctxN (s : State) (e : IssueError) (w : Word) : (s.takeError e w).ctxN = s.ctxN := rfl
@[simp] theorem State.takeError_ctxNinv (s : State) (e : IssueError) (w : Word) :
    (s.takeError e w).ctxNinv = s.ctxNinv := rfl
@[simp] theorem State.takeError_ctxR2 (s : State) (e : IssueError) (w : Word) : (s.takeError e w).ctxR2 = s.ctxR2 := rfl
@[simp] theorem State.takeError_params (s : State) (e : IssueError) (w : Word) :
    (s.takeError e w).params = s.params := rfl
@[simp] theorem State.takeError_ctxPoisoned (s : State) (e : IssueError) (w : Word) :
    (s.takeError e w).ctxPoisoned = s.ctxPoisoned := rfl
@[simp] theorem State.takeError_freeCtr (s : State) (e : IssueError) (w : Word) :
    (s.takeError e w).freeCtr = s.freeCtr := rfl
@[simp] theorem State.takeError_schedule (s : State) (e : IssueError) (w : Word) :
    (s.takeError e w).schedule = s.schedule := rfl
@[simp] theorem State.takeError_readOut (s : State) (e : IssueError) (w : Word) :
    (s.takeError e w).readOut = s.readOut := rfl
@[simp] theorem State.takeError_limbCount (s : State) (e : IssueError) (w : Word) : (s.takeError e w).limbCount = s.limbCount := rfl

@[simp] theorem State.clearError_lmem (s : State) : (s.clearError).lmem = s.lmem := rfl
@[simp] theorem State.clearError_cmd (s : State) : (s.clearError).cmd = s.cmd := rfl
@[simp] theorem State.clearError_busy (s : State) : (s.clearError).busy = s.busy := rfl
@[simp] theorem State.clearError_err (s : State) : (s.clearError).err = false := rfl
@[simp] theorem State.clearError_cy (s : State) : (s.clearError).cy = s.cy := rfl
@[simp] theorem State.clearError_ctxv (s : State) : (s.clearError).ctxv = s.ctxv := rfl
@[simp] theorem State.clearError_errCode (s : State) : (s.clearError).errCode = 0#8 := rfl
@[simp] theorem State.clearError_len (s : State) : (s.clearError).len = s.len := rfl
@[simp] theorem State.clearError_bbits (s : State) : (s.clearError).bbits = s.bbits := rfl
@[simp] theorem State.clearError_mask (s : State) : (s.clearError).mask = s.mask := rfl
@[simp] theorem State.clearError_errCmd (s : State) : (s.clearError).errCmd = 0#64 := rfl
@[simp] theorem State.clearError_ctxN (s : State) : (s.clearError).ctxN = s.ctxN := rfl
@[simp] theorem State.clearError_ctxNinv (s : State) : (s.clearError).ctxNinv = s.ctxNinv := rfl
@[simp] theorem State.clearError_ctxR2 (s : State) : (s.clearError).ctxR2 = s.ctxR2 := rfl
@[simp] theorem State.clearError_params (s : State) : (s.clearError).params = s.params := rfl
@[simp] theorem State.clearError_ctxPoisoned (s : State) : (s.clearError).ctxPoisoned = s.ctxPoisoned := rfl
@[simp] theorem State.clearError_freeCtr (s : State) : (s.clearError).freeCtr = s.freeCtr := rfl
@[simp] theorem State.clearError_schedule (s : State) : (s.clearError).schedule = s.schedule := rfl
@[simp] theorem State.clearError_readOut (s : State) : (s.clearError).readOut = s.readOut := rfl
@[simp] theorem State.clearError_limbCount (s : State) : (s.clearError).limbCount = s.limbCount := rfl

@[simp] theorem State.takeReset_lmem (s : State) : (s.takeReset).lmem = [] := rfl
@[simp] theorem State.takeReset_cmd (s : State) : (s.takeReset).cmd = 0#64 := rfl
@[simp] theorem State.takeReset_busy (s : State) : (s.takeReset).busy = false := rfl
@[simp] theorem State.takeReset_err (s : State) : (s.takeReset).err = false := rfl
@[simp] theorem State.takeReset_cy (s : State) : (s.takeReset).cy = false := rfl
@[simp] theorem State.takeReset_ctxv (s : State) : (s.takeReset).ctxv = false := rfl
@[simp] theorem State.takeReset_errCode (s : State) : (s.takeReset).errCode = 0#8 := rfl
@[simp] theorem State.takeReset_len (s : State) : (s.takeReset).len = 0#64 := rfl
@[simp] theorem State.takeReset_bbits (s : State) : (s.takeReset).bbits = 0#64 := rfl
@[simp] theorem State.takeReset_mask (s : State) : (s.takeReset).mask = 0#64 := rfl
@[simp] theorem State.takeReset_errCmd (s : State) : (s.takeReset).errCmd = 0#64 := rfl
@[simp] theorem State.takeReset_ctxN (s : State) : (s.takeReset).ctxN = List.replicate s.params.lmax 0#64 := rfl
@[simp] theorem State.takeReset_ctxNinv (s : State) : (s.takeReset).ctxNinv = 0#64 := rfl
@[simp] theorem State.takeReset_ctxR2 (s : State) : (s.takeReset).ctxR2 = List.replicate s.params.lmax 0#64 := rfl
@[simp] theorem State.takeReset_params (s : State) : (s.takeReset).params = s.params := rfl
@[simp] theorem State.takeReset_ctxPoisoned (s : State) : (s.takeReset).ctxPoisoned = false := rfl
@[simp] theorem State.takeReset_freeCtr (s : State) : (s.takeReset).freeCtr = s.freeCtr := rfl
@[simp] theorem State.takeReset_schedule (s : State) : (s.takeReset).schedule = s.schedule := rfl
@[simp] theorem State.takeReset_readOut (s : State) : (s.takeReset).readOut = s.readOut := rfl
@[simp] theorem State.takeReset_limbCount (s : State) : (s.takeReset).limbCount = 0 := rfl

@[simp] theorem State.accept_lmem (s : State) (w : Word) : (s.accept w).lmem = s.lmem := rfl
@[simp] theorem State.accept_cmd (s : State) (w : Word) : (s.accept w).cmd = w := rfl
@[simp] theorem State.accept_busy (s : State) (w : Word) : (s.accept w).busy = true := rfl
@[simp] theorem State.accept_err (s : State) (w : Word) : (s.accept w).err = s.err := rfl
@[simp] theorem State.accept_cy (s : State) (w : Word) : (s.accept w).cy = s.cy := rfl
@[simp] theorem State.accept_ctxv (s : State) (w : Word) : (s.accept w).ctxv = s.ctxv := rfl
@[simp] theorem State.accept_errCode (s : State) (w : Word) : (s.accept w).errCode = s.errCode := rfl
@[simp] theorem State.accept_len (s : State) (w : Word) : (s.accept w).len = s.len := rfl
@[simp] theorem State.accept_bbits (s : State) (w : Word) : (s.accept w).bbits = s.bbits := rfl
@[simp] theorem State.accept_mask (s : State) (w : Word) : (s.accept w).mask = s.mask := rfl
@[simp] theorem State.accept_errCmd (s : State) (w : Word) : (s.accept w).errCmd = s.errCmd := rfl
@[simp] theorem State.accept_ctxN (s : State) (w : Word) : (s.accept w).ctxN = s.ctxN := rfl
@[simp] theorem State.accept_ctxNinv (s : State) (w : Word) : (s.accept w).ctxNinv = s.ctxNinv := rfl
@[simp] theorem State.accept_ctxR2 (s : State) (w : Word) : (s.accept w).ctxR2 = s.ctxR2 := rfl
@[simp] theorem State.accept_params (s : State) (w : Word) : (s.accept w).params = s.params := rfl
@[simp] theorem State.accept_ctxPoisoned (s : State) (w : Word) : (s.accept w).ctxPoisoned = s.ctxPoisoned := rfl
@[simp] theorem State.accept_freeCtr (s : State) (w : Word) : (s.accept w).freeCtr = s.freeCtr := rfl
@[simp] theorem State.accept_schedule (s : State) (w : Word) : (s.accept w).schedule = s.schedule := rfl
@[simp] theorem State.accept_readOut (s : State) (w : Word) : (s.accept w).readOut = s.readOut := rfl
@[simp] theorem State.accept_limbCount (s : State) (w : Word) : (s.accept w).limbCount = s.limbCount := rfl

@[simp] theorem State.completeUnspecified_lmem (s : State) (i : Instr) :
    (s.completeUnspecified i).lmem = s.lmem.forgetAll (writtenRegions i s.limbCount) := rfl
@[simp] theorem State.completeUnspecified_cmd (s : State) (i : Instr) : (s.completeUnspecified i).cmd = s.cmd := rfl
@[simp] theorem State.completeUnspecified_busy (s : State) (i : Instr) : (s.completeUnspecified i).busy = false := rfl
@[simp] theorem State.completeUnspecified_err (s : State) (i : Instr) : (s.completeUnspecified i).err = s.err := rfl
@[simp] theorem State.completeUnspecified_cy (s : State) (i : Instr) :
    (s.completeUnspecified i).cy = if writesCy i then Config.freeBit s.freeCtr else s.cy := rfl
@[simp] theorem State.completeUnspecified_ctxv (s : State) (i : Instr) : (s.completeUnspecified i).ctxv = s.ctxv := rfl
@[simp] theorem State.completeUnspecified_errCode (s : State) (i : Instr) :
    (s.completeUnspecified i).errCode = s.errCode := rfl
@[simp] theorem State.completeUnspecified_len (s : State) (i : Instr) : (s.completeUnspecified i).len = s.len := rfl
@[simp] theorem State.completeUnspecified_bbits (s : State) (i : Instr) :
    (s.completeUnspecified i).bbits = s.bbits := rfl
@[simp] theorem State.completeUnspecified_mask (s : State) (i : Instr) :
    (s.completeUnspecified i).mask = if writesMask i then maskOf (Config.freeBit s.freeCtr) else s.mask := rfl
@[simp] theorem State.completeUnspecified_errCmd (s : State) (i : Instr) :
    (s.completeUnspecified i).errCmd = s.errCmd := rfl
@[simp] theorem State.completeUnspecified_ctxN (s : State) (i : Instr) : (s.completeUnspecified i).ctxN = s.ctxN := rfl
@[simp] theorem State.completeUnspecified_ctxNinv (s : State) (i : Instr) :
    (s.completeUnspecified i).ctxNinv = s.ctxNinv := rfl
@[simp] theorem State.completeUnspecified_ctxR2 (s : State) (i : Instr) :
    (s.completeUnspecified i).ctxR2 = s.ctxR2 := rfl
@[simp] theorem State.completeUnspecified_params (s : State) (i : Instr) :
    (s.completeUnspecified i).params = s.params := rfl
@[simp] theorem State.completeUnspecified_ctxPoisoned (s : State) (i : Instr) :
    (s.completeUnspecified i).ctxPoisoned = s.ctxPoisoned := rfl
@[simp] theorem State.completeUnspecified_freeCtr (s : State) (i : Instr) :
    (s.completeUnspecified i).freeCtr = s.freeCtr + 1 := rfl
@[simp] theorem State.completeUnspecified_schedule (s : State) (i : Instr) :
    (s.completeUnspecified i).schedule = s.schedule := rfl
@[simp] theorem State.completeUnspecified_readOut (s : State) (i : Instr) :
    (s.completeUnspecified i).readOut = s.readOut := rfl
@[simp] theorem State.completeUnspecified_limbCount (s : State) (i : Instr) : (s.completeUnspecified i).limbCount = s.limbCount := rfl

@[simp] theorem State.skipFree_lmem (s : State) : (s.skipFree).lmem = s.lmem := rfl
@[simp] theorem State.skipFree_cmd (s : State) : (s.skipFree).cmd = s.cmd := rfl
@[simp] theorem State.skipFree_busy (s : State) : (s.skipFree).busy = s.busy := rfl
@[simp] theorem State.skipFree_err (s : State) : (s.skipFree).err = s.err := rfl
@[simp] theorem State.skipFree_cy (s : State) : (s.skipFree).cy = s.cy := rfl
@[simp] theorem State.skipFree_ctxv (s : State) : (s.skipFree).ctxv = s.ctxv := rfl
@[simp] theorem State.skipFree_errCode (s : State) : (s.skipFree).errCode = s.errCode := rfl
@[simp] theorem State.skipFree_len (s : State) : (s.skipFree).len = s.len := rfl
@[simp] theorem State.skipFree_bbits (s : State) : (s.skipFree).bbits = s.bbits := rfl
@[simp] theorem State.skipFree_mask (s : State) : (s.skipFree).mask = s.mask := rfl
@[simp] theorem State.skipFree_errCmd (s : State) : (s.skipFree).errCmd = s.errCmd := rfl
@[simp] theorem State.skipFree_ctxN (s : State) : (s.skipFree).ctxN = s.ctxN := rfl
@[simp] theorem State.skipFree_ctxNinv (s : State) : (s.skipFree).ctxNinv = s.ctxNinv := rfl
@[simp] theorem State.skipFree_ctxR2 (s : State) : (s.skipFree).ctxR2 = s.ctxR2 := rfl
@[simp] theorem State.skipFree_params (s : State) : (s.skipFree).params = s.params := rfl
@[simp] theorem State.skipFree_ctxPoisoned (s : State) : (s.skipFree).ctxPoisoned = s.ctxPoisoned := rfl
@[simp] theorem State.skipFree_freeCtr (s : State) : (s.skipFree).freeCtr = s.freeCtr + 1 := rfl
@[simp] theorem State.skipFree_schedule (s : State) : (s.skipFree).schedule = s.schedule := rfl
@[simp] theorem State.skipFree_readOut (s : State) : (s.skipFree).readOut = s.readOut := rfl
@[simp] theorem State.skipFree_limbCount (s : State) : (s.skipFree).limbCount = s.limbCount := rfl

@[simp] theorem State.answer_lmem (s : State) (v : Word) : (s.answer v).lmem = s.lmem := rfl
@[simp] theorem State.answer_cmd (s : State) (v : Word) : (s.answer v).cmd = s.cmd := rfl
@[simp] theorem State.answer_busy (s : State) (v : Word) : (s.answer v).busy = s.busy := rfl
@[simp] theorem State.answer_err (s : State) (v : Word) : (s.answer v).err = s.err := rfl
@[simp] theorem State.answer_cy (s : State) (v : Word) : (s.answer v).cy = s.cy := rfl
@[simp] theorem State.answer_ctxv (s : State) (v : Word) : (s.answer v).ctxv = s.ctxv := rfl
@[simp] theorem State.answer_errCode (s : State) (v : Word) : (s.answer v).errCode = s.errCode := rfl
@[simp] theorem State.answer_len (s : State) (v : Word) : (s.answer v).len = s.len := rfl
@[simp] theorem State.answer_bbits (s : State) (v : Word) : (s.answer v).bbits = s.bbits := rfl
@[simp] theorem State.answer_mask (s : State) (v : Word) : (s.answer v).mask = s.mask := rfl
@[simp] theorem State.answer_errCmd (s : State) (v : Word) : (s.answer v).errCmd = s.errCmd := rfl
@[simp] theorem State.answer_ctxN (s : State) (v : Word) : (s.answer v).ctxN = s.ctxN := rfl
@[simp] theorem State.answer_ctxNinv (s : State) (v : Word) : (s.answer v).ctxNinv = s.ctxNinv := rfl
@[simp] theorem State.answer_ctxR2 (s : State) (v : Word) : (s.answer v).ctxR2 = s.ctxR2 := rfl
@[simp] theorem State.answer_params (s : State) (v : Word) : (s.answer v).params = s.params := rfl
@[simp] theorem State.answer_ctxPoisoned (s : State) (v : Word) : (s.answer v).ctxPoisoned = s.ctxPoisoned := rfl
@[simp] theorem State.answer_freeCtr (s : State) (v : Word) : (s.answer v).freeCtr = s.freeCtr := rfl
@[simp] theorem State.answer_schedule (s : State) (v : Word) : (s.answer v).schedule = s.schedule := rfl
@[simp] theorem State.answer_readOut (s : State) (v : Word) : (s.answer v).readOut = some v := rfl
@[simp] theorem State.answer_limbCount (s : State) (v : Word) : (s.answer v).limbCount = s.limbCount := rfl

@[simp] theorem State.setLen_lmem (s : State) (v : Word) : (s.setLen v).lmem = s.lmem := rfl
@[simp] theorem State.setLen_cmd (s : State) (v : Word) : (s.setLen v).cmd = s.cmd := rfl
@[simp] theorem State.setLen_busy (s : State) (v : Word) : (s.setLen v).busy = s.busy := rfl
@[simp] theorem State.setLen_err (s : State) (v : Word) : (s.setLen v).err = s.err := rfl
@[simp] theorem State.setLen_cy (s : State) (v : Word) : (s.setLen v).cy = s.cy := rfl
@[simp] theorem State.setLen_ctxv (s : State) (v : Word) : (s.setLen v).ctxv = false := rfl
@[simp] theorem State.setLen_errCode (s : State) (v : Word) : (s.setLen v).errCode = s.errCode := rfl
@[simp] theorem State.setLen_len (s : State) (v : Word) : (s.setLen v).len = v := rfl
@[simp] theorem State.setLen_bbits (s : State) (v : Word) : (s.setLen v).bbits = s.bbits := rfl
@[simp] theorem State.setLen_mask (s : State) (v : Word) : (s.setLen v).mask = s.mask := rfl
@[simp] theorem State.setLen_errCmd (s : State) (v : Word) : (s.setLen v).errCmd = s.errCmd := rfl
@[simp] theorem State.setLen_ctxN (s : State) (v : Word) : (s.setLen v).ctxN = s.ctxN := rfl
@[simp] theorem State.setLen_ctxNinv (s : State) (v : Word) : (s.setLen v).ctxNinv = s.ctxNinv := rfl
@[simp] theorem State.setLen_ctxR2 (s : State) (v : Word) : (s.setLen v).ctxR2 = s.ctxR2 := rfl
@[simp] theorem State.setLen_params (s : State) (v : Word) : (s.setLen v).params = s.params := rfl
@[simp] theorem State.setLen_ctxPoisoned (s : State) (v : Word) : (s.setLen v).ctxPoisoned = s.ctxPoisoned := rfl
@[simp] theorem State.setLen_freeCtr (s : State) (v : Word) : (s.setLen v).freeCtr = s.freeCtr := rfl
@[simp] theorem State.setLen_schedule (s : State) (v : Word) : (s.setLen v).schedule = s.schedule := rfl
@[simp] theorem State.setLen_readOut (s : State) (v : Word) : (s.setLen v).readOut = s.readOut := rfl
@[simp] theorem State.setLen_limbCount (s : State) (v : Word) : (s.setLen v).limbCount = v.toNat := rfl

@[simp] theorem State.setBbits_lmem (s : State) (v : Word) : (s.setBbits v).lmem = s.lmem := rfl
@[simp] theorem State.setBbits_cmd (s : State) (v : Word) : (s.setBbits v).cmd = s.cmd := rfl
@[simp] theorem State.setBbits_busy (s : State) (v : Word) : (s.setBbits v).busy = s.busy := rfl
@[simp] theorem State.setBbits_err (s : State) (v : Word) : (s.setBbits v).err = s.err := rfl
@[simp] theorem State.setBbits_cy (s : State) (v : Word) : (s.setBbits v).cy = s.cy := rfl
@[simp] theorem State.setBbits_ctxv (s : State) (v : Word) : (s.setBbits v).ctxv = s.ctxv := rfl
@[simp] theorem State.setBbits_errCode (s : State) (v : Word) : (s.setBbits v).errCode = s.errCode := rfl
@[simp] theorem State.setBbits_len (s : State) (v : Word) : (s.setBbits v).len = s.len := rfl
@[simp] theorem State.setBbits_bbits (s : State) (v : Word) : (s.setBbits v).bbits = v := rfl
@[simp] theorem State.setBbits_mask (s : State) (v : Word) : (s.setBbits v).mask = s.mask := rfl
@[simp] theorem State.setBbits_errCmd (s : State) (v : Word) : (s.setBbits v).errCmd = s.errCmd := rfl
@[simp] theorem State.setBbits_ctxN (s : State) (v : Word) : (s.setBbits v).ctxN = s.ctxN := rfl
@[simp] theorem State.setBbits_ctxNinv (s : State) (v : Word) : (s.setBbits v).ctxNinv = s.ctxNinv := rfl
@[simp] theorem State.setBbits_ctxR2 (s : State) (v : Word) : (s.setBbits v).ctxR2 = s.ctxR2 := rfl
@[simp] theorem State.setBbits_params (s : State) (v : Word) : (s.setBbits v).params = s.params := rfl
@[simp] theorem State.setBbits_ctxPoisoned (s : State) (v : Word) : (s.setBbits v).ctxPoisoned = s.ctxPoisoned := rfl
@[simp] theorem State.setBbits_freeCtr (s : State) (v : Word) : (s.setBbits v).freeCtr = s.freeCtr := rfl
@[simp] theorem State.setBbits_schedule (s : State) (v : Word) : (s.setBbits v).schedule = s.schedule := rfl
@[simp] theorem State.setBbits_readOut (s : State) (v : Word) : (s.setBbits v).readOut = s.readOut := rfl
@[simp] theorem State.setBbits_limbCount (s : State) (v : Word) : (s.setBbits v).limbCount = s.limbCount := rfl

@[simp] theorem State.setWord_lmem (s : State) (w : Nat) (v : Word) : (s.setWord w v).lmem = s.lmem.write w v := rfl
@[simp] theorem State.setWord_cmd (s : State) (w : Nat) (v : Word) : (s.setWord w v).cmd = s.cmd := rfl
@[simp] theorem State.setWord_busy (s : State) (w : Nat) (v : Word) : (s.setWord w v).busy = s.busy := rfl
@[simp] theorem State.setWord_err (s : State) (w : Nat) (v : Word) : (s.setWord w v).err = s.err := rfl
@[simp] theorem State.setWord_cy (s : State) (w : Nat) (v : Word) : (s.setWord w v).cy = s.cy := rfl
@[simp] theorem State.setWord_ctxv (s : State) (w : Nat) (v : Word) : (s.setWord w v).ctxv = s.ctxv := rfl
@[simp] theorem State.setWord_errCode (s : State) (w : Nat) (v : Word) : (s.setWord w v).errCode = s.errCode := rfl
@[simp] theorem State.setWord_len (s : State) (w : Nat) (v : Word) : (s.setWord w v).len = s.len := rfl
@[simp] theorem State.setWord_bbits (s : State) (w : Nat) (v : Word) : (s.setWord w v).bbits = s.bbits := rfl
@[simp] theorem State.setWord_mask (s : State) (w : Nat) (v : Word) : (s.setWord w v).mask = s.mask := rfl
@[simp] theorem State.setWord_errCmd (s : State) (w : Nat) (v : Word) : (s.setWord w v).errCmd = s.errCmd := rfl
@[simp] theorem State.setWord_ctxN (s : State) (w : Nat) (v : Word) : (s.setWord w v).ctxN = s.ctxN := rfl
@[simp] theorem State.setWord_ctxNinv (s : State) (w : Nat) (v : Word) : (s.setWord w v).ctxNinv = s.ctxNinv := rfl
@[simp] theorem State.setWord_ctxR2 (s : State) (w : Nat) (v : Word) : (s.setWord w v).ctxR2 = s.ctxR2 := rfl
@[simp] theorem State.setWord_params (s : State) (w : Nat) (v : Word) : (s.setWord w v).params = s.params := rfl
@[simp] theorem State.setWord_ctxPoisoned (s : State) (w : Nat) (v : Word) :
    (s.setWord w v).ctxPoisoned = s.ctxPoisoned := rfl
@[simp] theorem State.setWord_freeCtr (s : State) (w : Nat) (v : Word) : (s.setWord w v).freeCtr = s.freeCtr := rfl
@[simp] theorem State.setWord_schedule (s : State) (w : Nat) (v : Word) : (s.setWord w v).schedule = s.schedule := rfl
@[simp] theorem State.setWord_readOut (s : State) (w : Nat) (v : Word) : (s.setWord w v).readOut = s.readOut := rfl
@[simp] theorem State.setWord_limbCount (s : State) (w : Nat) (v : Word) : (s.setWord w v).limbCount = s.limbCount := rfl

@[simp] theorem State.dropTurn_lmem (s : State) : (s.dropTurn).lmem = s.lmem := rfl
@[simp] theorem State.dropTurn_cmd (s : State) : (s.dropTurn).cmd = s.cmd := rfl
@[simp] theorem State.dropTurn_busy (s : State) : (s.dropTurn).busy = s.busy := rfl
@[simp] theorem State.dropTurn_err (s : State) : (s.dropTurn).err = s.err := rfl
@[simp] theorem State.dropTurn_cy (s : State) : (s.dropTurn).cy = s.cy := rfl
@[simp] theorem State.dropTurn_ctxv (s : State) : (s.dropTurn).ctxv = s.ctxv := rfl
@[simp] theorem State.dropTurn_errCode (s : State) : (s.dropTurn).errCode = s.errCode := rfl
@[simp] theorem State.dropTurn_len (s : State) : (s.dropTurn).len = s.len := rfl
@[simp] theorem State.dropTurn_bbits (s : State) : (s.dropTurn).bbits = s.bbits := rfl
@[simp] theorem State.dropTurn_mask (s : State) : (s.dropTurn).mask = s.mask := rfl
@[simp] theorem State.dropTurn_errCmd (s : State) : (s.dropTurn).errCmd = s.errCmd := rfl
@[simp] theorem State.dropTurn_ctxN (s : State) : (s.dropTurn).ctxN = s.ctxN := rfl
@[simp] theorem State.dropTurn_ctxNinv (s : State) : (s.dropTurn).ctxNinv = s.ctxNinv := rfl
@[simp] theorem State.dropTurn_ctxR2 (s : State) : (s.dropTurn).ctxR2 = s.ctxR2 := rfl
@[simp] theorem State.dropTurn_params (s : State) : (s.dropTurn).params = s.params := rfl
@[simp] theorem State.dropTurn_ctxPoisoned (s : State) : (s.dropTurn).ctxPoisoned = s.ctxPoisoned := rfl
@[simp] theorem State.dropTurn_freeCtr (s : State) : (s.dropTurn).freeCtr = s.freeCtr := rfl
@[simp] theorem State.dropTurn_schedule (s : State) : (s.dropTurn).schedule = s.schedule.tail := rfl
@[simp] theorem State.dropTurn_readOut (s : State) : (s.dropTurn).readOut = s.readOut := rfl
@[simp] theorem State.dropTurn_limbCount (s : State) : (s.dropTurn).limbCount = s.limbCount := rfl

@[simp] theorem State.latchWord_lmem (s : State) (w : Word) : (s.latchWord w).lmem = s.lmem := rfl
@[simp] theorem State.latchWord_cmd (s : State) (w : Word) : (s.latchWord w).cmd = w := rfl
@[simp] theorem State.latchWord_busy (s : State) (w : Word) : (s.latchWord w).busy = true := rfl
@[simp] theorem State.latchWord_err (s : State) (w : Word) : (s.latchWord w).err = s.err := rfl
@[simp] theorem State.latchWord_cy (s : State) (w : Word) : (s.latchWord w).cy = s.cy := rfl
@[simp] theorem State.latchWord_ctxv (s : State) (w : Word) : (s.latchWord w).ctxv = s.ctxv := rfl
@[simp] theorem State.latchWord_errCode (s : State) (w : Word) : (s.latchWord w).errCode = s.errCode := rfl
@[simp] theorem State.latchWord_len (s : State) (w : Word) : (s.latchWord w).len = s.len := rfl
@[simp] theorem State.latchWord_bbits (s : State) (w : Word) : (s.latchWord w).bbits = s.bbits := rfl
@[simp] theorem State.latchWord_mask (s : State) (w : Word) : (s.latchWord w).mask = s.mask := rfl
@[simp] theorem State.latchWord_errCmd (s : State) (w : Word) : (s.latchWord w).errCmd = s.errCmd := rfl
@[simp] theorem State.latchWord_ctxN (s : State) (w : Word) : (s.latchWord w).ctxN = s.ctxN := rfl
@[simp] theorem State.latchWord_ctxNinv (s : State) (w : Word) : (s.latchWord w).ctxNinv = s.ctxNinv := rfl
@[simp] theorem State.latchWord_ctxR2 (s : State) (w : Word) : (s.latchWord w).ctxR2 = s.ctxR2 := rfl
@[simp] theorem State.latchWord_params (s : State) (w : Word) : (s.latchWord w).params = s.params := rfl
@[simp] theorem State.latchWord_ctxPoisoned (s : State) (w : Word) : (s.latchWord w).ctxPoisoned = s.ctxPoisoned := rfl
@[simp] theorem State.latchWord_freeCtr (s : State) (w : Word) : (s.latchWord w).freeCtr = s.freeCtr := rfl
@[simp] theorem State.latchWord_schedule (s : State) (w : Word) :
    (s.latchWord w).schedule = .engine :: s.schedule := rfl
@[simp] theorem State.latchWord_readOut (s : State) (w : Word) : (s.latchWord w).readOut = s.readOut := rfl
@[simp] theorem State.latchWord_limbCount (s : State) (w : Word) : (s.latchWord w).limbCount = s.limbCount := rfl

@[simp] theorem State.loadContext_lmem (s : State) (n : List Word) : (s.loadContext n).lmem = s.lmem := rfl
@[simp] theorem State.loadContext_cmd (s : State) (n : List Word) : (s.loadContext n).cmd = s.cmd := rfl
@[simp] theorem State.loadContext_busy (s : State) (n : List Word) : (s.loadContext n).busy = s.busy := rfl
@[simp] theorem State.loadContext_err (s : State) (n : List Word) : (s.loadContext n).err = s.err := rfl
@[simp] theorem State.loadContext_cy (s : State) (n : List Word) : (s.loadContext n).cy = s.cy := rfl
@[simp] theorem State.loadContext_ctxv (s : State) (n : List Word) : (s.loadContext n).ctxv = true := rfl
@[simp] theorem State.loadContext_errCode (s : State) (n : List Word) : (s.loadContext n).errCode = s.errCode := rfl
@[simp] theorem State.loadContext_len (s : State) (n : List Word) : (s.loadContext n).len = s.len := rfl
@[simp] theorem State.loadContext_bbits (s : State) (n : List Word) : (s.loadContext n).bbits = s.bbits := rfl
@[simp] theorem State.loadContext_mask (s : State) (n : List Word) : (s.loadContext n).mask = s.mask := rfl
@[simp] theorem State.loadContext_errCmd (s : State) (n : List Word) : (s.loadContext n).errCmd = s.errCmd := rfl
@[simp] theorem State.loadContext_ctxN (s : State) (n : List Word) :
    (s.loadContext n).ctxN = padTo s.params.lmax n := rfl
@[simp] theorem State.loadContext_ctxNinv (s : State) (n : List Word) :
    (s.loadContext n).ctxNinv = modInvWord (n.headD 0#64) := rfl
@[simp] theorem State.loadContext_ctxR2 (s : State) (n : List Word) :
    (s.loadContext n).ctxR2 = padTo s.params.lmax (precomputeR2 n) := rfl
@[simp] theorem State.loadContext_params (s : State) (n : List Word) : (s.loadContext n).params = s.params := rfl
@[simp] theorem State.loadContext_ctxPoisoned (s : State) (n : List Word) : (s.loadContext n).ctxPoisoned = false := rfl
@[simp] theorem State.loadContext_freeCtr (s : State) (n : List Word) : (s.loadContext n).freeCtr = s.freeCtr := rfl
@[simp] theorem State.loadContext_schedule (s : State) (n : List Word) : (s.loadContext n).schedule = s.schedule := rfl
@[simp] theorem State.loadContext_readOut (s : State) (n : List Word) : (s.loadContext n).readOut = s.readOut := rfl
@[simp] theorem State.loadContext_limbCount (s : State) (n : List Word) : (s.loadContext n).limbCount = s.limbCount := rfl

@[simp] theorem State.poisonContext_lmem (s : State) (ra : Nat) : (s.poisonContext ra).lmem = s.lmem := rfl
@[simp] theorem State.poisonContext_cmd (s : State) (ra : Nat) : (s.poisonContext ra).cmd = s.cmd := rfl
@[simp] theorem State.poisonContext_busy (s : State) (ra : Nat) : (s.poisonContext ra).busy = false := rfl
@[simp] theorem State.poisonContext_err (s : State) (ra : Nat) : (s.poisonContext ra).err = s.err := rfl
@[simp] theorem State.poisonContext_cy (s : State) (ra : Nat) : (s.poisonContext ra).cy = s.cy := rfl
@[simp] theorem State.poisonContext_ctxv (s : State) (ra : Nat) : (s.poisonContext ra).ctxv = true := rfl
@[simp] theorem State.poisonContext_errCode (s : State) (ra : Nat) : (s.poisonContext ra).errCode = s.errCode := rfl
@[simp] theorem State.poisonContext_len (s : State) (ra : Nat) : (s.poisonContext ra).len = s.len := rfl
@[simp] theorem State.poisonContext_bbits (s : State) (ra : Nat) : (s.poisonContext ra).bbits = s.bbits := rfl
@[simp] theorem State.poisonContext_mask (s : State) (ra : Nat) : (s.poisonContext ra).mask = s.mask := rfl
@[simp] theorem State.poisonContext_errCmd (s : State) (ra : Nat) : (s.poisonContext ra).errCmd = s.errCmd := rfl
@[simp] theorem State.poisonContext_ctxN (s : State) (ra : Nat) : (s.poisonContext ra).ctxN =
    if s.modulusIsOne ra then padTo s.params.lmax (limbs s.limbCount 1) else freeWords s.freeCtr s.params.lmax := rfl
@[simp] theorem State.poisonContext_ctxNinv (s : State) (ra : Nat) :
    (s.poisonContext ra).ctxNinv =
      if s.modulusIsOne ra then modInvWord 1#64 else Config.freeWord (s.freeCtr + s.params.lmax) := rfl
@[simp] theorem State.poisonContext_ctxR2 (s : State) (ra : Nat) :
    (s.poisonContext ra).ctxR2 = freeWords (s.freeCtr + s.params.lmax + 1) s.params.lmax := rfl
@[simp] theorem State.poisonContext_params (s : State) (ra : Nat) : (s.poisonContext ra).params = s.params := rfl
@[simp] theorem State.poisonContext_ctxPoisoned (s : State) (ra : Nat) : (s.poisonContext ra).ctxPoisoned = true := rfl
@[simp] theorem State.poisonContext_freeCtr (s : State) (ra : Nat) :
    (s.poisonContext ra).freeCtr = s.freeCtr + 2 * s.params.lmax + 1 := rfl
@[simp] theorem State.poisonContext_schedule (s : State) (ra : Nat) : (s.poisonContext ra).schedule = s.schedule := rfl
@[simp] theorem State.poisonContext_readOut (s : State) (ra : Nat) : (s.poisonContext ra).readOut = s.readOut := rfl
@[simp] theorem State.poisonContext_limbCount (s : State) (ra : Nat) : (s.poisonContext ra).limbCount = s.limbCount := rfl

end Sys2Proof.Machine
end

