-- ==== Sys2Proof/Laws/Command.lean ====
section
/-! SUPPORT. What a command can do, said once: the outcomes of `command` and `modulusCommand`, and what every completion
leaves alone (`exec_completion`). -/

namespace Sys2Proof.Machine

/-! The frame of a meaning. -/

/-- When the completion of a command is promised. -/
theorem completionPromised_iff {i : Instr} {s : State} :
    completionPromised i s = true ↔ (needsCtx i = true → s.ctxPoisoned = false) ∧ operandsHeld i s = true := by
  cases hn : needsCtx i <;> cases hp : s.ctxPoisoned <;> simp [completionPromised, hn, hp]

/-- Every source buffer of the command is there to be read. -/
theorem operandsHeld_iff {i : Instr} {s : State} :
    operandsHeld i s = true ↔ ∀ r ∈ readRegions i s.limbCount, ∃ ws, s.operand r.base r.len = some ws := by
  simp [operandsHeld, Option.isSome_iff_exists]

/-- A source word without a value, seen from the command. -/
theorem operandsHeld_of_read_none {i : Instr} {s : State} {r : Region} {a : Nat} (hr : r ∈ readRegions i s.limbCount)
    (ha : inRegion r a = true) (hm : s.lmem.read a = none) : operandsHeld i s = false := by
  simp only [inRegion, Bool.and_eq_true, decide_eq_true_eq] at ha
  rw [operandsHeld, List.all_eq_false]
  exact ⟨r, hr, by simp [State.operand, Memory.readBuf_of_read_none ha.1 ha.2 hm]⟩

/-- What `perhaps` can leave: the completed state, or only a draw. -/
theorem perhaps_cases (s : State) (f : State → State) : s.perhaps f = f s.skipFree ∨ s.perhaps f = s.skipFree := by
  rw [State.perhaps]
  split
  · exact .inl rfl
  · exact .inr rfl

/-- A command that runs takes its own effect. -/
theorem command_runs {i : Instr} {s u : State} {effect : Nat → Option State} (h : Runs i s)
    (hp : needsCtx i = true → s.ctxPoisoned = false) (hv : operandsHeld i s = true) (he : effect s.limbCount = some u) :
    command i s effect = .next u.complete := by
  simp [command, h.issued, completionPromised_iff.2 ⟨hp, hv⟩, h.regions, he]

/-- Everything `command` can answer once the issue checks have passed. -/
theorem command_cases {i : Instr} {s t : State} {effect : Nat → Option State} (h : command i s effect = .next t)
    (hi : issueError i s = none) :
    (∃ u, Runs i s ∧ completionPromised i s = true ∧ effect s.limbCount = some u ∧ t = u.complete) ∨
    (completionPromised i s = true ∧ t = s.completeUnspecified i) ∨
    (completionPromised i s = false ∧ (t = s.skipFree.completeUnspecified i ∨ t = s.skipFree)) := by
  simp only [command, hi] at h
  by_cases hp : completionPromised i s = true
  · rw [if_pos hp] at h
    by_cases ha : aliasingPermitted i s.limbCount = true
    · rw [if_pos ha] at h
      cases he : effect s.limbCount with
      | none => rw [he] at h; simp only [Host.Outcome.next.injEq] at h; exact .inr (.inl ⟨hp, h.symm⟩)
      | some u =>
        rw [he] at h
        simp only [Host.Outcome.next.injEq] at h
        exact .inl ⟨u, ⟨hi, ha⟩, hp, rfl, h.symm⟩
    · rw [if_neg ha] at h
      simp only [Host.Outcome.next.injEq] at h
      exact .inr (.inl ⟨hp, h.symm⟩)
  · rw [if_neg hp] at h
    simp only [Host.Outcome.next.injEq] at h
    exact .inr (.inr ⟨by simpa using hp, h ▸ perhaps_cases _ _⟩)

/-- A modulus command with a legal modulus takes its own effect. -/
theorem modulusCommand_runs {i : Instr} {ra : Nat} {s : State} {illegal : State → State} {effect : List Word → State}
    {n : List Word} (h : Runs i s) (hn : s.operand ra s.limbCount = some n) (hodd : val n % 2 = 1) (h3 : 3 ≤ val n) :
    modulusCommand i ra s illegal effect = .next (effect n).complete := by
  simp [modulusCommand, h.issued, hn, modulusLegal, hodd, h3, h.regions]

/-- Everything `modulusCommand` can answer once the issue checks have passed. -/
theorem modulusCommand_cases {i : Instr} {ra : Nat} {s t : State} {illegal : State → State} {effect : List Word → State}
    (h : modulusCommand i ra s illegal effect = .next t) (hi : issueError i s = none) :
    (∃ n, s.operand ra s.limbCount = some n ∧ val n % 2 = 1 ∧ 3 ≤ val n ∧
      ((Runs i s ∧ t = (effect n).complete) ∨ (aliasingPermitted i s.limbCount = false ∧ t = s.completeUnspecified i))) ∨
    ((∀ n, s.operand ra s.limbCount = some n → ¬(val n % 2 = 1 ∧ 3 ≤ val n)) ∧
      (t = illegal s.skipFree ∨ t = s.skipFree)) := by
  have hperhaps : Host.Outcome.next (φ := Fault) (ρ := Refusal) (s.perhaps illegal) = .next t →
      t = illegal s.skipFree ∨ t = s.skipFree := by
    intro h
    simp only [Host.Outcome.next.injEq] at h
    exact h ▸ perhaps_cases _ _
  simp only [modulusCommand, hi] at h
  cases hn : s.operand ra s.limbCount with
  | none => rw [hn] at h; exact .inr ⟨nofun, hperhaps h⟩
  | some n =>
    rw [hn] at h
    simp only at h
    by_cases hl : modulusLegal n = true
    · rw [if_pos hl] at h
      simp only [modulusLegal, Bool.and_eq_true, decide_eq_true_eq] at hl
      refine .inl ⟨n, rfl, hl.1, hl.2, ?_⟩
      by_cases ha : aliasingPermitted i s.limbCount = true
      · rw [if_pos ha] at h
        simp only [Host.Outcome.next.injEq] at h
        exact .inl ⟨⟨hi, ha⟩, h.symm⟩
      · rw [if_neg ha] at h
        simp only [Host.Outcome.next.injEq] at h
        exact .inr ⟨by simpa using ha, h.symm⟩
    · rw [if_neg hl] at h
      refine .inr ⟨fun m hm => ?_, hperhaps h⟩
      cases hm
      simpa only [modulusLegal, Bool.and_eq_true, decide_eq_true_eq] using hl

/-! The issue checks. -/

/-- What an accepted command may rely on (R212). -/
theorem issueError_none {i : Instr} {s : State} (h : issueError i s = none) :
    1 ≤ s.limbCount ∧ s.limbCount ≤ s.params.lmax ∧ (readsBbits i = true → s.bbits.toNat ≤ 64 * s.limbCount) ∧
    (needsCtx i = true → s.ctxv = true) ∧ ∀ r ∈ commandRegions i s.limbCount, r.base + r.len ≤ s.params.memWords := by
  simp only [issueError] at h
  split at h
  · cases h
  · split at h
    · cases h
    · split at h
      · cases h
      · split at h
        · cases h
        · next h1 h2 h3 h4 =>
          refine ⟨by omega, by omega, fun hb => ?_, fun hc => ?_, fun r hr => ?_⟩
          · by_contra hlt; exact h2 ⟨hb, by omega⟩
          · cases hv : s.ctxv
            · exact absurd ⟨hc, hv⟩ h3
            · rfl
          · simp only [List.any_eq_true, decide_eq_true_eq, not_exists, not_and] at h4
            have := h4 r hr
            omega

/-- An issue check that fails at a decoded command is one of the checks 3 to 6 (R212). -/
theorem issueError_ne_decode {i : Instr} {s : State} {e : IssueError} (h : issueError i s = some e) :
    e ≠ .op ∧ e ≠ .rsvd := by
  simp only [issueError] at h
  split at h
  · cases h; exact ⟨by decide, by decide⟩
  · split at h
    · cases h; exact ⟨by decide, by decide⟩
    · split at h
      · cases h; exact ⟨by decide, by decide⟩
      · split at h
        · cases h; exact ⟨by decide, by decide⟩
        · cases h

theorem written_mem_commandRegions {i : Instr} {n : Nat} {r : Region} (h : r ∈ writtenRegions i n) :
    r ∈ commandRegions i n := List.mem_append_left _ h

/-! The lengths of the results. -/

theorem redcLoop_length {n : List Word} {nInv : Word} (h0 : 0 < n.length) (rest : List Word) {win : List Word} (c0 : Bool)
    (hw : win.length = n.length) :
    (redcLoop n nInv rest win c0).1.length = rest.length ∧ (redcLoop n nInv rest win c0).2.1.length = n.length := by
  induction rest generalizing win c0 with
  | nil => exact ⟨rfl, hw⟩
  | cons x xs ih =>
    have hl := macRow_length (nInv * win.headD 0#64) 0#64 hw.symm
    simp only [redcLoop]
    generalize macRow (nInv * win.headD 0#64) n win 0#64 = row at hl ⊢
    have := ih (win := row.1.tail ++ [(addc x row.2 c0).1]) (addc x row.2 c0).2 (by simp; omega)
    exact ⟨by rw [List.length_cons, List.length_cons, this.1], this.2⟩

/-- The lengths of what `reduction` returns and of what it leaves. -/
theorem reduction_length {n c : List Word} {nInv : Word} (h0 : 0 < n.length) (hc : c.length = 2 * n.length) :
    (reduction n nInv c).1.length = n.length ∧ (reduction n nInv c).2.length = 2 * n.length := by
  obtain ⟨h1, h2⟩ := redcLoop_length (nInv := nInv) h0 (c.drop n.length) (win := c.take n.length) false (by simp; omega)
  simp only [reduction]
  refine ⟨condSub_length _ h2, ?_⟩
  rw [List.length_append, h1, h2, List.length_drop]; omega

theorem doublings_length {n : List Word} (k : Nat) {acc : List Word} (h : acc.length = n.length) :
    (doublings n k acc).length = n.length := by
  induction k generalizing acc with
  | zero => exact h
  | succ k ih => exact ih (addModN_length h h)

@[simp] theorem precomputeR2_length (n : List Word) : (precomputeR2 n).length = n.length :=
  doublings_length _ (by simp)

theorem fromMont_length {n a : List Word} {nInv : Word} (h0 : 0 < n.length) (ha : a.length = n.length) :
    (fromMont n nInv a).length = n.length :=
  (reduction_length h0 (by simp; omega)).1

theorem toMont_length {n r2 a : List Word} {nInv : Word} (h0 : 0 < n.length) (ha : a.length = n.length)
    (hr : r2.length = n.length) : (toMont n nInv r2 a).length = n.length :=
  (reduction_length h0 (by rw [bnMul_length]; omega)).1

theorem montMul_length {n a b : List Word} {nInv : Word} (h0 : 0 < n.length) (ha : a.length = n.length)
    (hb : b.length = n.length) : (montMul n nInv a b).length = n.length :=
  (reduction_length h0 (by rw [bnMul_length]; omega)).1

theorem montSqr_length {n a : List Word} {nInv : Word} (h0 : 0 < n.length) (ha : a.length = n.length) :
    (montSqr n nInv a).length = n.length :=
  (reduction_length h0 (by rw [bnSqr_length]; omega)).1

theorem powerLoop_length {n : List Word} {nInv : Word} (h0 : 0 < n.length) (b : List Word) (k i : Nat)
    {x y : List Word} (hx : x.length = n.length) (hy : y.length = n.length) :
    (powerLoop n nInv b k i x y).length = n.length := by
  induction k generalizing i x y with
  | zero => exact hx
  | succ k ih =>
    refine ih (i + 1) ?_ (montSqr_length h0 hy)
    split
    · exact montMul_length h0 hx hy
    · exact hx

theorem ladderLoop_length {n : List Word} {nInv : Word} (h0 : 0 < n.length) (b : List Word) (i : Nat) (prev : Bool)
    {x y : List Word} (hx : x.length = n.length) (hy : y.length = n.length) :
    (ladderLoop n nInv b i prev x y).length = n.length := by
  induction i generalizing prev x y with
  | zero =>
    rw [ladderLoop, cswap_spec _ (hx.trans hy.symm)]
    cases prev
    · exact hx
    · exact hy
  | succ i ih =>
    rw [ladderLoop, cswap_spec _ (hx.trans hy.symm)]
    cases (bitAt b i ^^ prev)
    · exact ih _ (montSqr_length h0 hx) (montMul_length h0 hy hx)
    · exact ih _ (montSqr_length h0 hy) (montMul_length h0 hx hy)

theorem modExp_length {n r2 a : List Word} {nInv : Word} (h0 : 0 < n.length) (ha : a.length = n.length)
    (hr : r2.length = n.length) (b : List Word) (k : Nat) : (modExp n nInv r2 a b k).length = n.length :=
  fromMont_length h0 (powerLoop_length h0 b k 0 (toMont_length h0 (limbs_length _ _) hr) (toMont_length h0 ha hr))

theorem modExpLadder_length {n r2 a : List Word} {nInv : Word} (h0 : 0 < n.length) (ha : a.length = n.length)
    (hr : r2.length = n.length) (b : List Word) (k : Nat) : (modExpLadder n nInv r2 a b k).length = n.length :=
  fromMont_length h0 (ladderLoop_length h0 b k false (toMont_length h0 (limbs_length _ _) hr) (toMont_length h0 ha hr))

/-! What a completion leaves alone. -/

theorem maskOf_cases (c : Bool) : maskOf c = 0#64 ∨ maskOf c = BitVec.allOnes 64 := by
  cases c
  · exact .inl maskOf_false
  · exact .inr maskOf_true

/-- The context register files have their `LMAX` limbs (R30, R32). -/
def ContextFiles (s : State) : Prop := s.ctxN.length = s.params.lmax ∧ s.ctxR2.length = s.params.lmax

/-- What every completion of a command keeps, whatever its operands hold. -/
structure Completion (i : Instr) (s t : State) : Prop where
  host     : SameHostSide s t
  context  : (∀ ra, i ≠ .ctxload ra) → SameContext s t
  busy     : t.busy = true → s.busy = true
  cy       : writesCy i = false → t.cy = s.cy
  mask     : writesMask i = false → t.mask = s.mask
  verdict  : t.mask = s.mask ∨ t.mask = 0#64 ∨ t.mask = BitVec.allOnes 64
  outside  : (needsCtx i = true → ContextFiles s) → SameLmemOutside (writtenRegions i s.limbCount) s t
  memory   : s.lmem.wf = true → t.lmem.wf = true
  memBound : (needsCtx i = true → ContextFiles s) → (∀ r ∈ writtenRegions i s.limbCount, r.base + r.len ≤ s.params.memWords) →
               (∀ c ∈ s.lmem, c.1 < s.params.memWords) → ∀ c ∈ t.lmem, c.1 < s.params.memWords

theorem SameHostSide.rfl (s : State) : SameHostSide s s := ⟨Eq.refl _, Eq.refl _, Eq.refl _, Eq.refl _, Eq.refl _, Eq.refl _, Eq.refl _, Eq.refl _, Eq.refl _⟩

theorem SameContext.rfl (s : State) : SameContext s s := ⟨Eq.refl _, Eq.refl _, Eq.refl _, Eq.refl _, Eq.refl _⟩

/-- Nothing happens but a draw of free values. -/
theorem Completion.skipFree (i : Instr) (s : State) : Completion i s s.skipFree where
  host     := ⟨rfl, rfl, rfl, rfl, rfl, rfl, rfl, rfl, rfl⟩
  context  := fun _ => ⟨rfl, rfl, rfl, rfl, rfl⟩
  busy     := id
  cy       := fun _ => rfl
  mask     := fun _ => rfl
  verdict  := .inl rfl
  outside  := fun _ _ _ => rfl
  memory   := id
  memBound := fun _ _ h => h

theorem Completion.unspecified (i : Instr) (s : State) : Completion i s (s.completeUnspecified i) where
  host     := ⟨rfl, rfl, rfl, rfl, rfl, rfl, rfl, rfl, rfl⟩
  context  := fun _ => ⟨rfl, rfl, rfl, rfl, rfl⟩
  busy     := fun h => by cases h
  cy       := fun h => by simp [h]
  mask     := fun h => by simp [h]
  verdict  := by
    rw [State.completeUnspecified_mask]
    split
    · exact .inr (maskOf_cases _)
    · exact .inl rfl
  outside  := fun _ a h => by
    rw [State.completeUnspecified_lmem, Memory.read_forgetAll, if_neg]
    simpa using h
  memory   := fun h => Memory.wf_forgetAll h _
  memBound := fun _ _ h => Memory.bound_forgetAll _ h

/-- Drawing a free value first changes nothing a completion keeps. -/
theorem Completion.of_skipFree {i : Instr} {s t : State} (h : Completion i s.skipFree t) : Completion i s t :=
  ⟨⟨h.host.cmd, h.host.err, h.host.errCode, h.host.errCmd, h.host.len, h.host.bbits, h.host.params, h.host.schedule,
    h.host.readOut⟩, fun hc => ⟨(h.context hc).ctxv, (h.context hc).ctxN, (h.context hc).ctxNinv, (h.context hc).ctxR2,
    (h.context hc).ctxPoisoned⟩, h.busy, h.cy, h.mask, h.verdict, h.outside, h.memory, h.memBound⟩

theorem Completion.complete {i : Instr} {s u : State} (h : Completion i s u) : Completion i s u.complete :=
  ⟨⟨h.host.cmd, h.host.err, h.host.errCode, h.host.errCmd, h.host.len, h.host.bbits, h.host.params, h.host.schedule,
    h.host.readOut⟩, fun hc => ⟨(h.context hc).ctxv, (h.context hc).ctxN, (h.context hc).ctxNinv, (h.context hc).ctxR2,
    (h.context hc).ctxPoisoned⟩, fun hb => by simp at hb, h.cy, h.mask, h.verdict, h.outside, h.memory, h.memBound⟩

/-- Storing a buffer that fills a written region. -/
theorem Completion.store {i : Instr} {s : State} {rd k : Nat} {ws : List Word}
    (hr : ⟨rd, k⟩ ∈ writtenRegions i s.limbCount) (hl : (needsCtx i = true → ContextFiles s) → ws.length = k) :
    Completion i s (s.store rd ws) where
  host     := ⟨rfl, rfl, rfl, rfl, rfl, rfl, rfl, rfl, rfl⟩
  context  := fun _ => ⟨rfl, rfl, rfl, rfl, rfl⟩
  busy     := id
  cy       := fun _ => rfl
  mask     := fun _ => rfl
  verdict  := .inl rfl
  outside  := fun hf _ h => Memory.read_writeBuf_outside _ (hl hf ▸ h _ hr)
  memory   := fun h => Memory.wf_writeBuf h _ _
  memBound := fun hf hb h => Memory.bound_writeBuf h (hl hf ▸ hb _ hr)

/-- A second store, of another written region. -/
theorem Completion.then_store {i : Instr} {s u : State} {rd k : Nat} {ws : List Word} (h : Completion i s u)
    (hr : ⟨rd, k⟩ ∈ writtenRegions i s.limbCount) (hl : (needsCtx i = true → ContextFiles s) → ws.length = k) :
    Completion i s (u.store rd ws) where
  host     := ⟨h.host.cmd, h.host.err, h.host.errCode, h.host.errCmd, h.host.len, h.host.bbits, h.host.params,
                h.host.schedule, h.host.readOut⟩
  context  := fun hc => ⟨(h.context hc).ctxv, (h.context hc).ctxN, (h.context hc).ctxNinv, (h.context hc).ctxR2,
                (h.context hc).ctxPoisoned⟩
  busy     := h.busy
  cy       := h.cy
  mask     := h.mask
  verdict  := h.verdict
  outside  := fun hf a ha => (Memory.read_writeBuf_outside _ (hl hf ▸ ha _ hr)).trans (h.outside hf a ha)
  memory   := fun hw => Memory.wf_writeBuf (h.memory hw) _ _
  memBound := fun hf hb hw => Memory.bound_writeBuf (h.memBound hf hb hw) (hl hf ▸ hb _ hr)

/-- Forgetting a written region. -/
theorem Completion.then_forget {i : Instr} {s u : State} {r : Region} (h : Completion i s u)
    (hr : r ∈ writtenRegions i s.limbCount) : Completion i s (u.forget r) where
  host     := ⟨h.host.cmd, h.host.err, h.host.errCode, h.host.errCmd, h.host.len, h.host.bbits, h.host.params,
                h.host.schedule, h.host.readOut⟩
  context  := fun hc => ⟨(h.context hc).ctxv, (h.context hc).ctxN, (h.context hc).ctxNinv, (h.context hc).ctxR2,
                (h.context hc).ctxPoisoned⟩
  busy     := h.busy
  cy       := h.cy
  mask     := h.mask
  verdict  := h.verdict
  outside  := fun hf a ha => by
    rw [State.forget_lmem, Memory.read_forget, ha r hr]
    exact h.outside hf a ha
  memory   := fun hw => Memory.wf_forget (h.memory hw) _
  memBound := fun hf hb hw => Memory.bound_forget _ (h.memBound hf hb hw)

/-- `ADD` and `SUB` also write `CY`. -/
theorem Completion.with_cy {i : Instr} {s u : State} (h : Completion i s u) (c : Bool) (hc : writesCy i = true) :
    Completion i s { u with cy := c } :=
  ⟨⟨h.host.cmd, h.host.err, h.host.errCode, h.host.errCmd, h.host.len, h.host.bbits, h.host.params, h.host.schedule,
    h.host.readOut⟩, fun hc => ⟨(h.context hc).ctxv, (h.context hc).ctxN, (h.context hc).ctxNinv, (h.context hc).ctxR2,
    (h.context hc).ctxPoisoned⟩, h.busy, fun hw => absurd (hc.symm.trans hw) (by decide), h.mask, h.verdict, h.outside, h.memory,
    h.memBound⟩

/-- A command whose own effect is a completion always completes so. -/
theorem command_completion {i : Instr} {s t : State} {effect : Nat → Option State}
    (h : command i s effect = .next t) (hi : issueError i s = none)
    (he : ∀ u, effect s.limbCount = some u → Completion i s u) : Completion i s t := by
  obtain ⟨u, -, -, hu, rfl⟩ | ⟨-, rfl⟩ | ⟨-, rfl | rfl⟩ := command_cases h hi
  · exact (he u hu).complete
  · exact Completion.unspecified i s
  · exact (Completion.unspecified i _).of_skipFree
  · exact Completion.skipFree i s

/-! The context registers. -/

theorem modulus_length {s : State} (hn : s.ctxN.length = s.params.lmax) {n : Nat} (h : n ≤ s.params.lmax) :
    (s.modulus n).length = n := by simp [State.modulus]; omega

theorem rSquared_length {s : State} (hn : s.ctxR2.length = s.params.lmax) {n : Nat} (h : n ≤ s.params.lmax) :
    (s.rSquared n).length = n := by simp [State.rSquared]; omega

theorem operand_length {s : State} {base n : Nat} {a : List Word} (h : s.operand base n = some a) : a.length = n :=
  Memory.readBuf_length h

theorem padTo_take {lmax : Nat} {ws : List Word} : (padTo lmax ws).take ws.length = ws := by simp [padTo]

theorem padTo_drop {lmax : Nat} {ws : List Word} :
    (padTo lmax ws).drop ws.length = List.replicate (lmax - ws.length) 0#64 := by simp [padTo]

theorem padTo_length {lmax : Nat} {ws : List Word} (h : ws.length ≤ lmax) : (padTo lmax ws).length = lmax := by
  simp [padTo]; omega

/-- The context register files of a poisoned context have their `LMAX` limbs. -/
theorem poisonContext_files {s : State} (h : s.limbCount ≤ s.params.lmax) (ra : Nat) :
    (s.poisonContext ra).ctxN.length = s.params.lmax ∧ (s.poisonContext ra).ctxR2.length = s.params.lmax := by
  refine ⟨?_, by simp [freeWords]⟩
  rw [State.poisonContext_ctxN]
  split
  · exact padTo_length (by rwa [limbs_length])
  · simp [freeWords]

/-- What a poisoned context of the modulus 1 holds (R161, R166). -/
theorem poisonContext_one {s : State} {ra : Nat} {n : List Word} (ho : s.operand ra s.limbCount = some n)
    (h : val n = 1) : (s.poisonContext ra).ctxN = padTo s.params.lmax n ∧
      (s.poisonContext ra).ctxNinv = 0xFFFFFFFFFFFFFFFF#64 := by
  have hn : n = limbs s.limbCount 1 := eq_limbs (Memory.readBuf_length ho) h
  have : s.modulusIsOne ra = true := by rw [State.modulusIsOne, ho, hn]; simp
  rw [State.poisonContext_ctxN, State.poisonContext_ctxNinv, if_pos this, if_pos this, hn]
  exact ⟨rfl, by decide⟩

theorem head_odd {n : List Word} (h : val n % 2 = 1) : (n.headD 0#64).toNat % 2 = 1 := by
  cases n with
  | nil => simp at h
  | cons x xs => simp only [val_cons, List.headD_cons] at h ⊢; omega

/-- What `CTXLOAD` builds from a legal modulus is a context (R161, R163, R166). -/
theorem contextFor_built {n : List Word} (hodd : val n % 2 = 1) (h3 : 3 ≤ val n) :
    ContextFor n (modInvWord (n.headD 0#64)) (precomputeR2 n) :=
  ⟨hodd, h3, modInvWord_spec (head_odd hodd), precomputeR2_length n, by
    have hlt : 2 ^ (128 * n.length) % val n < val n := Nat.mod_lt _ (by omega)
    rw [precomputeR2_spec hodd h3, val_limbs_of_lt (hlt.trans (val_lt n))]⟩

/-- What the completion of every command keeps, once its issue checks have passed. -/
theorem exec_completion {i : Instr} {s t : State} (h : exec i s = .next t) (hi : issueError i s = none) :
    Completion i s t := by
  obtain ⟨h1, hL, -, -, -⟩ := issueError_none hi
  have hctx : ContextFiles s → (s.modulus s.limbCount).length = s.limbCount ∧
      (s.rSquared s.limbCount).length = s.limbCount ∧ 0 < (s.modulus s.limbCount).length := fun hf => by
    have := modulus_length hf.1 hL
    exact ⟨this, rSquared_length hf.2 hL, by omega⟩
  cases i with
  | add rd ra rb =>
    simp only [exec, execAdd] at h
    refine command_completion h hi fun u hu => ?_
    split at hu
    · next a b ha hb =>
      cases hu
      refine Completion.with_cy (Completion.store (k := s.limbCount) (by simp [writtenRegions]) fun _ => ?_) _ rfl
      rw [bnAdd_length ((operand_length ha).trans (operand_length hb).symm), operand_length ha]
    · cases hu
  | sub rd ra rb =>
    simp only [exec, execSub] at h
    refine command_completion h hi fun u hu => ?_
    split at hu
    · next a b ha hb =>
      cases hu
      refine Completion.with_cy (Completion.store (k := s.limbCount) (by simp [writtenRegions]) fun _ => ?_) _ rfl
      rw [bnSub_length ((operand_length ha).trans (operand_length hb).symm), operand_length ha]
    · cases hu
  | addmodn rd ra rb rc =>
    simp only [exec, execAddmodn] at h
    refine command_completion h hi fun u hu => ?_
    split at hu
    · next a b m ha hb hm =>
      split at hu
      · cases hu
        refine Completion.store (k := s.limbCount) (by simp [writtenRegions]) fun hf => ?_
        rw [addModN_length ((operand_length ha).trans (operand_length hm).symm)
          ((operand_length hb).trans (operand_length hm).symm), operand_length hm]
      · cases hu
    · cases hu
  | ltmask ra rb =>
    simp only [exec, execLtmask] at h
    refine command_completion h hi fun u hu => ?_
    split at hu
    · next a b ha hb =>
      cases hu
      have hv := ltScan_spec false ((operand_length ha).trans (operand_length hb).symm)
      refine ⟨⟨rfl, rfl, rfl, rfl, rfl, rfl, rfl, rfl, rfl⟩, fun _ => ⟨rfl, rfl, rfl, rfl, rfl⟩, id, fun _ => rfl,
        fun hc => (by cases hc), .inr ?_, fun _ _ _ => rfl, id, fun _ _ hb => hb⟩
      rw [maskOf_false] at hv
      simp only [ltMaskBuf, hv]
      exact maskOf_cases _
    · cases hu
  | mul rd ra rb =>
    simp only [exec, execMul] at h
    refine command_completion h hi fun u hu => ?_
    split at hu
    · next a b ha hb =>
      cases hu
      refine Completion.store (k := 2 * s.limbCount) (by simp [writtenRegions]) fun hf => ?_
      rw [bnMul_length, operand_length ha, operand_length hb]; ring
    · cases hu
  | sqr rd ra =>
    simp only [exec, execSqr] at h
    refine command_completion h hi fun u hu => ?_
    split at hu
    · next a ha =>
      cases hu
      refine Completion.store (k := 2 * s.limbCount) (by simp [writtenRegions]) fun hf => ?_
      rw [bnSqr_length, operand_length ha]; ring
    · cases hu
  | kmul rd ra rb rc =>
    simp only [exec, execKmul] at h
    refine command_completion h hi fun u hu => ?_
    split at hu
    · next a b ha hb =>
      cases hu
      refine Completion.then_forget (Completion.store (k := 2 * s.limbCount) (by simp [writtenRegions]) fun _ => ?_)
        (by simp [writtenRegions])
      rw [karaMul_eq_bnMul _ ((operand_length ha).trans (operand_length hb).symm), bnMul_length, operand_length ha,
        operand_length hb]; ring
    · cases hu
  | ksqr rd ra rc =>
    simp only [exec, execKsqr] at h
    refine command_completion h hi fun u hu => ?_
    split at hu
    · next a ha =>
      cases hu
      refine Completion.then_forget (Completion.store (k := 2 * s.limbCount) (by simp [writtenRegions]) fun _ => ?_)
        (by simp [writtenRegions])
      rw [karaSqr_eq_bnMul, bnMul_length, operand_length ha]; ring
    · cases hu
  | precompr2 rd ra =>
    simp only [exec, execPrecompr2] at h
    obtain ⟨n, ho, -, -, ⟨-, rfl⟩ | ⟨-, rfl⟩⟩ | ⟨-, rfl | rfl⟩ := modulusCommand_cases h hi
    · refine Completion.complete (Completion.store (k := s.limbCount) (by simp [writtenRegions]) fun _ => ?_)
      rw [precomputeR2_length, operand_length ho]
    · exact Completion.unspecified _ s
    · exact (Completion.unspecified _ _).of_skipFree
    · exact Completion.skipFree _ _
  | ctxload ra =>
    simp only [exec, execCtxload] at h
    obtain ⟨n, -, -, -, ⟨-, rfl⟩ | ⟨-, rfl⟩⟩ | ⟨-, rfl | rfl⟩ := modulusCommand_cases h hi
    · exact ⟨⟨rfl, rfl, rfl, rfl, rfl, rfl, rfl, rfl, rfl⟩, fun hc => absurd rfl (hc ra), fun hb => by simp at hb,
        fun _ => rfl, fun _ => rfl, .inl rfl, fun _ _ _ => rfl, id, fun _ _ hb => hb⟩
    · exact Completion.unspecified _ s
    · exact ⟨⟨rfl, rfl, rfl, rfl, rfl, rfl, rfl, rfl, rfl⟩, fun hc => absurd rfl (hc ra), fun hb => by simp at hb,
        fun _ => rfl, fun _ => rfl, .inl rfl, fun _ _ _ => rfl, id, fun _ _ hb => hb⟩
    · exact Completion.skipFree _ _
  | redc rd ra =>
    simp only [exec, execRedc] at h
    refine command_completion h hi fun u hu => ?_
    split at hu
    · next c hc =>
      split at hu
      · cases hu
        have hl : (needsCtx (.redc rd ra) = true → ContextFiles s) → _ := fun hf => by
          obtain ⟨hn, -, h0⟩ := hctx (hf rfl)
          have := reduction_length (nInv := s.ctxNinv) h0 (by rw [operand_length hc, hn])
          rwa [hn] at this
        exact Completion.then_store (k := s.limbCount)
          (Completion.store (k := 2 * s.limbCount) (by simp [writtenRegions]) fun hf => (hl hf).2)
          (by simp [writtenRegions]) fun hf => (hl hf).1
      · cases hu
    · cases hu
  | tomont rd ra =>
    simp only [exec, execTomont] at h
    refine command_completion h hi fun u hu => ?_
    split at hu
    · next a ha =>
      cases hu
      refine Completion.store (k := s.limbCount) (by simp [writtenRegions]) fun hf => ?_
      obtain ⟨hn, hr, h0⟩ := hctx (hf rfl)
      rw [toMont_length h0 (by rw [operand_length ha, hn]) (by rw [hr, hn]), hn]
    · cases hu
  | frommont rd ra =>
    simp only [exec, execFrommont] at h
    refine command_completion h hi fun u hu => ?_
    split at hu
    · next a ha =>
      cases hu
      refine Completion.store (k := s.limbCount) (by simp [writtenRegions]) fun hf => ?_
      obtain ⟨hn, hr, h0⟩ := hctx (hf rfl)
      rw [fromMont_length h0 (by rw [operand_length ha, hn]), hn]
    · cases hu
  | montmul rd ra rb =>
    simp only [exec, execMontmul] at h
    refine command_completion h hi fun u hu => ?_
    split at hu
    · next a b ha hb =>
      split at hu
      · cases hu
        refine Completion.store (k := s.limbCount) (by simp [writtenRegions]) fun hf => ?_
        obtain ⟨hn, hr, h0⟩ := hctx (hf rfl)
        rw [montMul_length h0 (by rw [operand_length ha, hn]) (by rw [operand_length hb, hn]), hn]
      · cases hu
    · cases hu
  | montsqr rd ra =>
    simp only [exec, execMontsqr] at h
    refine command_completion h hi fun u hu => ?_
    split at hu
    · next a ha =>
      split at hu
      · cases hu
        refine Completion.store (k := s.limbCount) (by simp [writtenRegions]) fun hf => ?_
        obtain ⟨hn, hr, h0⟩ := hctx (hf rfl)
        rw [montSqr_length h0 (by rw [operand_length ha, hn]), hn]
      · cases hu
    · cases hu
  | modexp rd ra rb =>
    simp only [exec, execModexp] at h
    refine command_completion h hi fun u hu => ?_
    split at hu
    · next a b ha hb =>
      cases hu
      refine Completion.store (k := s.limbCount) (by simp [writtenRegions]) fun hf => ?_
      obtain ⟨hn, hr, h0⟩ := hctx (hf rfl)
      rw [modExp_length h0 (by rw [operand_length ha, hn]) (by rw [hr, hn]), hn]
    · cases hu
  | modexpl rd ra rb =>
    simp only [exec, execModexpl] at h
    refine command_completion h hi fun u hu => ?_
    split at hu
    · next a b ha hb =>
      cases hu
      refine Completion.store (k := s.limbCount) (by simp [writtenRegions]) fun hf => ?_
      obtain ⟨hn, hr, h0⟩ := hctx (hf rfl)
      rw [modExpLadder_length h0 (by rw [operand_length ha, hn]) (by rw [hr, hn]), hn]
    · cases hu

/-! Every command answers a next state. -/

theorem command_total (i : Instr) (s : State) (effect : Nat → Option State) : ∃ t, command i s effect = .next t := by
  simp only [command]
  split
  · exact ⟨_, rfl⟩
  · split
    · split
      · split <;> exact ⟨_, rfl⟩
      · exact ⟨_, rfl⟩
    · exact ⟨_, rfl⟩

theorem modulusCommand_total (i : Instr) (ra : Nat) (s : State) (illegal : State → State) (effect : List Word → State) :
    ∃ t, modulusCommand i ra s illegal effect = .next t := by
  simp only [modulusCommand]
  split
  · exact ⟨_, rfl⟩
  · split
    · exact ⟨_, rfl⟩
    · split
      · split <;> exact ⟨_, rfl⟩
      · exact ⟨_, rfl⟩

/-- No command is refused and none stops the machine. -/
theorem exec_total (i : Instr) (s : State) : ∃ t, exec i s = .next t := by
  cases i <;> simp only [exec, execAdd, execSub, execAddmodn, execLtmask, execMul, execSqr, execKmul, execKsqr, execPrecompr2, execCtxload, execRedc, execTomont, execFrommont, execMontmul, execMontsqr, execModexp, execModexpl] <;>
    first | exact command_total _ _ _ | exact modulusCommand_total _ _ _ _ _

/-- A command that fails an issue check takes the error, whatever it is. -/
theorem exec_of_issueError {i : Instr} {s : State} {e : IssueError} (h : issueError i s = some e) :
    exec i s = .next (s.takeError e (encode i)) := by
  cases i <;> simp only [exec, execAdd, execSub, execAddmodn, execLtmask, execMul, execSqr, execKmul, execKsqr, execPrecompr2, execCtxload, execRedc, execTomont, execFrommont, execMontmul, execMontsqr, execModexp, execModexpl, command, modulusCommand, h]

/-- What `CTXLOAD` does to the context registers (R166, U1). -/
theorem ctxload_cases {ra : Nat} {s t : State} (h : exec (.ctxload ra) s = .next t)
    (hi : issueError (.ctxload ra) s = none) :
    (∃ n, s.operand ra s.limbCount = some n ∧ val n % 2 = 1 ∧ 3 ≤ val n ∧ t = (s.loadContext n).complete) ∨
    ((∀ n, s.operand ra s.limbCount = some n → ¬(val n % 2 = 1 ∧ 3 ≤ val n)) ∧
      (t = s.skipFree.poisonContext ra ∨ t = s.skipFree)) := by
  simp only [exec, execCtxload] at h
  obtain ⟨n, ho, h1, h3, ⟨-, rfl⟩ | ⟨ha, -⟩⟩ | h := modulusCommand_cases h hi
  · exact .inl ⟨n, ho, h1, h3, rfl⟩
  · simp [aliasingPermitted] at ha
  · exact .inr h

/-- What `PRECOMPR2` of an illegal or unreadable modulus does (U1, U6, U7). -/
theorem precompr2_illegal {rd ra : Nat} {s t : State} (h : exec (.precompr2 rd ra) s = .next t)
    (hi : issueError (.precompr2 rd ra) s = none)
    (hn : ∀ n, s.operand ra s.limbCount = some n → ¬(val n % 2 = 1 ∧ 3 ≤ val n)) :
    t = s.skipFree.completeUnspecified (.precompr2 rd ra) ∨ t = s.skipFree := by
  simp only [exec, execPrecompr2] at h
  obtain ⟨n, ho, h1, h3, -⟩ | ⟨-, h⟩ := modulusCommand_cases h hi
  · exact absurd ⟨h1, h3⟩ (hn n ho)
  · exact h

/-- A command whose completion is not promised completes with everything it writes unspecified, or not yet (U1, U7). -/
theorem exec_not_promised {i : Instr} {s t : State} (hc : ∀ ra, i ≠ .ctxload ra) (hi : issueError i s = none)
    (hp : completionPromised i s = false) (h : exec i s = .next t) :
    t = s.skipFree.completeUnspecified i ∨ t = s.skipFree := by
  have hcmd : ∀ {f}, command i s f = .next t → t = s.skipFree.completeUnspecified i ∨ t = s.skipFree := fun hf => by
    obtain ⟨_, -, h1, -⟩ | ⟨h1, -⟩ | ⟨-, h1⟩ := command_cases hf hi
    · rw [hp] at h1; cases h1
    · rw [hp] at h1; cases h1
    · exact h1
  cases i
  case ctxload ra => exact absurd rfl (hc ra)
  case precompr2 rd ra =>
    refine precompr2_illegal h hi fun n ho => ?_
    simp [completionPromised, needsCtx, operandsHeld, readRegions, ho] at hp
  all_goals
    simp only [exec, execAdd, execSub, execAddmodn, execLtmask, execMul, execSqr, execKmul, execKsqr, execRedc, execTomont, execFrommont, execMontmul, execMontsqr, execModexp, execModexpl] at h
    exact hcmd h

/-- What `LTMASK` does to `MASK` (R28, R114): the verdict, of the operands or of a free bit, once it has completed. -/
theorem ltmask_cases {ra rb : Nat} {s t : State} (h : exec (.ltmask ra rb) s = .next t)
    (hi : issueError (.ltmask ra rb) s = none) :
    (t.busy = false ∧ (t.mask = 0#64 ∨ t.mask = BitVec.allOnes 64)) ∨
    (operandsHeld (.ltmask ra rb) s = false ∧ t = s.skipFree) := by
  simp only [exec, execLtmask] at h
  obtain ⟨u, -, -, hu, rfl⟩ | ⟨-, rfl⟩ | ⟨hp, rfl | rfl⟩ := command_cases h hi
  · split at hu
    · next a b ha hb =>
      cases hu
      have hv := ltScan_spec false ((operand_length ha).trans (operand_length hb).symm)
      rw [maskOf_false] at hv
      refine .inl ⟨rfl, ?_⟩
      simp only [State.complete_mask, ltMaskBuf, hv]
      exact maskOf_cases _
    · cases hu
  · exact .inl ⟨rfl, maskOf_cases _⟩
  · exact .inl ⟨rfl, maskOf_cases _⟩
  · exact .inr ⟨by simpa [completionPromised, needsCtx] using hp, rfl⟩

/-! Fields a command does not look at. -/

/-- An update of a field that the issue checks and the frame of the command neither read nor write. -/
structure Passive (i : Instr) (p : State → State) : Prop where
  issue       : ∀ s, issueError i (p s) = issueError i s
  limbCount   : ∀ s, (p s).limbCount = s.limbCount
  lmem        : ∀ s, (p s).lmem = s.lmem
  poisoned    : ∀ s, (p s).ctxPoisoned = s.ctxPoisoned
  freeCtr     : ∀ s, (p s).freeCtr = s.freeCtr
  takeError   : ∀ s e w, (p s).takeError e w = p (s.takeError e w)
  complete    : ∀ s, (p s).complete = p s.complete
  unspecified : ∀ s, (p s).completeUnspecified i = p (s.completeUnspecified i)
  skipFree    : ∀ s, (p s).skipFree = p s.skipFree

/-- `CY` for every command but `ADD` and `SUB`. -/
theorem passive_cy {i : Instr} (c : Bool) (h : writesCy i = false) : Passive i fun s => { s with cy := c } :=
  ⟨fun _ => rfl, fun _ => rfl, fun _ => rfl, fun _ => rfl, fun _ => rfl, fun _ _ _ => rfl, fun _ => rfl,
    fun s => by simp only [State.completeUnspecified, h]; rfl, fun _ => rfl⟩

/-- `MASK` for every command but `LTMASK`. -/
theorem passive_mask {i : Instr} (m : Word) (h : writesMask i = false) : Passive i fun s => { s with mask := m } :=
  ⟨fun _ => rfl, fun _ => rfl, fun _ => rfl, fun _ => rfl, fun _ => rfl, fun _ _ _ => rfl, fun _ => rfl,
    fun s => by simp only [State.completeUnspecified, h]; rfl, fun _ => rfl⟩

theorem Passive.promised {i : Instr} {p : State → State} (h : Passive i p) (s : State) :
    completionPromised i (p s) = completionPromised i s := by
  simp only [completionPromised, operandsHeld, h.poisoned, h.limbCount, State.operand, h.lmem]

theorem Passive.perhaps {i : Instr} {p : State → State} (h : Passive i p) {s : State} {f : State → State}
    (hf : ∀ u, f (p u) = p (f u)) : (p s).perhaps f = p (s.perhaps f) := by
  simp only [State.perhaps, h.freeCtr, h.skipFree, hf]
  split <;> rfl

/-- A command whose own effect commutes with the update does the same with and without it. -/
theorem Passive.command {i : Instr} {p : State → State} (h : Passive i p) {s t : State} {f g : Nat → Option State}
    (hg : g s.limbCount = (f s.limbCount).map p) (ht : command i s f = .next t) : command i (p s) g = .next (p t) := by
  simp only [Machine.command, h.issue, h.limbCount, hg] at ht ⊢
  cases hi : issueError i s with
  | some e => rw [hi] at ht; cases ht; simp only [h.takeError]
  | none =>
    rw [hi] at ht
    simp only at ht ⊢
    rw [h.promised]
    by_cases hp : completionPromised i s = true
    · rw [if_pos hp] at ht ⊢
      by_cases ha : aliasingPermitted i s.limbCount = true
      · rw [if_pos ha] at ht ⊢
        cases hf : f s.limbCount with
        | none => rw [hf] at ht; cases ht; simp only [Option.map_none, h.unspecified]
        | some u => rw [hf] at ht; cases ht; simp only [Option.map_some, h.complete]
      · rw [if_neg ha] at ht ⊢
        cases ht
        rw [h.unspecified]
    · rw [if_neg hp] at ht ⊢
      cases ht
      rw [h.perhaps h.unspecified]

theorem Passive.modulusCommand {i : Instr} {p : State → State} (h : Passive i p) {ra : Nat} {s t : State}
    {illegal : State → State} {f g : List Word → State} (hf : ∀ u, illegal (p u) = p (illegal u)) (hg : ∀ n, g n = p (f n))
    (ht : modulusCommand i ra s illegal f = .next t) : modulusCommand i ra (p s) illegal g = .next (p t) := by
  simp only [Machine.modulusCommand, h.issue, h.limbCount, State.operand, h.lmem, hg] at ht ⊢
  cases hi : issueError i s with
  | some e => rw [hi] at ht; cases ht; simp only [h.takeError]
  | none =>
    rw [hi] at ht
    simp only at ht ⊢
    cases ho : s.lmem.readBuf ra s.limbCount with
    | none => rw [ho] at ht; cases ht; simp only [h.perhaps hf]
    | some n =>
      rw [ho] at ht
      simp only at ht ⊢
      by_cases hl : modulusLegal n = true
      · rw [if_pos hl] at ht ⊢
        by_cases ha : aliasingPermitted i s.limbCount = true
        · rw [if_pos ha] at ht ⊢; cases ht; rw [h.complete]
        · rw [if_neg ha] at ht ⊢; cases ht; rw [h.unspecified]
      · rw [if_neg hl] at ht ⊢; cases ht; rw [h.perhaps hf]

end Sys2Proof.Machine
end

