-- ==== Sys2Proof/Laws/Encoding.lean ====
section
/-! SUPPORT. The fields of a packed command word (spec/30_encoding.md R91), and the word of its fields. -/

namespace Sys2Proof

theorem packWord_toNat {op rd ra rb rc : Nat} (ho : op < 2 ^ 8) (hd : rd < 2 ^ 14) (ha : ra < 2 ^ 14) (hb : rb < 2 ^ 14)
    (hc : rc < 2 ^ 14) : (packWord op rd ra rb rc).toNat = op + rd * 2 ^ 8 + ra * 2 ^ 22 + rb * 2 ^ 36 + rc * 2 ^ 50 := by
  rw [packWord, BitVec.toNat_ofNat, Nat.mod_eq_of_lt (by omega)]

/-- Each field of a packed word is the number packed into it. -/
theorem fields_packWord {op rd ra rb rc : Nat} (ho : op < 2 ^ 8) (hd : rd < 2 ^ 14) (ha : ra < 2 ^ 14) (hb : rb < 2 ^ 14)
    (hc : rc < 2 ^ 14) : fieldOp (packWord op rd ra rb rc) = op ∧ fieldRd (packWord op rd ra rb rc) = rd ∧
    fieldRa (packWord op rd ra rb rc) = ra ∧ fieldRb (packWord op rd ra rb rc) = rb ∧
    fieldRc (packWord op rd ra rb rc) = rc := by
  simp only [fieldOp, fieldRd, fieldRa, fieldRb, fieldRc, packWord_toNat ho hd ha hb hc]
  omega

/-- A word is packed from its own fields. -/
theorem packWord_fields (w : Word) : packWord (fieldOp w) (fieldRd w) (fieldRa w) (fieldRb w) (fieldRc w) = w := by
  apply BitVec.eq_of_toNat_eq
  have := w.isLt
  rw [packWord_toNat (by simp only [fieldOp]; omega) (by simp only [fieldRd]; omega) (by simp only [fieldRa]; omega)
    (by simp only [fieldRb]; omega) (by simp only [fieldRc]; omega)]
  simp only [fieldOp, fieldRd, fieldRa, fieldRb, fieldRc]
  omega

theorem fieldRd_lt (w : Word) : fieldRd w < 2 ^ 14 := Nat.mod_lt _ (by norm_num)

theorem fieldRa_lt (w : Word) : fieldRa w < 2 ^ 14 := Nat.mod_lt _ (by norm_num)

theorem fieldRb_lt (w : Word) : fieldRb w < 2 ^ 14 := Nat.mod_lt _ (by norm_num)

theorem fieldRc_lt (w : Word) : fieldRc w < 2 ^ 14 := Nat.mod_lt _ (by norm_num)

theorem fieldOp_lt (w : Word) : fieldOp w < 2 ^ 8 := Nat.mod_lt _ (by norm_num)

theorem fitsField_iff {a : Nat} : fitsField a = true ↔ a < 2 ^ 14 := by simp [fitsField, Config.addrBits]

theorem withReservedZero_ok {z : Bool} {i j : Instr} : withReservedZero z i = .ok j ↔ z = true ∧ i = j := by
  cases z <;> simp [withReservedZero]

end Sys2Proof
end

