-- ==== Sys2Proof/Laws/HostPort.lean ====
section
/-! SUPPORT. The host register map (spec/20_memory.md R61), number by number, and the bits of `STATUS`
(spec/10_state.md R23). -/

namespace Sys2Proof.Machine

@[simp] theorem hostReg_cmd (p : Params) : hostReg p 0x0000#15 = .cmd := rfl
@[simp] theorem hostReg_status (p : Params) : hostReg p 0x0001#15 = .status := rfl
@[simp] theorem hostReg_ctrl (p : Params) : hostReg p 0x0002#15 = .ctrl := rfl
@[simp] theorem hostReg_len (p : Params) : hostReg p 0x0003#15 = .len := rfl
@[simp] theorem hostReg_bbits (p : Params) : hostReg p 0x0004#15 = .bbits := rfl
@[simp] theorem hostReg_mask (p : Params) : hostReg p 0x0005#15 = .mask := rfl
@[simp] theorem hostReg_ctxNinv (p : Params) : hostReg p 0x0006#15 = .ctxNinv := rfl
@[simp] theorem hostReg_errCmd (p : Params) : hostReg p 0x0007#15 = .errCmd := rfl
@[simp] theorem hostReg_regCmd (p : Params) : hostReg p regCmd = .cmd := rfl
@[simp] theorem hostReg_regStatus (p : Params) : hostReg p regStatus = .status := rfl
@[simp] theorem hostReg_regCtrl (p : Params) : hostReg p regCtrl = .ctrl := rfl
@[simp] theorem hostReg_regLen (p : Params) : hostReg p regLen = .len := rfl
@[simp] theorem hostReg_regBbits (p : Params) : hostReg p regBbits = .bbits := rfl

/-- The map above the numbered registers, by ranges. -/
theorem hostReg_high (p : Params) {reg : BitVec 15} (h : 8 ≤ reg.toNat) :
    hostReg p reg =
      if reg.toNat < 4096 then .unmapped
      else if reg.toNat < 8192 then (if reg.toNat - 4096 < p.lmax then .ctxN (reg.toNat - 4096) else .unmapped)
      else if reg.toNat < 12288 then (if reg.toNat - 8192 < p.lmax then .ctxR2 (reg.toNat - 8192) else .unmapped)
      else if reg.toNat < 16384 then .unmapped
      else if reg.toNat - 16384 < p.memWords then .lmem (reg.toNat - 16384)
      else .unmapped := by
  unfold hostReg
  dsimp only
  generalize reg.toNat = n at h ⊢
  rw [if_neg (show ¬n = 0 by omega), if_neg (show ¬n = 1 by omega), if_neg (show ¬n = 2 by omega),
    if_neg (show ¬n = 3 by omega), if_neg (show ¬n = 4 by omega), if_neg (show ¬n = 5 by omega),
    if_neg (show ¬n = 6 by omega), if_neg (show ¬n = 7 by omega)]

theorem hostReg_gap {p : Params} {reg : BitVec 15} (h : 8 ≤ reg.toNat) (h' : reg.toNat < 4096) :
    hostReg p reg = .unmapped := by rw [hostReg_high p h, if_pos h']

theorem hostReg_ctxN {p : Params} {reg : BitVec 15} {i : Nat} (h : reg.toNat = 4096 + i) (hi : i < 4096) :
    hostReg p reg = if i < p.lmax then .ctxN i else .unmapped := by
  rw [hostReg_high p (by omega), if_neg (by omega), if_pos (by omega), h, Nat.add_sub_cancel_left]

theorem hostReg_ctxR2 {p : Params} {reg : BitVec 15} {i : Nat} (h : reg.toNat = 8192 + i) (hi : i < 4096) :
    hostReg p reg = if i < p.lmax then .ctxR2 i else .unmapped := by
  rw [hostReg_high p (by omega), if_neg (by omega), if_neg (by omega), if_pos (by omega), h, Nat.add_sub_cancel_left]

theorem hostReg_gap_high {p : Params} {reg : BitVec 15} (h : 12288 ≤ reg.toNat) (h' : reg.toNat < 16384) :
    hostReg p reg = .unmapped := by
  rw [hostReg_high p (by omega), if_neg (by omega), if_neg (by omega), if_neg (by omega), if_pos (by omega)]

theorem hostReg_window {p : Params} {reg : BitVec 15} {w : Nat} (h : reg.toNat = 16384 + w) :
    hostReg p reg = if w < p.memWords then .lmem w else .unmapped := by
  rw [hostReg_high p (by omega), if_neg (by omega), if_neg (by omega), if_neg (by omega), if_neg (by omega), h,
    Nat.add_sub_cancel_left]

/-- The register number of `LMEM[w]` names that word. -/
theorem hostReg_regLmem {p : Params} {w : Nat} (h : w < p.memWords) (h' : w < 16384) :
    hostReg p (regLmem w) = .lmem w := by
  rw [hostReg_window (w := w), if_pos h]
  rw [regLmem, BitVec.toNat_ofNat, Nat.mod_eq_of_lt (by omega)]

/-- An `LMEM` register number names a word that exists. -/
theorem hostReg_lmem {p : Params} {reg : BitVec 15} {w : Nat} (h : hostReg p reg = .lmem w) : w < p.memWords := by
  by_cases h8 : 8 ≤ reg.toNat
  · rcases Nat.lt_or_ge reg.toNat 16384 with hlt | hge
    · exfalso
      rw [hostReg_high p h8] at h
      by_cases h1 : reg.toNat < 4096
      · rw [if_pos h1] at h; cases h
      · rw [if_neg h1] at h
        by_cases h2 : reg.toNat < 8192
        · rw [if_pos h2] at h
          by_cases h3 : reg.toNat - 4096 < p.lmax
          · rw [if_pos h3] at h; cases h
          · rw [if_neg h3] at h; cases h
        · rw [if_neg h2] at h
          by_cases h4 : reg.toNat < 12288
          · rw [if_pos h4] at h
            by_cases h3 : reg.toNat - 8192 < p.lmax
            · rw [if_pos h3] at h; cases h
            · rw [if_neg h3] at h; cases h
          · rw [if_neg h4, if_pos hlt] at h; cases h
    · obtain ⟨k, hk⟩ : ∃ k, reg.toNat = 16384 + k := ⟨reg.toNat - 16384, by omega⟩
      rw [hostReg_window hk] at h
      by_cases hw : k < p.memWords
      · rw [if_pos hw] at h; exact HostReg.lmem.inj h ▸ hw
      · rw [if_neg hw] at h; cases h
  · have hr : reg = BitVec.ofNat 15 reg.toNat := by simp
    generalize reg.toNat = n at hr h8
    subst hr
    have : n = 0 ∨ n = 1 ∨ n = 2 ∨ n = 3 ∨ n = 4 ∨ n = 5 ∨ n = 6 ∨ n = 7 := by omega
    rcases this with rfl | rfl | rfl | rfl | rfl | rfl | rfl | rfl <;> cases h

/-- A register number below 8 is one of the eight numbered registers. -/
theorem low_numbers {reg : BitVec 15} (h : reg.toNat < 8) :
    reg = 0#15 ∨ reg = 1#15 ∨ reg = 2#15 ∨ reg = 3#15 ∨ reg = 4#15 ∨ reg = 5#15 ∨ reg = 6#15 ∨ reg = 7#15 := by
  have hr : reg = BitVec.ofNat 15 reg.toNat := by simp
  generalize reg.toNat = n at hr h
  subst hr
  have : n = 0 ∨ n = 1 ∨ n = 2 ∨ n = 3 ∨ n = 4 ∨ n = 5 ∨ n = 6 ∨ n = 7 := by omega
  rcases this with rfl | rfl | rfl | rfl | rfl | rfl | rfl | rfl <;> simp

/-- A number from 8 on names no numbered register. -/
theorem hostReg_high_ne {p : Params} {reg : BitVec 15} (h : 8 ≤ reg.toNat) :
    hostReg p reg ≠ .cmd ∧ hostReg p reg ≠ .status ∧ hostReg p reg ≠ .ctrl ∧ hostReg p reg ≠ .len := by
  rw [hostReg_high p h]
  generalize reg.toNat = n
  have key : ∀ {c : Prop} [Decidable c] {a b r : HostReg}, a ≠ r → b ≠ r → (if c then a else b) ≠ r := by
    intro c _ a b r ha hb
    by_cases hc : c
    · rwa [if_pos hc]
    · rwa [if_neg hc]
  refine ⟨?_, ?_, ?_, ?_⟩ <;> exact key (by simp) (key (key (by simp) (by simp)) (key (key (by simp) (by simp))
    (key (by simp) (key (by simp) (by simp)))))

/-- `CMD`, `STATUS`, `CTRL`, `LEN` each have one number (R61). -/
theorem hostReg_eq_cmd {p : Params} {reg : BitVec 15} : hostReg p reg = .cmd ↔ reg = regCmd := by
  refine ⟨fun h => ?_, fun h => by rw [h]; rfl⟩
  rcases Nat.lt_or_ge reg.toNat 8 with h8 | h8
  · rcases low_numbers h8 with rfl | rfl | rfl | rfl | rfl | rfl | rfl | rfl <;> first | rfl | cases h
  · exact absurd h (hostReg_high_ne h8).1

theorem hostReg_eq_status {p : Params} {reg : BitVec 15} : hostReg p reg = .status ↔ reg = regStatus := by
  refine ⟨fun h => ?_, fun h => by rw [h]; rfl⟩
  rcases Nat.lt_or_ge reg.toNat 8 with h8 | h8
  · rcases low_numbers h8 with rfl | rfl | rfl | rfl | rfl | rfl | rfl | rfl <;> first | rfl | cases h
  · exact absurd h (hostReg_high_ne h8).2.1

theorem hostReg_eq_ctrl {p : Params} {reg : BitVec 15} : hostReg p reg = .ctrl ↔ reg = regCtrl := by
  refine ⟨fun h => ?_, fun h => by rw [h]; rfl⟩
  rcases Nat.lt_or_ge reg.toNat 8 with h8 | h8
  · rcases low_numbers h8 with rfl | rfl | rfl | rfl | rfl | rfl | rfl | rfl <;> first | rfl | cases h
  · exact absurd h (hostReg_high_ne h8).2.2.1

theorem hostReg_eq_len {p : Params} {reg : BitVec 15} : hostReg p reg = .len ↔ reg = regLen := by
  refine ⟨fun h => ?_, fun h => by rw [h]; rfl⟩
  rcases Nat.lt_or_ge reg.toNat 8 with h8 | h8
  · rcases low_numbers h8 with rfl | rfl | rfl | rfl | rfl | rfl | rfl | rfl <;> first | rfl | cases h
  · exact absurd h (hostReg_high_ne h8).2.2.2

/-- `STATUS` as a sum does not wrap. -/
theorem statusWord_toNat (s : State) : (statusWord s).toNat =
    s.busy.toNat + 2 * s.err.toNat + 4 * s.cy.toNat + 8 * s.ctxv.toNat + 256 * s.errCode.toNat := by
  have h1 := s.errCode.isLt
  have h2 := Bool.toNat_lt s.busy
  have h3 := Bool.toNat_lt s.err
  have h4 := Bool.toNat_lt s.cy
  have h5 := Bool.toNat_lt s.ctxv
  rw [statusWord, BitVec.toNat_ofNat, Nat.mod_eq_of_lt (by omega)]

end Sys2Proof.Machine
end

