-- ==== Sys2Proof/Laws/PerInstr.lean ====
section
/-! SUPPORT. Per instruction: the command word of a well-formed command holds its opcode and its operands in the fields
of spec/30_encoding.md R91, and 0 in the fields it does not use (R94). -/

namespace Sys2Proof.Laws.Fields

/-- The five fields of a word. -/
def fieldsOf (w : Word) : List Nat := [fieldOp w, fieldRd w, fieldRa w, fieldRb w, fieldRc w]

/-- The fields R93 gives a command. -/
def expected (i : Instr) : List Nat :=
  match i with
  | .add rd ra rb => [i.opcode, rd, ra, rb, 0]
  | .sub rd ra rb => [i.opcode, rd, ra, rb, 0]
  | .addmodn rd ra rb rc => [i.opcode, rd, ra, rb, rc]
  | .ltmask ra rb => [i.opcode, 0, ra, rb, 0]
  | .mul rd ra rb => [i.opcode, rd, ra, rb, 0]
  | .sqr rd ra => [i.opcode, rd, ra, 0, 0]
  | .kmul rd ra rb rc => [i.opcode, rd, ra, rb, rc]
  | .ksqr rd ra rc => [i.opcode, rd, ra, 0, rc]
  | .precompr2 rd ra => [i.opcode, rd, ra, 0, 0]
  | .ctxload ra => [i.opcode, 0, ra, 0, 0]
  | .redc rd ra => [i.opcode, rd, ra, 0, 0]
  | .tomont rd ra => [i.opcode, rd, ra, 0, 0]
  | .frommont rd ra => [i.opcode, rd, ra, 0, 0]
  | .montmul rd ra rb => [i.opcode, rd, ra, rb, 0]
  | .montsqr rd ra => [i.opcode, rd, ra, 0, 0]
  | .modexp rd ra rb => [i.opcode, rd, ra, rb, 0]
  | .modexpl rd ra rb => [i.opcode, rd, ra, rb, 0]

/-- The encoding puts every operand where R91 says. -/
def Statement (i : Instr) : Prop := i.wellFormed = true → fieldsOf (encode i) = expected i

theorem fieldsOf_packWord {op rd ra rb rc : Nat} (ho : op < 2 ^ 8) (hd : rd < 2 ^ 14) (ha : ra < 2 ^ 14)
    (hb : rb < 2 ^ 14) (hc : rc < 2 ^ 14) : fieldsOf (packWord op rd ra rb rc) = [op, rd, ra, rb, rc] := by
  obtain ⟨h1, h2, h3, h4, h5⟩ := fields_packWord ho hd ha hb hc
  simp only [fieldsOf, h1, h2, h3, h4, h5]

theorem add (rd ra rb : Nat) : Statement (.add rd ra rb) := by
  intro h
  simp only [Instr.wellFormed, Bool.and_eq_true, fitsField_iff] at h
  exact fieldsOf_packWord (by norm_num [Instr.opcode]) (by omega) (by omega) (by omega) (by omega)

theorem sub (rd ra rb : Nat) : Statement (.sub rd ra rb) := by
  intro h
  simp only [Instr.wellFormed, Bool.and_eq_true, fitsField_iff] at h
  exact fieldsOf_packWord (by norm_num [Instr.opcode]) (by omega) (by omega) (by omega) (by omega)

theorem addmodn (rd ra rb rc : Nat) : Statement (.addmodn rd ra rb rc) := by
  intro h
  simp only [Instr.wellFormed, Bool.and_eq_true, fitsField_iff] at h
  exact fieldsOf_packWord (by norm_num [Instr.opcode]) (by omega) (by omega) (by omega) (by omega)

theorem ltmask (ra rb : Nat) : Statement (.ltmask ra rb) := by
  intro h
  simp only [Instr.wellFormed, Bool.and_eq_true, fitsField_iff] at h
  exact fieldsOf_packWord (by norm_num [Instr.opcode]) (by omega) (by omega) (by omega) (by omega)

theorem mul (rd ra rb : Nat) : Statement (.mul rd ra rb) := by
  intro h
  simp only [Instr.wellFormed, Bool.and_eq_true, fitsField_iff] at h
  exact fieldsOf_packWord (by norm_num [Instr.opcode]) (by omega) (by omega) (by omega) (by omega)

theorem sqr (rd ra : Nat) : Statement (.sqr rd ra) := by
  intro h
  simp only [Instr.wellFormed, Bool.and_eq_true, fitsField_iff] at h
  exact fieldsOf_packWord (by norm_num [Instr.opcode]) (by omega) (by omega) (by omega) (by omega)

theorem kmul (rd ra rb rc : Nat) : Statement (.kmul rd ra rb rc) := by
  intro h
  simp only [Instr.wellFormed, Bool.and_eq_true, fitsField_iff] at h
  exact fieldsOf_packWord (by norm_num [Instr.opcode]) (by omega) (by omega) (by omega) (by omega)

theorem ksqr (rd ra rc : Nat) : Statement (.ksqr rd ra rc) := by
  intro h
  simp only [Instr.wellFormed, Bool.and_eq_true, fitsField_iff] at h
  exact fieldsOf_packWord (by norm_num [Instr.opcode]) (by omega) (by omega) (by omega) (by omega)

theorem precompr2 (rd ra : Nat) : Statement (.precompr2 rd ra) := by
  intro h
  simp only [Instr.wellFormed, Bool.and_eq_true, fitsField_iff] at h
  exact fieldsOf_packWord (by norm_num [Instr.opcode]) (by omega) (by omega) (by omega) (by omega)

theorem ctxload (ra : Nat) : Statement (.ctxload ra) := by
  intro h
  simp only [Instr.wellFormed, fitsField_iff] at h
  exact fieldsOf_packWord (by norm_num [Instr.opcode]) (by omega) (by omega) (by omega) (by omega)

theorem redc (rd ra : Nat) : Statement (.redc rd ra) := by
  intro h
  simp only [Instr.wellFormed, Bool.and_eq_true, fitsField_iff] at h
  exact fieldsOf_packWord (by norm_num [Instr.opcode]) (by omega) (by omega) (by omega) (by omega)

theorem tomont (rd ra : Nat) : Statement (.tomont rd ra) := by
  intro h
  simp only [Instr.wellFormed, Bool.and_eq_true, fitsField_iff] at h
  exact fieldsOf_packWord (by norm_num [Instr.opcode]) (by omega) (by omega) (by omega) (by omega)

theorem frommont (rd ra : Nat) : Statement (.frommont rd ra) := by
  intro h
  simp only [Instr.wellFormed, Bool.and_eq_true, fitsField_iff] at h
  exact fieldsOf_packWord (by norm_num [Instr.opcode]) (by omega) (by omega) (by omega) (by omega)

theorem montmul (rd ra rb : Nat) : Statement (.montmul rd ra rb) := by
  intro h
  simp only [Instr.wellFormed, Bool.and_eq_true, fitsField_iff] at h
  exact fieldsOf_packWord (by norm_num [Instr.opcode]) (by omega) (by omega) (by omega) (by omega)

theorem montsqr (rd ra : Nat) : Statement (.montsqr rd ra) := by
  intro h
  simp only [Instr.wellFormed, Bool.and_eq_true, fitsField_iff] at h
  exact fieldsOf_packWord (by norm_num [Instr.opcode]) (by omega) (by omega) (by omega) (by omega)

theorem modexp (rd ra rb : Nat) : Statement (.modexp rd ra rb) := by
  intro h
  simp only [Instr.wellFormed, Bool.and_eq_true, fitsField_iff] at h
  exact fieldsOf_packWord (by norm_num [Instr.opcode]) (by omega) (by omega) (by omega) (by omega)

theorem modexpl (rd ra rb : Nat) : Statement (.modexpl rd ra rb) := by
  intro h
  simp only [Instr.wellFormed, Bool.and_eq_true, fitsField_iff] at h
  exact fieldsOf_packWord (by norm_num [Instr.opcode]) (by omega) (by omega) (by omega) (by omega)

end Sys2Proof.Laws.Fields
end

