-- ==== Sys2Proof/Laws/Step.lean ====
section
/-! SUPPORT. What a turn can do, said once: the outcomes of a host access, of the engine's turn and of a step. -/

namespace Sys2Proof.Machine

/-- Everything a host read can do: hand over a value, after a draw if the word holds none. -/
theorem hostRead_cases (s : State) (reg : BitVec 15) :
    (∃ v, s.hostRead reg = s.answer v) ∨
    (s.busy = false ∧ (∃ w, hostReg s.params reg = .lmem w ∧ s.lmem.read w = none) ∧
      s.hostRead reg = s.skipFree.answer (Config.freeWord s.freeCtr)) := by
  simp only [State.hostRead]
  split
  · exact .inl ⟨_, rfl⟩
  · next hb =>
    split
    · exact .inl ⟨_, rfl⟩
    · next hn =>
      refine .inr ⟨?_, ?_, rfl⟩
      · cases hr : hostReg s.params reg <;> rw [hr] at hn hb <;> simp [State.readReg] at hn
        next w => simpa using hb
      · cases hr : hostReg s.params reg <;> rw [hr] at hn <;> simp [State.readReg] at hn
        next w => exact ⟨w, rfl, hn⟩

/-- Everything the issue of a command can do (R40, R212, R215). -/
theorem issue_cases (s : State) (w : Word) :
    (s.err = true ∧ s.issue w = s) ∨
    (s.err = false ∧ ∃ e, decode w = .error e ∧ s.issue w = s.takeError e w) ∨
    (s.err = false ∧ ∃ i e, decode w = .ok i ∧ issueError i s = some e ∧ s.issue w = s.takeError e w) ∨
    (s.err = false ∧ ∃ i, decode w = .ok i ∧ issueError i s = none ∧ s.issue w = s.accept w) := by
  simp only [State.issue]
  split
  · next h => exact .inl ⟨h, rfl⟩
  · next h =>
    have h : s.err = false := by simpa using h
    cases hd : decode w with
    | error e => exact .inr (.inl ⟨h, e, rfl, rfl⟩)
    | ok i =>
      cases hi : issueError i s with
      | some e => exact .inr (.inr (.inl ⟨h, i, e, rfl, hi, by simp [hi]⟩))
      | none => exact .inr (.inr (.inr ⟨h, i, rfl, hi, by simp [hi]⟩))

/-- Everything a host write can do. -/
theorem hostWrite_cases (s : State) (reg : BitVec 15) (v : Word) :
    s.hostWrite reg v = s ∨
    (s.busy = false ∧ hostReg s.params reg = .cmd ∧ s.hostWrite reg v = s.issue v) ∨
    (s.busy = false ∧ hostReg s.params reg = .ctrl ∧ v.getLsbD 0 = true ∧ s.hostWrite reg v = s.clearError) ∨
    (s.busy = false ∧ hostReg s.params reg = .len ∧ s.hostWrite reg v = s.setLen v) ∨
    (s.busy = false ∧ hostReg s.params reg = .bbits ∧ s.hostWrite reg v = s.setBbits v) ∨
    (s.busy = false ∧ ∃ w, w < s.params.memWords ∧ hostReg s.params reg = .lmem w ∧ s.hostWrite reg v = s.setWord w v) := by
  simp only [State.hostWrite]
  split
  · exact .inl rfl
  · next hb =>
    have hb : s.busy = false := by simpa using hb
    cases hr : hostReg s.params reg with
    | cmd => exact .inr (.inl ⟨hb, rfl, rfl⟩)
    | ctrl =>
      by_cases h0 : v.getLsbD 0 = true
      · exact .inr (.inr (.inl ⟨hb, rfl, h0, if_pos h0⟩))
      · exact .inl (if_neg h0)
    | len => exact .inr (.inr (.inr (.inl ⟨hb, rfl, rfl⟩)))
    | bbits => exact .inr (.inr (.inr (.inr (.inl ⟨hb, rfl, rfl⟩))))
    | lmem w => exact .inr (.inr (.inr (.inr (.inr ⟨hb, w, hostReg_lmem hr, rfl, rfl⟩))))
    | status | mask | ctxNinv | errCmd | ctxN | ctxR2 | unmapped => exact .inl rfl

/-- Everything the engine's turn can do. -/
theorem engineTurn_cases {s t : State} (h : engineTurn s = .next t) :
    (s.busy = false ∧ t = s) ∨
    (s.busy = true ∧ ∃ i, decode s.cmd = .ok i ∧ exec i s = .next t) ∨
    (s.busy = true ∧ ∃ e, decode s.cmd = .error e ∧ t = s.takeError e s.cmd) := by
  simp only [engineTurn] at h
  split at h
  · next hb =>
    simp only [runLatch] at h
    cases hd : decode s.cmd with
    | ok i => rw [hd] at h; exact .inr (.inl ⟨hb, i, rfl, h⟩)
    | error e =>
      rw [hd] at h
      simp only [Host.Outcome.next.injEq] at h
      exact .inr (.inr ⟨hb, e, rfl, h.symm⟩)
  · next hb =>
    simp only [Host.Outcome.next.injEq] at h
    exact .inl ⟨by simpa using hb, h.symm⟩

/-- A step is the engine's turn with an empty schedule, and the first turn otherwise. -/
theorem step_cases {s t : State} (h : step s = .next t) :
    (s.schedule = [] ∧ engineTurn s = .next t) ∨
    ∃ m rest, s.schedule = m :: rest ∧ takeTurn m s.dropTurn = .next t := by
  simp only [step] at h
  cases hs : s.schedule with
  | nil => rw [hs] at h; exact .inl ⟨rfl, h⟩
  | cons m rest => rw [hs] at h; exact .inr ⟨m, rest, rfl, h⟩

theorem runLatch_total (s : State) : ∃ t, runLatch s = .next t := by
  simp only [runLatch]
  split
  · exact exec_total _ _
  · exact ⟨_, rfl⟩

/-- Every turn answers a next state. -/
theorem takeTurn_total (m : Turn) (s : State) : ∃ t, takeTurn m s = .next t := by
  cases m with
  | read reg => exact ⟨_, rfl⟩
  | write reg v => exact ⟨_, rfl⟩
  | reset => exact ⟨_, rfl⟩
  | engine =>
    simp only [takeTurn, engineTurn]
    split
    · exact runLatch_total s
    · exact ⟨_, rfl⟩

end Sys2Proof.Machine
end

