-- ==== Sys2Proof/Tests/Slice0.lean ====
section
/-! SUPPORT. Tests. Every expected value is the spec's: the encodings of spec/95_test_vectors.md 2.1, the vectors of 2.2 to
2.11, and the examples and corner cases of the rules. The second half holds, for each obligation with hypotheses, a
concrete state and operands that meet them. -/

open Sys2Proof Sys2Proof.Machine Sys2Proof.Claims

namespace Sys2Proof.Tests

/-! ## Well-formed commands -/

theorem test_wellFormed_largest : (Instr.kmul 16383 16383 16383 16383).wellFormed = true := by decide
theorem test_illFormed_add :
    (Instr.add 16384 0 0).wellFormed = false ∧ (Instr.add 0 16384 0).wellFormed = false ∧
    (Instr.add 0 0 16384).wellFormed = false := by decide
theorem test_illFormed_sub :
    (Instr.sub 16384 0 0).wellFormed = false ∧ (Instr.sub 0 16384 0).wellFormed = false ∧
    (Instr.sub 0 0 16384).wellFormed = false := by decide
theorem test_illFormed_addmodn :
    (Instr.addmodn 16384 0 0 0).wellFormed = false ∧ (Instr.addmodn 0 16384 0 0).wellFormed = false ∧
    (Instr.addmodn 0 0 16384 0).wellFormed = false ∧ (Instr.addmodn 0 0 0 16384).wellFormed = false := by decide
theorem test_illFormed_ltmask :
    (Instr.ltmask 16384 0).wellFormed = false ∧ (Instr.ltmask 0 16384).wellFormed = false := by decide
theorem test_illFormed_mul :
    (Instr.mul 16384 0 0).wellFormed = false ∧ (Instr.mul 0 16384 0).wellFormed = false ∧
    (Instr.mul 0 0 16384).wellFormed = false := by decide
theorem test_illFormed_sqr :
    (Instr.sqr 16384 0).wellFormed = false ∧ (Instr.sqr 0 16384).wellFormed = false := by decide
theorem test_illFormed_kmul :
    (Instr.kmul 16384 0 0 0).wellFormed = false ∧ (Instr.kmul 0 16384 0 0).wellFormed = false ∧
    (Instr.kmul 0 0 16384 0).wellFormed = false ∧ (Instr.kmul 0 0 0 16384).wellFormed = false := by decide
theorem test_illFormed_ksqr :
    (Instr.ksqr 16384 0 0).wellFormed = false ∧ (Instr.ksqr 0 16384 0).wellFormed = false ∧
    (Instr.ksqr 0 0 16384).wellFormed = false := by decide
theorem test_illFormed_montgomery_one_source :
    (Instr.precompr2 16384 0).wellFormed = false ∧ (Instr.precompr2 0 16384).wellFormed = false ∧
    (Instr.ctxload 16384).wellFormed = false ∧
    (Instr.redc 16384 0).wellFormed = false ∧ (Instr.redc 0 16384).wellFormed = false ∧
    (Instr.tomont 16384 0).wellFormed = false ∧ (Instr.tomont 0 16384).wellFormed = false ∧
    (Instr.frommont 16384 0).wellFormed = false ∧ (Instr.frommont 0 16384).wellFormed = false ∧
    (Instr.montsqr 16384 0).wellFormed = false ∧ (Instr.montsqr 0 16384).wellFormed = false := by decide
theorem test_illFormed_two_sources :
    (Instr.montmul 16384 0 0).wellFormed = false ∧ (Instr.montmul 0 16384 0).wellFormed = false ∧
    (Instr.montmul 0 0 16384).wellFormed = false ∧
    (Instr.modexp 16384 0 0).wellFormed = false ∧ (Instr.modexp 0 16384 0).wellFormed = false ∧
    (Instr.modexp 0 0 16384).wellFormed = false ∧
    (Instr.modexpl 16384 0 0).wellFormed = false ∧ (Instr.modexpl 0 16384 0).wellFormed = false ∧
    (Instr.modexpl 0 0 16384).wellFormed = false := by decide

/-! ## Decoding: the words of spec/95_test_vectors.md 2.1 -/

theorem test_decode_add : decodeTableWord 64 0x0000040000010010 = some (.add 0x100 0x000 0x040) := by decide
theorem test_decode_sub : decodeTableWord 64 0x0000040000010011 = some (.sub 0x100 0x000 0x040) := by decide
theorem test_decode_addmodn : decodeTableWord 64 0x0200040000010012 = some (.addmodn 0x100 0x000 0x040 0x080) := by decide
theorem test_decode_ltmask : decodeTableWord 64 0x0000040000000013 = some (.ltmask 0x000 0x040) := by decide
theorem test_decode_mul : decodeTableWord 64 0x0000040000010020 = some (.mul 0x100 0x000 0x040) := by decide
theorem test_decode_sqr : decodeTableWord 64 0x0000000000010021 = some (.sqr 0x100 0x000) := by decide
theorem test_decode_kmul : decodeTableWord 64 0x0800040000010022 = some (.kmul 0x100 0x000 0x040 0x200) := by decide
theorem test_decode_ksqr : decodeTableWord 64 0x0800000000010023 = some (.ksqr 0x100 0x000 0x200) := by decide
theorem test_decode_precompr2 : decodeTableWord 64 0x000000002000C030 = some (.precompr2 0x0C0 0x080) := by decide
theorem test_decode_ctxload : decodeTableWord 64 0x0000000020000031 = some (.ctxload 0x080) := by decide
theorem test_decode_redc : decodeTableWord 64 0x0000000040018032 = some (.redc 0x180 0x100) := by decide
theorem test_decode_tomont : decodeTableWord 64 0x000000000000C033 = some (.tomont 0x0C0 0x000) := by decide
theorem test_decode_frommont : decodeTableWord 64 0x0000000030000034 = some (.frommont 0x000 0x0C0) := by decide
theorem test_decode_montmul : decodeTableWord 64 0x000004000000C035 = some (.montmul 0x0C0 0x000 0x040) := by decide
theorem test_decode_montsqr : decodeTableWord 64 0x000000003000C036 = some (.montsqr 0x0C0 0x0C0) := by decide
theorem test_decode_modexp : decodeTableWord 64 0x0000040000010040 = some (.modexp 0x100 0x000 0x040) := by decide
theorem test_decode_modexpl : decodeTableWord 64 0x0000040000010041 = some (.modexpl 0x100 0x000 0x040) := by decide

/-- The fields `rd`, `ra`, `rb`, `rc` in turn all-ones, bit by bit (R91). -/
theorem test_decode_fields :
    decodeTableWord 64 0b0000000000000000000000000000000000000000001111111111111100010010 = some (.addmodn 16383 0 0 0) ∧
    decodeTableWord 64 0b0000000000000000000000000000111111111111110000000000000000010010 = some (.addmodn 0 16383 0 0) ∧
    decodeTableWord 64 0b0000000000000011111111111111000000000000000000000000000000010010 = some (.addmodn 0 0 16383 0) ∧
    decodeTableWord 64 0b1111111111111100000000000000000000000000000000000000000000010010 = some (.addmodn 0 0 0 16383) := by
  decide
theorem test_decode_illegal_op :
    decodeTableWord 64 0x0000000000000000 = none ∧ decodeTableWord 64 0xFFFFFFFFFFFFFFFF = none ∧
    decodeTableWord 64 0x0000000000000014 = none ∧ decodeTableWord 64 0x0000000000000037 = none ∧
    decodeTableWord 64 0x0000000000000042 = none := by decide
theorem test_decode_error_op : decode 0x0000000000000042#64 = .error .op := by rfl
theorem test_decode_error_rsvd_add : decode 0x0004000000000010#64 = .error .rsvd := by rfl
theorem test_decode_error_rsvd_ltmask : decode 0x0000000000000113#64 = .error .rsvd := by rfl
theorem test_decode_error_rsvd_sqr : decode 0x0000001000000021#64 = .error .rsvd := by rfl
theorem test_decode_error_rsvd_ctxload : decode 0x0000000000000131#64 = .error .rsvd := by rfl
theorem test_assemble :
    assemble "KSQR" [0x100, 0x000, 0x200] = some (.ksqr 0x100 0x000 0x200) ∧
    assemble "DBLMODN" [1, 2, 3] = some (.addmodn 1 2 2 3) ∧
    assemble "SCHOOLBOOK_MUL" [1, 2, 3] = some (.mul 1 2 3) ∧ assemble "CTXLOAD" [16384] = none := by decide

/-! ## One step of each command -/

/-- `LMAX = 4`, `MEMWORDS = 64`, `LEN = L`, and these buffers in `LMEM`. -/
def smallState (L : Nat) (bufs : List (Nat × List Word)) : State :=
  { State.resetWith ⟨4, 64⟩ with
    len  := BitVec.ofNat 64 L
    lmem := bufs.foldl (fun m p => m.writeBuf p.1 p.2) [] }

/-- The same with a context. -/
def contextState (L : Nat) (n : List Word) (nInv : Word) (r2 : List Word) (bufs : List (Nat × List Word)) : State :=
  { smallState L bufs with ctxN := padTo 4 n, ctxNinv := nInv, ctxR2 := padTo 4 r2, ctxv := true }

/-- The context of MOD1, `N = 1001` (spec/95_test_vectors.md 2.7). -/
def mod1State (bufs : List (Nat × List Word)) : State := contextState 1 [0x3E9] 0x7004178749E8FBA7 [0x100] bufs

/-- A field of the state after one step that runs the command in flight. -/
def observe {α : Type} (i : Instr) (s : State) (f : State → α) : Option α :=
  match step (s.latchWord (encode i)) with
  | .next t => some (f t)
  | _       => none

/-- AD6, AD3. -/
theorem test_add_carry_between_limbs :
    observe (.add 20 0 10) (smallState 2 [(0, [0xFFFFFFFFFFFFFFFF, 0]), (10, [1, 0])]) (fun t => (t.operand 20 2, t.cy)) =
      some (some [0, 1], false) := by decide
theorem test_add_carry_out :
    observe (.add 0 0 10) (smallState 1 [(0, [0xFFFFFFFFFFFFFFFF]), (10, [1])]) (fun t => (t.operand 0 1, t.cy, t.busy)) =
      some (some [0], true, false) := by decide
/-- SB1, SB6. -/
theorem test_sub_borrow_between_limbs :
    observe (.sub 20 0 10) (smallState 2 [(0, [0, 1]), (10, [1, 0])]) (fun t => (t.operand 20 2, t.cy)) =
      some (some [0xFFFFFFFFFFFFFFFF, 0], false) := by decide
theorem test_sub_borrow_out :
    observe (.sub 20 0 10) (smallState 2 [(0, [5, 1]), (10, [3, 2])]) (fun t => (t.operand 20 2, t.cy)) =
      some (some [2, 0xFFFFFFFFFFFFFFFF], true) := by decide
/-- M2, M5. -/
theorem test_addmodn_subtracts :
    observe (.addmodn 20 0 10 30) (smallState 1 [(0, [5]), (10, [5]), (30, [7])]) (fun t => t.operand 20 1) =
      some (some [3]) := by decide
theorem test_addmodn_overflow :
    observe (.addmodn 0 0 0 30) (smallState 1 [(0, [0xFFFFFFFFFFFFFFC4]), (30, [0xFFFFFFFFFFFFFFC5])])
      (fun t => (t.operand 0 1, t.cy)) = some (some [0xFFFFFFFFFFFFFFC3], false) := by decide
/-- T3, T4. -/
theorem test_ltmask_less :
    observe (.ltmask 0 10) (smallState 2 [(0, [5, 1]), (10, [3, 2])]) (fun t => (t.mask, t.cy)) =
      some (0xFFFFFFFFFFFFFFFF, false) := by decide
theorem test_ltmask_greater :
    observe (.ltmask 0 10) (smallState 2 [(0, [3, 2]), (10, [5, 1])]) (fun t => t.mask) = some 0 := by decide
/-- X6, X1. -/
theorem test_mul_two_limbs :
    observe (.mul 20 0 10)
      (smallState 2 [(0, [0x0123456789ABCDEF, 0xFEDCBA9876543210]), (10, [0x0F1E2D3C4B5A6978, 0x8796A5B4C3D2E1F0])])
      (fun t => t.operand 20 4) =
      some (some [0x563502BF6B058F08, 0xB42DB85400BE8D6E, 0x6EA0E4389E149C33, 0x86FC60B3F6274755]) := by decide
theorem test_mul_largest :
    observe (.mul 20 0 0) (smallState 1 [(0, [0xFFFFFFFFFFFFFFFF])]) (fun t => t.operand 20 2) =
      some (some [1, 0xFFFFFFFFFFFFFFFE]) := by decide
/-- Q3, Q5. -/
theorem test_sqr_two_limbs :
    observe (.sqr 20 0) (smallState 2 [(0, [0x0123456789ABCDEF, 0xFEDCBA9876543210])]) (fun t => t.operand 20 4) =
      some (some [0xDCA5E20890F2A521, 0x446EFC86A6F7108C, 0xE13060D8FF39EF84, 0xFDBAC097C8DC5ACC]) := by decide
theorem test_sqr_doubling_carries :
    observe (.sqr 20 0) (smallState 3 [(0, [0x8000000000000000, 0x8000000000000000, 0x8000000000000000])])
      (fun t => t.operand 20 6) =
      some (some [0, 0x4000000000000000, 0x8000000000000000, 0xC000000000000000, 0x8000000000000000, 0x4000000000000000]) := by
  decide

/-- The operands of KA3 at words 0 and 32, with the default parameters. -/
def ka3State : State :=
  { State.reset with
    len  := 32
    lmem := ((List.range 32).map fun i => (i, if i < 16 then 0xFFFFFFFFFFFFFFFF#64 else BitVec.ofNat 64 i)) ++
            ((List.range 32).map fun i => (32 + i, if i < 16 then BitVec.ofNat 64 (i + 1) else 0xFFFFFFFFFFFFFFFF#64)) }

/-- KA3, one level of recursion: limbs 0, 16, 32, 47, 63 of the product, and the scratch holds no value. -/
theorem test_kmul_one_level :
    observe (.kmul 64 0 32 128) ka3State
      (fun t => ([0, 16, 32, 47, 63].map fun k => t.lmem.read (64 + k), t.lmem.read 128, t.lmem.read 255)) =
      some ([some 0xFFFFFFFFFFFFFFFF, some 0x11, some 0xB7E, some 0xFFFFFFFFFFFFFFE1, some 0x1F], none, none) := by
  decide +kernel
/-- X6: `L` below the threshold. -/
theorem test_kmul_base_case :
    observe (.kmul 20 0 10 30)
      (smallState 2 [(0, [0x0123456789ABCDEF, 0xFEDCBA9876543210]), (10, [0x0F1E2D3C4B5A6978, 0x8796A5B4C3D2E1F0]), (30, [9])])
      (fun t => (t.operand 20 4, t.lmem.read 30)) =
      some (some [0x563502BF6B058F08, 0xB42DB85400BE8D6E, 0x6EA0E4389E149C33, 0x86FC60B3F6274755], none) := by decide

/-- `a[i] = GA(i)` (spec/95_test_vectors.md 2.6). -/
def gaState : State :=
  { State.reset with
    len  := 32
    lmem := (List.range 32).map fun i => (i, 0x9E3779B97F4A7C15#64 * BitVec.ofNat 64 (i + 1)) }

/-- The `KSQR` vector of 2.6. -/
theorem test_ksqr_one_level :
    observe (.ksqr 64 0 128) gaState (fun t => [0, 31, 32, 63].map fun k => t.lmem.read (64 + k)) =
      some [some 0xDF442D22CE4859B9, some 0xDA37DBC843022749, some 0x0E45463E4EE33171, some 0x9A96E8E634423FBD] := by
  decide +kernel
theorem test_ksqr_base_case :
    observe (.ksqr 20 0 30) (smallState 2 [(0, [0, 1])]) (fun t => t.operand 20 4) = some (some [0, 0, 1, 0]) := by decide

/-- MOD1, MOD7. -/
theorem test_precompr2_one_limb :
    observe (.precompr2 20 0) (smallState 1 [(0, [0x3E9])]) (fun t => (t.operand 20 1, t.ctxv)) =
      some (some [0x100], false) := by decide +kernel
theorem test_precompr2_two_limbs :
    observe (.precompr2 20 0) (smallState 2 [(0, [0xFFFFFFFFFFFFFF61, 0xFFFFFFFFFFFFFFFF])]) (fun t => t.operand 20 2) =
      some (some [0x62C1, 0]) := by decide +kernel
theorem test_ctxload_one_limb :
    observe (.ctxload 0) (smallState 1 [(0, [0x3E9])]) (fun t => (t.ctxN, t.ctxNinv, t.ctxR2, t.ctxv)) =
      some ([0x3E9, 0, 0, 0], 0x7004178749E8FBA7, [0x100, 0, 0, 0], true) := by decide +kernel
theorem test_ctxload_two_limbs :
    observe (.ctxload 0) (smallState 2 [(0, [0xFFFFFFFFFFFFFF61, 0xFFFFFFFFFFFFFFFF])])
      (fun t => (t.ctxN, t.ctxNinv, t.ctxR2)) =
      some ([0xFFFFFFFFFFFFFF61, 0xFFFFFFFFFFFFFFFF, 0, 0], 0xB5EFE63D2EB11B5F, [0x62C1, 0, 0, 0]) := by decide +kernel
/-- RC7: the fold overflows; RC9. -/
theorem test_redc_overflow :
    observe (.redc 20 0)
      (contextState 1 [0xFFFFFFFFFFFFFFC5] 0xCBEEA4E1A08AD8F3 [0xD99] [(0, [0xE10, 0xFFFFFFFFFFFFFF88])])
      (fun t => (t.operand 20 1, t.operand 0 2)) =
      some (some [0xCBEEA4E1A08AD8C4], some [0, 0xCBEEA4E1A08AD889]) := by decide
theorem test_redc_two_limbs :
    observe (.redc 20 0)
      (contextState 2 [0xFFFFFFFFFFFFFFFF, 0x7FFFFFFFFFFFFFFF] 1 [4, 0] [(0, [1, 0, 0, 0])])
      (fun t => (t.operand 20 2, t.operand 0 4)) =
      some (some [0, 0x4000000000000000], some [0, 0, 0, 0x4000000000000000]) := by decide
/-- 2.9: MOD1, MOD8. -/
theorem test_tomont_reduces :
    observe (.tomont 20 0) (mod1State [(0, [0xFFFFFFFFFFFFFFFF])]) (fun t => t.operand 20 1) = some (some [0xF0]) := by decide
theorem test_tomont_three_limbs :
    observe (.tomont 0 0) (contextState 3 [1, 0, 1] 0xFFFFFFFFFFFFFFFF [0, 0, 1] [(0, [3, 0, 0])]) (fun t => t.operand 0 3) =
      some (some [1, 0xFFFFFFFFFFFFFFFD, 0]) := by decide
theorem test_frommont :
    observe (.frommont 20 0) (mod1State [(0, [32])]) (fun t => (t.operand 20 1, t.operand 0 1)) =
      some (some [2], some [32]) := by decide
theorem test_frommont_one :
    observe (.frommont 0 0) (mod1State [(0, [1])]) (fun t => t.operand 0 1) = some (some [438]) := by decide
theorem test_montmul :
    observe (.montmul 20 0 10) (mod1State [(0, [32]), (10, [112])]) (fun t => t.operand 20 1) = some (some [224]) := by decide
theorem test_montmul_two_limbs :
    observe (.montmul 20 0 0)
      (contextState 2 [0xFFFFFFFFFFFFFF61, 0xFFFFFFFFFFFFFFFF] 0xB5EFE63D2EB11B5F [0x62C1, 0]
        [(0, [0xFFFFFFFFFFFFFEC2, 0xFFFFFFFFFFFFFFFF])]) (fun t => t.operand 20 2) = some (some [0x9F, 0]) := by decide
theorem test_montsqr :
    observe (.montsqr 0 0) (mod1State [(0, [32])]) (fun t => t.operand 0 1) = some (some [64]) := by decide
theorem test_montsqr_two_limbs :
    observe (.montsqr 20 0)
      (contextState 2 [0xFFFFFFFFFFFFFF61, 0xFFFFFFFFFFFFFFFF] 0xB5EFE63D2EB11B5F [0x62C1, 0] [(0, [0x6222, 0])])
      (fun t => t.operand 20 2) = some (some [0x3C90FC, 0]) := by decide

/-- The state of the vectors of 2.10 on MOD1: base at 0, exponent at 10. -/
def expState (bbits : Word) (a b : Word) : State := { mod1State [(0, [a]), (10, [b])] with bbits := bbits }

/-- E1, E4. -/
theorem test_modexp : observe (.modexp 20 0 10) (expState 10 2 10) (fun t => t.operand 20 1) = some (some [23]) := by decide +kernel
theorem test_modexp_ignores_high_bits :
    observe (.modexp 20 0 10) (expState 3 2 10) (fun t => (t.operand 20 1, t.bbits)) = some (some [4], 3) := by decide +kernel
/-- E1, E8. -/
theorem test_modexpl : observe (.modexpl 20 0 10) (expState 10 2 10) (fun t => t.operand 20 1) = some (some [23]) := by
  decide +kernel
theorem test_modexpl_large_base :
    observe (.modexpl 20 0 10) (expState 2 0xFFFFFFFFFFFFFFFF 3) (fun t => t.operand 20 1) = some (some [372]) := by
  decide +kernel

/-! ## The host port -/

/-- At reset `LEN` is 0, so every command gets `E_LEN` (R39, R212). -/
theorem test_reset_refuses_commands :
    (State.reset.hostWrite regCmd 0x10).errCode = 3 ∧ (State.reset.hostWrite regCmd 0x10).errCmd = 0x10 ∧
    (State.reset.hostWrite regCmd 0x10).busy = false := by decide
theorem test_status_after_error :
    (State.hostRead (State.reset.hostWrite regCmd 0x14) regStatus).readOut = some 0x0102 := by decide
theorem test_len_write_clears_ctxv : ((mod1State []).hostWrite regLen 1).ctxv = false := by decide
theorem test_toBytesBE :
    toBytesBE [0x1122334455667788, 0x99AABBCCDDEEFF00] 12 =
      some [0xDD, 0xEE, 0xFF, 0, 0x11, 0x22, 0x33, 0x44, 0x55, 0x66, 0x77, 0x88] := by decide
theorem test_fromBytesBE :
    fromBytesBE 64 [1, 2, 3, 4, 5, 6, 7, 8, 9] = some [0x0203040506070809, 0x0000000000000001] ∧
    fromBytesBE 64 [] = none := by decide

/-! ## Witnesses: states and operands that meet the hypotheses of the obligations

`idle`: `LEN = 1`, `MEMWORDS = 64`, the context of `N = 1001`, `BBITS = 64` (the largest legal), operands at 0, 1, 10, the
modulus at 2, `R²` at 3. Destinations are the highest that fit: 63 for one word, 62 for two, 60 for four. -/

def idle : State :=
  { mod1State [(0, [32]), (1, [112]), (2, [0x3E9]), (3, [0x100]), (10, [32, 0])] with bbits := 64 }

/-- `MONTMUL` in flight, the engine's turn next. -/
def running : State := { idle with cmd := encode (.montmul 63 0 1), busy := true, schedule := [.engine, .read regStatus] }

/-- An error recorded, and the host about to clear it. -/
def failed : State :=
  { idle with err := true, errCode := 1, errCmd := 0x42, schedule := [.write regCtrl 1] }

/-- A host about to issue an illegal word. -/
def issuing : State := { idle with schedule := [.write regCmd 0x42] }

/-- A poisoned context (spec/93_implementation_defined.md U1). -/
def poisoned : State := { idle with ctxPoisoned := true }

theorem idle_ready : ContextReady idle :=
  ⟨⟨by decide, by decide, by decide, by decide, by decide⟩, by decide, by decide⟩

theorem idle_inv : Inv idle :=
  ⟨by decide, by decide, by decide, by decide, by decide, .inl rfl, nofun, fun _ => ⟨rfl, rfl⟩, nofun, .inl rfl,
    fun _ => by decide, fun _ _ => idle_ready.legal, fun _ _ => by decide⟩

theorem running_inv : Inv running :=
  ⟨by decide, by decide, by decide, by decide, by decide, .inr ⟨.montmul 63 0 1, rfl⟩,
    fun _ => ⟨rfl, .montmul 63 0 1, rfl, by decide⟩, fun _ => ⟨rfl, rfl⟩, nofun, .inl rfl,
    fun _ => by decide, fun _ _ => idle_ready.legal, fun _ _ => by decide⟩

theorem failed_inv : Inv failed :=
  ⟨by decide, by decide, by decide, by decide, by decide, .inl rfl, nofun, nofun, fun _ => ⟨.op, rfl, .inl rfl⟩, .inl rfl,
    fun _ => by decide, fun _ _ => idle_ready.legal, fun _ _ => by decide⟩

theorem issuing_inv : Inv issuing :=
  ⟨by decide, by decide, by decide, by decide, by decide, .inl rfl, nofun, fun _ => ⟨rfl, rfl⟩, nofun, .inl rfl,
    fun _ => by decide, fun _ _ => idle_ready.legal, fun _ _ => by decide⟩

theorem witness_DecodeEncode : (Instr.kmul 16383 16383 16383 16383).wellFormed = true := by decide
theorem witness_TotalDecoder :
    (∃ i, decode 0xFFFFFFFFFFFFFF22 = .ok i ∧ i.wellFormed = true) ∧ decode 0xFFFFFFFFFFFFFFFF = .error .op ∧
    decode 0xFFFFFFFFFFFFFF10 = .error .rsvd := ⟨⟨.kmul 16383 16383 16383 16383, rfl, by decide⟩, rfl, rfl⟩
theorem witness_IllegalOpcode :
    ([0x00, 0x0F, 0x14, 0x1F, 0x24, 0x2F, 0x37, 0x3F, 0x42, 0xFF].all fun op => illegalOp (opOf (BitVec.ofNat 64 op))) = true ∧
    ([0x10, 0x13, 0x20, 0x23, 0x30, 0x36, 0x40, 0x41].any fun op => illegalOp (opOf (BitVec.ofNat 64 op))) = false ∧
    idle.busy = false ∧ idle.err = false := by decide
theorem witness_ReservedFields :
    rowOf 0x0004000000000010 = some ⟨0x10, 1, 1, 1, 0, false, false⟩ ∧
    reservedViolated ⟨0x10, 1, 1, 1, 0, false, false⟩ 0x0004000000000010 = true ∧
    rowOf 0x10 = some ⟨0x10, 1, 1, 1, 0, false, false⟩ ∧
    reservedViolated ⟨0x10, 1, 1, 1, 0, false, false⟩ 0x10 = false ∧ idle.busy = false ∧ idle.err = false := by
  simp only [rowOf, reservedViolated, addressFields]; refine ⟨rfl, by decide, rfl, by decide, by decide, by decide⟩
theorem witness_ResetState : (∃ t, takeTurn .reset running = .next t) ∧ running.busy = true := ⟨⟨_, rfl⟩, rfl⟩
theorem witness_ResetMeetsInv : Params.ok ⟨1, 4⟩ ∧ Params.ok ⟨4096, 16384⟩ := by decide
theorem witness_StepKeepsInv : Inv running ∧ ∃ t, step running = .next t := ⟨running_inv, _, rfl⟩
theorem witness_StepRunsDecoded :
    EnginesTurn running ∧ running.busy = true ∧ decode running.cmd = .ok (.montmul 63 0 1) ∧
    EnginesTurn idle ∧ idle.busy = false ∧
    decode (BitVec.ofNat 64 (0x0000000000000010 % 2 ^ 64)) = .ok (.add 0 0 0) :=
  ⟨.inr rfl, rfl, rfl, .inl rfl, rfl, rfl⟩
theorem witness_StepRunsHost :
    NextTurn { idle with schedule := [.read regStatus] } (.read regStatus) ∧
    NextTurn issuing (.write regCmd 0x42) ∧ NextTurn { running with schedule := [.reset] } .reset := ⟨rfl, rfl, rfl⟩
theorem witness_CommandLine :
    (Instr.montmul 63 0 1).wellFormed = true ∧ idle.busy = false ∧ idle.err = false ∧
    issueError (.montmul 63 0 1) idle = none := by decide
theorem witness_AcceptedNeverFails : Inv running ∧ running.busy = true ∧ EnginesTurn running := ⟨running_inv, rfl, .inr rfl⟩
/-- A word for each way through the checks, at the boundary values: `LEN` 0 and 5 with `LMAX = 4`, `BBITS` 65 with
`LEN = 1`, a region that ends at 65. -/
theorem witness_IssueChecks :
    idle.busy = false ∧ idle.err = false ∧
    (idle.hostWrite regCmd 0x42).errCode = 1 ∧ (idle.hostWrite regCmd 0x0004000000000010).errCode = 2 ∧
    (State.hostWrite { idle with len := 0 } regCmd 0x10).errCode = 3 ∧
    (State.hostWrite { idle with len := 5 } regCmd 0x10).errCode = 3 ∧
    (State.hostWrite { idle with bbits := 65 } regCmd (encode (.modexp 63 0 1))).errCode = 4 ∧
    (State.hostWrite { idle with ctxv := false } regCmd (encode (.modexp 63 0 1))).errCode = 5 ∧
    (idle.hostWrite regCmd (encode (.modexp 64 0 1))).errCode = 6 ∧
    (idle.hostWrite regCmd (encode (.modexp 63 0 1))).busy = true ∧
    (State.hostWrite { idle with len := 4 } regCmd 0x10).busy = true := by decide
theorem witness_StickyError :
    Inv failed ∧ failed.err = true ∧ failed.busy = false ∧ (∃ t, step failed = .next t) ∧ 63 < failed.params.memWords ∧
    regLmem 63 ≠ regStatus := ⟨failed_inv, rfl, rfl, ⟨_, rfl⟩, by decide, by decide⟩
theorem witness_ClearError :
    failed.busy = false ∧ (0xFFFFFFFFFFFFFFFF#64).getLsbD 0 = true ∧ Inv idle ∧ idle.err = false ∧
    (0xFFFFFFFFFFFFFFFE#64).getLsbD 0 = false := ⟨rfl, by decide, idle_inv, rfl, by decide⟩
theorem witness_ErrorsOnlyAtIssue :
    Inv issuing ∧ issuing.err = false ∧ ∃ t, step issuing = .next t ∧ t.err = true := ⟨issuing_inv, rfl, _, rfl, rfl⟩
theorem witness_BusyLockout : running.busy = true := rfl
/-- Both ends of every range of the register map, with `LMAX = 4` and `MEMWORDS = 64`. -/
theorem witness_HostRegisterMap :
    idle.params.ok ∧ idle.busy = false ∧ idle.err = false ∧ decode (encode (.add 63 0 1)) = .ok (.add 63 0 1) ∧
    issueError (.add 63 0 1) idle = none ∧
    ((0x0008 ≤ (0x0FFF#15).toNat ∧ (0x0FFF#15).toNat ≤ 0x0FFF) ∧ (0x0008#15).toNat = 0x0008) ∧
    ((0x1003#15).toNat = 0x1000 + 3 ∧ 3 < idle.params.lmax) ∧
    ((0x1004#15).toNat = 0x1000 + 4 ∧ idle.params.lmax ≤ 4 ∧ (0x1FFF#15).toNat = 0x1000 + 0xFFF ∧ 0xFFF < 0x1000) ∧
    ((0x2003#15).toNat = 0x2000 + 3 ∧ 3 < idle.params.lmax) ∧
    ((0x2004#15).toNat = 0x2000 + 4 ∧ (0x2FFF#15).toNat = 0x2000 + 0xFFF) ∧
    ((0x3000#15).toNat = 0x3000 ∧ (0x3FFF#15).toNat = 0x3FFF) ∧
    ((0x4003#15).toNat = 0x4000 + 3 ∧ 3 < idle.params.memWords ∧ idle.lmem.read 3 = some 0x100) ∧
    ((0x403F#15).toNat = 0x4000 + 63 ∧ 63 < idle.params.memWords) ∧
    ((0x4040#15).toNat = 0x4000 + 64 ∧ idle.params.memWords ≤ 64 ∧ (0x7FFF#15).toNat = 0x4000 + 0x3FFF) :=
  ⟨by decide, rfl, rfl, rfl, by decide, by decide, by decide, by decide, by decide, by decide, by decide, by decide,
    by decide, by decide⟩
theorem witness_LmemWindow : idle.busy = false ∧ 63 < idle.params.memWords ∧ 63 < 16384 := by decide
theorem witness_LoadBuffer :
    idle.busy = false ∧ idle.params.memWords ≤ 16384 ∧ 60 + [1#64, 2, 3, 4].length ≤ idle.params.memWords := by decide
theorem witness_UnwrittenRead :
    idle.busy = false ∧ 63 < idle.params.memWords ∧ 63 < 16384 ∧ idle.lmem.read 63 = none := by decide
theorem witness_ContextValidFlag :
    (∃ t, step { idle with ctxv := false, cmd := encode (.ctxload 2), busy := true } = .next t ∧ t.ctxv = true) ∧
    (∃ t, step { idle with schedule := [.write regLen 1] } = .next t ∧ t.ctxv = false) ∧
    (∃ t, step { running with schedule := [.reset] } = .next t ∧ t.ctxv = false) ∧ idle.ctxv = true ∧ running.ctxv = true ∧
    idle.busy = false := ⟨⟨_, rfl, rfl⟩, ⟨_, rfl, rfl⟩, ⟨_, rfl, rfl⟩, rfl, rfl, rfl⟩
theorem witness_ContextImmutable :
    (∃ t, step running = .next t) ∧
    (∃ t, step { idle with ctxv := false, cmd := encode (.ctxload 2), busy := true } = .next t) ∧
    ∃ t, step { running with schedule := [.reset] } = .next t := ⟨⟨_, rfl⟩, ⟨_, rfl⟩, ⟨_, rfl⟩⟩

/-- Operands of every result statement, and that they are read. -/
theorem idle_operands :
    idle.operand 0 idle.limbCount = some [32] ∧ idle.operand 1 idle.limbCount = some [112] ∧
    idle.operand 2 idle.limbCount = some [0x3E9] ∧ idle.operand 3 idle.limbCount = some [0x100] ∧
    idle.operand 10 (2 * idle.limbCount) = some [32, 0] := by decide
theorem witness_AddResult : Runs (.add 63 0 1) idle ∧ Runs (.add 0 0 0) idle := ⟨⟨by decide, by decide⟩, by decide, by decide⟩
theorem witness_SubResult : Runs (.sub 63 0 1) idle ∧ Runs (.sub 1 0 1) idle := ⟨⟨by decide, by decide⟩, by decide, by decide⟩
theorem witness_AddmodnResult :
    Runs (.addmodn 63 0 1 2) idle ∧ val [32] < val [0x3E9] ∧ val [112] < val [0x3E9] := ⟨⟨by decide, by decide⟩, by decide⟩
theorem witness_LtmaskResult : Runs (.ltmask 0 1) idle := ⟨by decide, by decide⟩
theorem witness_MulSqrResult : Runs (.mul 62 0 1) idle ∧ Runs (.sqr 62 0) idle := ⟨⟨by decide, by decide⟩, by decide, by decide⟩
theorem witness_KmulKsqrResult :
    Runs (.kmul 58 0 1 60) idle ∧ Runs (.ksqr 58 0 60) idle := ⟨⟨by decide, by decide⟩, by decide, by decide⟩
theorem witness_Precompr2Result : Runs (.precompr2 63 2) idle ∧ val [0x3E9] % 2 = 1 ∧ 3 ≤ val [0x3E9] :=
  ⟨⟨by decide, by decide⟩, by decide⟩
/-- The smallest legal modulus. -/
theorem witness_CtxloadResult :
    Runs (.ctxload 0) (smallState 1 [(0, [3])]) ∧ (smallState 1 [(0, [3])]).operand 0 1 = some [3] ∧ val [3] % 2 = 1 ∧
    3 ≤ val [3] := ⟨⟨by decide, by decide⟩, by decide⟩
theorem witness_RedcResult :
    Runs (.redc 63 10) idle ∧ ContextReady idle ∧
    val [32, 0] < val (idle.modulus idle.limbCount) * 2 ^ (64 * idle.limbCount) :=
  ⟨⟨by decide, by decide⟩, idle_ready, by decide⟩
theorem witness_TomontResult : Runs (.tomont 63 0) idle ∧ Runs (.tomont 0 0) idle ∧ ContextReady idle :=
  ⟨⟨by decide, by decide⟩, ⟨by decide, by decide⟩, idle_ready⟩
theorem witness_FrommontResult : Runs (.frommont 63 0) idle ∧ ContextReady idle := ⟨⟨by decide, by decide⟩, idle_ready⟩
theorem witness_MontmulMontsqrResult :
    Runs (.montmul 63 0 1) idle ∧ Runs (.montsqr 63 0) idle ∧ ContextReady idle ∧
    val [32] * val [112] < val (idle.modulus idle.limbCount) * 2 ^ (64 * idle.limbCount) ∧
    val [32] ^ 2 < val (idle.modulus idle.limbCount) * 2 ^ (64 * idle.limbCount) :=
  ⟨⟨by decide, by decide⟩, ⟨by decide, by decide⟩, idle_ready, by decide⟩
theorem witness_ModexpModexplResult : Runs (.modexp 63 0 1) idle ∧ Runs (.modexpl 63 0 1) idle ∧ ContextReady idle :=
  ⟨⟨by decide, by decide⟩, ⟨by decide, by decide⟩, idle_ready⟩

theorem witness_FrameArithmetic :
    issueError (.add 63 0 1) idle = none ∧ (∃ t, exec (.add 63 0 1) idle = .next t) ∧
    issueError (.sub 63 0 20) idle = none ∧ (∃ t, exec (.sub 63 0 20) idle = .next t) ∧
    issueError (.addmodn 63 0 1 2) idle = none ∧ ∃ t, exec (.addmodn 63 0 1 2) idle = .next t :=
  ⟨by decide, exec_total _ _, by decide, exec_total _ _, by decide, exec_total _ _⟩
theorem witness_FrameRegistersOnly :
    issueError (.ltmask 0 1) idle = none ∧ (∃ t, exec (.ltmask 0 1) idle = .next t) ∧
    issueError (.ctxload 2) idle = none ∧ ∃ t, exec (.ctxload 2) idle = .next t :=
  ⟨by decide, exec_total _ _, by decide, exec_total _ _⟩
theorem witness_FrameMultiplier :
    issueError (.mul 62 0 1) idle = none ∧ (∃ t, exec (.mul 62 0 1) idle = .next t) ∧
    issueError (.ksqr 58 0 60) idle = none ∧ ∃ t, exec (.ksqr 58 0 60) idle = .next t :=
  ⟨by decide, exec_total _ _, by decide, exec_total _ _⟩
theorem witness_FrameMontgomery :
    idle.ctxN.length = idle.params.lmax ∧ idle.ctxR2.length = idle.params.lmax ∧
    issueError (.montmul 63 0 1) idle = none ∧ (∃ t, exec (.montmul 63 0 1) idle = .next t) ∧
    issueError (.redc 63 10) idle = none ∧ ∃ t, exec (.redc 63 10) idle = .next t :=
  ⟨by decide, by decide, by decide, exec_total _ _, by decide, exec_total _ _⟩
theorem witness_FrameExponentiation :
    idle.ctxN.length = idle.params.lmax ∧ idle.ctxR2.length = idle.params.lmax ∧
    issueError (.modexp 63 0 1) idle = none ∧ (∃ t, exec (.modexp 63 0 1) idle = .next t) ∧
    ∃ t, exec (.modexpl 63 0 1) idle = .next t := ⟨by decide, by decide, by decide, exec_total _ _, exec_total _ _⟩
/-- Also a `SUB` that reads a word without a value. -/
theorem witness_CarryFlag :
    Runs (.add 63 0 1) idle ∧ Runs (.sub 63 0 1) idle ∧
    (∀ rd ra rb, Instr.mul 62 0 1 ≠ .add rd ra rb ∧ Instr.mul 62 0 1 ≠ .sub rd ra rb) ∧
    (∃ t, exec (.mul 62 0 1) idle = .next t) ∧
    (issueError (.add 63 0 1) idle = none ∧ ∃ t, exec (.add 63 0 1) idle = .next t) ∧
    issueError (.sub 63 0 20) idle = none ∧ ∃ t, exec (.sub 63 0 20) idle = .next t :=
  ⟨⟨by decide, by decide⟩, ⟨by decide, by decide⟩, fun _ _ _ => ⟨nofun, nofun⟩, exec_total _ _, ⟨by decide, exec_total _ _⟩,
    by decide, exec_total _ _⟩
/-- Also a read of a word without a value. -/
theorem witness_MaskRegister :
    (∀ ra rb, Instr.mul 62 0 1 ≠ .ltmask ra rb) ∧ (∃ t, exec (.mul 62 0 1) idle = .next t) ∧
    issueError (.ltmask 0 63) idle = none ∧ (∃ t, exec (.ltmask 0 63) idle = .next t) ∧ idle.lmem.read 63 = none :=
  ⟨fun _ _ => nofun, exec_total _ _, by decide, exec_total _ _, by decide⟩
theorem witness_ArithmeticLaws :
    Runs (.add 63 0 1) idle ∧ Runs (.sub 62 63 1) idle ∧
    regionsDisjoint ⟨63, idle.limbCount⟩ ⟨1, idle.limbCount⟩ = true ∧ Runs (.sub 63 0 1) idle ∧ Runs (.ltmask 0 1) idle :=
  ⟨⟨by decide, by decide⟩, ⟨by decide, by decide⟩, by decide, ⟨by decide, by decide⟩, by decide, by decide⟩
/-- `L = 32`, where the recursion starts. -/
theorem witness_KaratsubaEqualsSchoolbook :
    Runs (.kmul 64 0 32 128) ka3State ∧ Runs (.ksqr 64 0 128) gaState ∧ ka3State.limbCount = 32 ∧
    (ka3State.operand 0 32).isSome = true ∧ (ka3State.operand 32 32).isSome = true ∧ (gaState.operand 0 32).isSome = true :=
  ⟨⟨by decide, by decide⟩, ⟨by decide, by decide⟩, by decide, by decide +kernel, by decide +kernel, by decide +kernel⟩
theorem witness_MontgomeryForms :
    Runs (.montmul 63 0 1) idle ∧ ContextReady idle ∧
    idle.operand 0 1 = some (limbs 1 (2 * 2 ^ (64 * 1) % val (idle.modulus 1))) ∧
    idle.operand 1 1 = some (limbs 1 (7 * 2 ^ (64 * 1) % val (idle.modulus 1))) ∧
    Runs (.tomont 63 0) idle ∧ Runs (.frommont 62 63) idle :=
  ⟨⟨by decide, by decide⟩, idle_ready, by decide, by decide, ⟨by decide, by decide⟩, by decide, by decide⟩
theorem witness_CompositeCommands :
    ContextReady idle ∧ Runs (.redc 63 20) idle ∧ Runs (.tomont 63 0) idle ∧ Runs (.mul 20 0 3) idle ∧
    idle.operand 3 idle.limbCount = some (idle.rSquared idle.limbCount) ∧ Runs (.montmul 63 0 1) idle ∧
    Runs (.mul 20 0 1) idle ∧ Runs (.montsqr 63 0) idle ∧ Runs (.sqr 20 0) idle ∧
    val [32] * val [112] < val (idle.modulus idle.limbCount) * 2 ^ (64 * idle.limbCount) ∧
    val [32] ^ 2 < val (idle.modulus idle.limbCount) * 2 ^ (64 * idle.limbCount) ∧
    Runs (.redc 63 10) idle ∧ Runs (.frommont 63 0) idle ∧
    idle.operand 10 (2 * idle.limbCount) = some ([32] ++ List.replicate idle.limbCount 0) :=
  ⟨idle_ready, ⟨by decide, by decide⟩, ⟨by decide, by decide⟩, ⟨by decide, by decide⟩, by decide, ⟨by decide, by decide⟩,
    ⟨by decide, by decide⟩, ⟨by decide, by decide⟩, ⟨by decide, by decide⟩, by decide, by decide, ⟨by decide, by decide⟩,
    ⟨by decide, by decide⟩, by decide⟩
theorem witness_ExponentiationsAgree :
    Runs (.modexp 0 0 1) idle ∧ Runs (.modexpl 0 0 1) idle ∧ ContextReady idle :=
  ⟨⟨by decide, by decide⟩, ⟨by decide, by decide⟩, idle_ready⟩
/-- Partial overlaps by one word at `L = 2`, for a command of each kind, and a `PRECOMPR2` onto its own source. -/
theorem witness_OverlapRule :
    (let s : State := { idle with len := 2 }
     (issueError (.add 1 0 10) s = none ∧ aliasingPermitted (.add 1 0 10) s.limbCount = false ∧
       ∀ r ∈ readRegions (.add 1 0 10) s.limbCount, ∃ ws, s.operand r.base r.len = some ws) ∧
     (issueError (.montmul 1 0 10) s = none ∧ aliasingPermitted (.montmul 1 0 10) s.limbCount = false ∧
       needsCtx (.montmul 1 0 10) = true ∧ s.ctxPoisoned = false ∧
       ∀ r ∈ readRegions (.montmul 1 0 10) s.limbCount, ∃ ws, s.operand r.base r.len = some ws)) ∧
    issueError (.precompr2 2 2) idle = none ∧ aliasingPermitted (.precompr2 2 2) idle.limbCount = false ∧
    (∀ r ∈ readRegions (.precompr2 2 2) idle.limbCount, ∃ ws, idle.operand r.base r.len = some ws) ∧
    val [0x3E9] % 2 = 1 ∧ 3 ≤ val [0x3E9] :=
  ⟨⟨⟨by decide, by decide, operandsHeld_iff.1 (by decide)⟩,
    by decide, by decide, by decide, by decide, operandsHeld_iff.1 (by decide)⟩,
    by decide, by decide, operandsHeld_iff.1 (by decide), by decide, by decide⟩
/-- An operand equal to the modulus; a product of exactly `N·R`; the least square above it; a source of exactly `N·R`. -/
theorem witness_UnmetPreconditions_values :
    Runs (.addmodn 63 2 0 2) idle ∧ val [0x3E9] ≤ val [0x3E9] ∧
    (let s := contextState 1 [3] 0x5555555555555555 [1] [(0, [0xC000000000000000]), (1, [4]), (2, [0x1BB67AE86]), (10, [0, 3])]
     s.ctxPoisoned = false ∧
     (Runs (.montmul 63 0 1) s ∧ s.operand 0 1 = some [0xC000000000000000] ∧ s.operand 1 1 = some [4] ∧
       val (s.modulus 1) * 2 ^ (64 * 1) ≤ val [0xC000000000000000] * val [4]) ∧
     (Runs (.montsqr 63 2) s ∧ s.operand 2 1 = some [0x1BB67AE86] ∧
       val (s.modulus 1) * 2 ^ (64 * 1) ≤ val [0x1BB67AE86] ^ 2) ∧
     Runs (.redc 63 10) s ∧ s.operand 10 2 = some [0, 3] ∧ val (s.modulus 1) * 2 ^ (64 * 1) ≤ val [0, 3]) :=
  ⟨⟨by decide, by decide⟩, by decide, by decide, ⟨⟨by decide, by decide⟩, by decide, by decide, by decide⟩,
    ⟨⟨by decide, by decide⟩, by decide, by decide⟩, ⟨by decide, by decide⟩, by decide, by decide⟩
/-- A word without a value: the first source of an `ADD`, its second, the last word of a `REDC`, the modulus of a
`CTXLOAD`. -/
theorem witness_UnmetPreconditions_words :
    issueError (.add 62 63 0) idle = none ∧ issueError (.add 62 0 63) idle = none ∧
    inRegion ⟨63, idle.limbCount⟩ 63 = true ∧ idle.lmem.read 63 = none ∧
    (issueError (.redc 63 3) idle = none ∧ (∃ r ∈ readRegions (.redc 63 3) idle.limbCount, inRegion r 4 = true) ∧
      idle.lmem.read 4 = none ∧ ∃ t, exec (.redc 63 3) idle = .next t) ∧
    issueError (.ctxload 63) idle = none ∧ ∃ t, exec (.ctxload 63) idle = .next t :=
  ⟨by decide, by decide, by decide, by decide, ⟨by decide, by decide, by decide, exec_total _ _⟩, by decide, exec_total _ _⟩
/-- The moduli 0, 1, 2 and 1000, and a poisoned context. -/
theorem witness_IllegalModulus :
    issueError (.ctxload 0) (smallState 1 [(0, [1000])]) = none ∧ (smallState 1 [(0, [1000])]).operand 0 1 = some [1000] ∧
    (val [0#64] % 2 = 0 ∧ val [1#64] < 3 ∧ val [2#64] < 3 ∧ val [1000#64] % 2 = 0) ∧
    (∃ t, exec (.ctxload 0) (smallState 1 [(0, [1000])]) = .next t) ∧
    issueError (.precompr2 63 0) (smallState 1 [(0, [1])]) = none ∧ (smallState 1 [(0, [1])]).operand 0 1 = some [1] ∧
    (∃ t, exec (.precompr2 63 0) (smallState 1 [(0, [1])]) = .next t) ∧
    needsCtx (.redc 63 10) = true ∧ poisoned.ctxPoisoned = true ∧ issueError (.redc 63 10) poisoned = none ∧
    ∃ t, exec (.redc 63 10) poisoned = .next t :=
  ⟨by decide, by decide, ⟨rfl, by decide, by decide, rfl⟩, exec_total _ _, by decide, by decide, exec_total _ _, by decide,
    by decide, by decide, exec_total _ _⟩
/-- The shortest and the longest string of two limbs, the ends of the ranges of limbs and bytes, and a value that just fits
nine bytes. -/
theorem witness_BufferToBytes :
    let b := [0xFFFFFFFFFFFFFFFF#64, 0xFF#64]
    1 ≤ b.length ∧ 1 < b.length ∧ 7 < 8 ∧ 8 * (b.length - 1) < 9 ∧ 9 ≤ 8 * b.length ∧ 16 ≤ 8 * b.length ∧
    val b < 256 ^ 9 ∧ ¬val [0#64, 0x100#64] < 256 ^ 9 := by decide
theorem witness_SerializationRoundTrip :
    (1 ≤ [7#64].length ∧ [7#64].length ≤ 1) ∧ (1 ≤ [0#8].length ∧ [0#8].length ≤ 8 * 1) ∧
    (List.replicate 8 0xFF#8).length ≤ 8 * 1 := by decide

end Sys2Proof.Tests
end

section
/-! PROOF. What the turns of a step are (spec/20_memory.md R74), and what the engine runs (spec/10_state.md R40). -/

open Sys2Proof.Claims

namespace Sys2Proof.Machine

/-- With an empty schedule there is no turn to take off. -/
theorem State.dropTurn_of_empty {s : State} (h : s.schedule = []) : s.dropTurn = s := by
  cases s
  simp only at h
  simp [State.dropTurn, h]

/-- A step whose next turn is listed takes that turn. -/
theorem step_of_nextTurn {s : State} {m : Turn} (h : NextTurn s m) : step s = takeTurn m s.dropTurn := by
  obtain ⟨rest, hs⟩ := List.head?_eq_some_iff.1 h
  simp only [step, hs]

/-- A step that is the engine's is its turn, in the state without the turn. -/
theorem step_of_enginesTurn {s : State} (h : EnginesTurn s) : step s = engineTurn s.dropTurn := by
  obtain hs | hm := h
  · simp only [step, hs, State.dropTurn_of_empty hs]
  · exact step_of_nextTurn hm

/-- A step is the engine's turn or an access of host or platform. -/
theorem step_turns {s t : State} (h : step s = .next t) :
    (EnginesTurn s ∧ engineTurn s.dropTurn = .next t) ∨
    (∃ reg, NextTurn s (.read reg) ∧ t = s.dropTurn.hostRead reg) ∨
    (∃ reg v, NextTurn s (.write reg v) ∧ t = s.dropTurn.hostWrite reg v) ∨
    (NextTurn s .reset ∧ t = s.dropTurn.takeReset) := by
  obtain ⟨hs, -⟩ | ⟨m, rest, hs, ht⟩ := step_cases h
  · exact .inl ⟨.inl hs, step_of_enginesTurn (.inl hs) ▸ h⟩
  have hm : NextTurn s m := by simp [NextTurn, hs]
  cases m with
  | engine => exact .inl ⟨.inr hm, ht⟩
  | read reg =>
    simp only [takeTurn, Host.Outcome.next.injEq] at ht
    exact .inr (.inl ⟨reg, hm, ht.symm⟩)
  | write reg v =>
    simp only [takeTurn, Host.Outcome.next.injEq] at ht
    exact .inr (.inr (.inl ⟨reg, v, hm, ht.symm⟩))
  | reset =>
    simp only [takeTurn, Host.Outcome.next.injEq] at ht
    exact .inr (.inr (.inr ⟨hm, ht.symm⟩))

/-- With a command in flight the engine's turn is `exec` of it. -/
theorem engineTurn_of_busy {s : State} {i : Instr} (hb : s.busy = true) (hd : decode s.cmd = .ok i) :
    engineTurn s = exec i s := by
  simp only [engineTurn, hb, if_true, runLatch, hd]

/-- With no command in flight the engine keeps all state (R225). -/
theorem engineTurn_of_idle {s : State} (hb : s.busy = false) : engineTurn s = .next s := by
  simp [engineTurn, hb]

/-- A write of `CMD` issues the command, unless one is in flight (R64). -/
theorem hostWrite_regCmd (s : State) (w : Word) : s.hostWrite regCmd w = if s.busy then s else s.issue w := by
  simp [State.hostWrite]

end Sys2Proof.Machine
end

section
/-! PROOF. The invariant: it holds after reset, and every update a step is made of keeps it. -/

namespace Sys2Proof.Machine

/-- The invariant holds after reset (R39) for every legal choice of the parameters (R7). -/
theorem Inv.resetWith {p : Params} (h : p.ok) : Inv (State.resetWith p) where
  params     := h
  memory     := rfl
  memBound   := fun _ hc => (List.not_mem_nil hc).elim
  ctxNLength := List.length_replicate
  ctxRLength := List.length_replicate
  latch      := .inl rfl
  inFlight   := nofun
  noError    := fun _ => ⟨rfl, rfl⟩
  error      := nofun
  mask       := .inl rfl
  ctxLength  := nofun
  ctxLegal   := nofun
  ctxPadding := nofun

/-- The invariant does not speak of the count of free values, the schedule and what the host read. -/
theorem Inv.withOwn {s : State} (h : Inv s) (ctr : Nat) (turns : List Turn) (out : Option Word) :
    Inv { s with freeCtr := ctr, schedule := turns, readOut := out } :=
  ⟨h.params, h.memory, h.memBound, h.ctxNLength, h.ctxRLength, h.latch, h.inFlight, h.noError, h.error, h.mask,
    h.ctxLength, h.ctxLegal, h.ctxPadding⟩

theorem Inv.dropTurn {s : State} (h : Inv s) : Inv s.dropTurn := h.withOwn _ _ _

theorem Inv.takeReset {s : State} (h : Inv s) : Inv s.takeReset := (Inv.resetWith h.params).withOwn _ _ _

/-- A host read keeps the invariant. -/
theorem Inv.hostRead {s : State} (h : Inv s) (reg : BitVec 15) : Inv (s.hostRead reg) := by
  obtain ⟨v, hv⟩ | ⟨-, -, hv⟩ := hostRead_cases s reg
  · rw [hv]; exact h.withOwn _ _ _
  · rw [hv]; exact h.withOwn _ _ _

/-- Taking an error keeps the invariant, if its code fits its word (R211). -/
theorem Inv.takeError {s : State} (h : Inv s) {e : IssueError} {w : Word}
    (he : decode w = .error e ∨ (e ≠ .op ∧ e ≠ .rsvd ∧ ∃ i, decode w = .ok i)) : Inv (s.takeError e w) where
  params     := h.params
  memory     := h.memory
  memBound   := h.memBound
  ctxNLength := h.ctxNLength
  ctxRLength := h.ctxRLength
  latch      := h.latch
  inFlight   := nofun
  noError    := nofun
  error      := fun _ => ⟨e, rfl, he⟩
  mask       := h.mask
  ctxLength  := h.ctxLength
  ctxLegal   := h.ctxLegal
  ctxPadding := h.ctxPadding

/-- Latching a command that has passed its checks keeps the invariant. -/
theorem Inv.accept {s : State} (h : Inv s) {i : Instr} {w : Word} (herr : s.err = false) (hd : decode w = .ok i)
    (hi : issueError i s = none) : Inv (s.accept w) :=
  { h with
    latch    := .inr ⟨i, hd⟩
    inFlight := fun _ => ⟨herr, i, hd, hi⟩ }

theorem Inv.issue {s : State} (h : Inv s) (w : Word) : Inv (s.issue w) := by
  obtain ⟨-, hw⟩ | ⟨-, e, hd, hw⟩ | ⟨-, i, e, hd, hi, hw⟩ | ⟨herr, i, hd, hi, hw⟩ := issue_cases s w
  · rw [hw]; exact h
  · rw [hw]; exact h.takeError (.inl hd)
  · obtain ⟨hop, hrsvd⟩ := issueError_ne_decode hi
    rw [hw]; exact h.takeError (.inr ⟨hop, hrsvd, i, hd⟩)
  · rw [hw]; exact h.accept herr hd hi

theorem Inv.clearError {s : State} (h : Inv s) : Inv s.clearError :=
  { h with
    inFlight := fun hb => ⟨rfl, (h.inFlight hb).2⟩
    noError  := fun _ => ⟨rfl, rfl⟩
    error    := nofun }

/-- `LEN` is written while no command runs, and the context is then no longer valid (R24, R33). -/
theorem Inv.setLen {s : State} (h : Inv s) (hb : s.busy = false) (v : Word) : Inv (s.setLen v) :=
  { h with
    inFlight   := fun ht => absurd (hb.symm.trans ht) nofun
    ctxLength  := nofun
    ctxLegal   := nofun
    ctxPadding := nofun }

theorem Inv.setBbits {s : State} (h : Inv s) (hb : s.busy = false) (v : Word) : Inv (s.setBbits v) :=
  { h with inFlight := fun ht => absurd (hb.symm.trans ht) nofun }

theorem Inv.setWord {s : State} (h : Inv s) {w : Nat} (hw : w < s.params.memWords) (v : Word) : Inv (s.setWord w v) :=
  { h with
    memory   := Memory.wf_write h.memory w v
    memBound := Memory.bound_write v h.memBound hw }

/-- A host write keeps the invariant. -/
theorem Inv.hostWrite {s : State} (h : Inv s) (reg : BitVec 15) (v : Word) : Inv (s.hostWrite reg v) := by
  obtain hw | ⟨-, -, hw⟩ | ⟨-, -, -, hw⟩ | ⟨hb, -, hw⟩ | ⟨hb, -, hw⟩ | ⟨-, w, hlt, -, hw⟩ := hostWrite_cases s reg v
  · rw [hw]; exact h
  · rw [hw]; exact h.issue v
  · rw [hw]; exact h.clearError
  · rw [hw]; exact h.setLen hb v
  · rw [hw]; exact h.setBbits hb v
  · rw [hw]; exact h.setWord hlt v

/-- The part of the invariant that speaks of the Montgomery context (R30 to R33). -/
structure ContextInv (s : State) : Prop where
  files   : ContextFiles s
  length  : s.ctxv = true → 1 ≤ s.limbCount ∧ s.limbCount ≤ s.params.lmax
  legal   : s.ctxv = true → s.ctxPoisoned = false →
              ContextFor (s.modulus s.limbCount) s.ctxNinv (s.rSquared s.limbCount)
  padding : s.ctxv = true → s.ctxPoisoned = false →
              s.ctxN.drop s.limbCount = List.replicate (s.params.lmax - s.limbCount) 0#64 ∧
              s.ctxR2.drop s.limbCount = List.replicate (s.params.lmax - s.limbCount) 0#64

theorem Inv.contextInv {s : State} (h : Inv s) : ContextInv s :=
  ⟨⟨h.ctxNLength, h.ctxRLength⟩, h.ctxLength, h.ctxLegal, h.ctxPadding⟩

theorem SameHostSide.limbCount {s t : State} (h : SameHostSide s t) : t.limbCount = s.limbCount :=
  congrArg BitVec.toNat h.len

/-- The issue checks depend on the host's registers, the parameters and `CTXV` only. -/
theorem issueError_congr {s t : State} (i : Instr) (h : SameHostSide s t) (hv : t.ctxv = s.ctxv) :
    issueError i t = issueError i s := by
  simp only [issueError, h.limbCount, h.params, h.bbits, hv]

theorem ContextInv.of_same {s t : State} (h : ContextInv s) (hh : SameHostSide s t) (hc : SameContext s t) :
    ContextInv t := by
  obtain ⟨⟨hN, hR⟩, hlen, hleg, hpad⟩ := h
  constructor
  · exact ⟨by rw [hc.ctxN, hh.params, hN], by rw [hc.ctxR2, hh.params, hR]⟩
  · rwa [hc.ctxv, hh.limbCount, hh.params]
  · rwa [hc.ctxv, hc.ctxPoisoned, hh.limbCount, hc.ctxNinv, State.modulus, State.rSquared, hc.ctxN, hc.ctxR2]
  · rwa [hc.ctxv, hc.ctxPoisoned, hh.limbCount, hh.params, hc.ctxN, hc.ctxR2]

/-- The context `CTXLOAD` builds of a legal modulus of `L` limbs (R166). -/
theorem ContextInv.loadContext {s : State} {n : List Word} (hn : n.length = s.limbCount) (h1 : 1 ≤ s.limbCount)
    (hL : s.limbCount ≤ s.params.lmax) (hodd : val n % 2 = 1) (h3 : 3 ≤ val n) :
    ContextInv (s.loadContext n).complete := by
  have hr := precomputeR2_length n
  have hmod : (s.loadContext n).complete.modulus s.limbCount = n := by
    rw [← hn]; exact padTo_take
  have hrsq : (s.loadContext n).complete.rSquared s.limbCount = precomputeR2 n := by
    rw [← hn, ← hr]; exact padTo_take
  constructor
  · exact ⟨padTo_length (by omega), padTo_length (by omega)⟩
  · exact fun _ => ⟨h1, hL⟩
  · intro _ _
    simp only [State.complete_limbCount, State.loadContext_limbCount, hmod, hrsq]
    exact contextFor_built hodd h3
  · intro _ _
    constructor
    · simpa [hn] using padTo_drop (lmax := s.params.lmax) (ws := n)
    · simpa [hn] using padTo_drop (lmax := s.params.lmax) (ws := precomputeR2 n)

/-- A poisoned context has its `LMAX` limbs, and nothing more is known of it (U1). -/
theorem ContextInv.poisonContext {s : State} (ra : Nat) (h1 : 1 ≤ s.limbCount) (hL : s.limbCount ≤ s.params.lmax) :
    ContextInv (s.poisonContext ra) :=
  ⟨poisonContext_files hL ra, fun _ => ⟨h1, hL⟩, nofun, nofun⟩

/-- What the completion of a command does to the context, and that `CTXV` keeps its value while it has not completed. -/
theorem ContextInv.exec {i : Instr} {s t : State} (h : ContextInv s) (hi : issueError i s = none)
    (ht : exec i s = .next t) : ContextInv t ∧ (t.busy = true → t.ctxv = s.ctxv) := by
  have hc := exec_completion ht hi
  by_cases hl : ∃ ra, i = .ctxload ra
  · obtain ⟨ra, rfl⟩ := hl
    obtain ⟨h1, hL, -⟩ := issueError_none hi
    obtain ⟨n, ho, hodd, h3, rfl⟩ | ⟨-, rfl | rfl⟩ := ctxload_cases ht hi
    · exact ⟨.loadContext (operand_length ho) h1 hL hodd h3, nofun⟩
    · exact ⟨.poisonContext ra h1 hL, nofun⟩
    · exact ⟨⟨h.files, h.length, h.legal, h.padding⟩, fun _ => rfl⟩
  · have hsame := hc.context fun ra hra => hl ⟨ra, hra⟩
    exact ⟨h.of_same hc.host hsame, fun _ => hsame.ctxv⟩

/-- The completion of a command in flight keeps the invariant. -/
theorem Inv.exec {i : Instr} {s t : State} (h : Inv s) (hd : decode s.cmd = .ok i) (hi : issueError i s = none)
    (ht : exec i s = .next t) : Inv t := by
  obtain ⟨hctx, hv⟩ := h.contextInv.exec hi ht
  obtain ⟨-, -, -, -, hregions⟩ := issueError_none hi
  have hc := exec_completion ht hi
  have hh := hc.host
  exact {
    params     := by rw [hh.params]; exact h.params
    memory     := hc.memory h.memory
    memBound   := by
      rw [hh.params]
      exact hc.memBound (fun _ => h.contextInv.files) (fun r hr => hregions r (written_mem_commandRegions hr)) h.memBound
    ctxNLength := hctx.files.1
    ctxRLength := hctx.files.2
    latch      := by rw [hh.cmd]; exact h.latch
    inFlight   := fun hb => by
      rw [hh.err, hh.cmd]
      exact ⟨(h.inFlight (hc.busy hb)).1, i, hd, (issueError_congr i hh (hv hb)).trans hi⟩
    noError    := by rw [hh.err, hh.errCode, hh.errCmd]; exact h.noError
    error      := by rw [hh.err, hh.errCode, hh.errCmd]; exact h.error
    mask       := by
      obtain hm | hm := hc.verdict
      · rw [hm]; exact h.mask
      · exact hm
    ctxLength  := hctx.length
    ctxLegal   := hctx.legal
    ctxPadding := hctx.padding }

/-- The engine's turn keeps the invariant: a command in flight is one the decoder accepts, with its checks passed. -/
theorem Inv.engineTurn {s t : State} (h : Inv s) (ht : engineTurn s = .next t) : Inv t := by
  obtain ⟨-, rfl⟩ | ⟨hb, i, hd, ht⟩ | ⟨hb, e, hd, -⟩ := engineTurn_cases ht
  · exact h
  · obtain ⟨-, j, hj, hi⟩ := h.inFlight hb
    obtain rfl : j = i := by simpa [hd] using hj.symm
    exact h.exec hd hi ht
  · obtain ⟨-, j, hj, -⟩ := h.inFlight hb
    simp [hd] at hj

/-- Every step keeps the invariant. -/
theorem Inv.step {s t : State} (h : Inv s) (ht : step s = .next t) : Inv t := by
  obtain ⟨-, ht⟩ | ⟨reg, -, rfl⟩ | ⟨reg, v, -, rfl⟩ | ⟨-, rfl⟩ := step_turns ht
  · exact h.dropTurn.engineTurn ht
  · exact h.dropTurn.hostRead reg
  · exact h.dropTurn.hostWrite reg v
  · exact h.dropTurn.takeReset

end Sys2Proof.Machine
end

section
/-! PROOF. The bits of `STATUS` (spec/10_state.md R23). -/

namespace Sys2Proof.Machine

/-- The four flags of `STATUS`, bits 3 to 0. -/
def statusFlags (s : State) : Nat := s.busy.toNat + 2 * s.err.toNat + 4 * s.cy.toNat + 8 * s.ctxv.toNat

theorem statusFlags_lt (s : State) : statusFlags s < 2 ^ 4 := by
  have h1 := Bool.toNat_lt s.busy
  have h2 := Bool.toNat_lt s.err
  have h3 := Bool.toNat_lt s.cy
  have h4 := Bool.toNat_lt s.ctxv
  simp only [statusFlags]
  omega

theorem statusFlags_testBit (s : State) (k : Nat) : (statusFlags s).testBit k =
    (if k = 0 then s.busy else if k = 1 then s.err else if k = 2 then s.cy else if k = 3 then s.ctxv else false) := by
  rcases Nat.lt_or_ge k 4 with hk | hk
  · simp only [statusFlags]
    generalize s.busy = busy, s.err = err, s.cy = cy, s.ctxv = ctxv
    revert k busy err cy ctxv
    decide
  · rw [Nat.testBit_lt_two_pow ((statusFlags_lt s).trans_le (Nat.pow_le_pow_right (by decide) hk)), if_neg (by omega),
      if_neg (by omega), if_neg (by omega), if_neg (by omega)]

/-- Below bit 8 `STATUS` is its flags, from bit 8 on it is `ERRCODE`. -/
theorem statusWord_getLsbD (s : State) (k : Nat) : (statusWord s).getLsbD k =
    if k < 8 then (statusFlags s).testBit k else s.errCode.getLsbD (k - 8) := by
  have hval : (statusWord s).toNat = 2 ^ 8 * s.errCode.toNat + statusFlags s := by
    rw [statusWord_toNat, statusFlags]; omega
  have hlt : statusFlags s < 2 ^ 8 := (statusFlags_lt s).trans (by decide)
  rw [← BitVec.testBit_toNat, hval, Nat.testBit_two_pow_mul_add _ hlt, BitVec.testBit_toNat]

end Sys2Proof.Machine
end

section
/-! PROOF. The host's side of a command line (spec/30_encoding.md R100): the decoder reads an encoded command back, a
write of `CMD` issues it, and polling `STATUS` changes nothing but what the host was handed. -/

namespace Sys2Proof.Machine

/-- The five fields of an encoded command are those R91 gives it. -/
theorem fieldsOf_encode : ∀ i : Instr, Laws.Fields.Statement i
  | .add rd ra rb        => Laws.Fields.add rd ra rb
  | .sub rd ra rb        => Laws.Fields.sub rd ra rb
  | .addmodn rd ra rb rc => Laws.Fields.addmodn rd ra rb rc
  | .ltmask ra rb        => Laws.Fields.ltmask ra rb
  | .mul rd ra rb        => Laws.Fields.mul rd ra rb
  | .sqr rd ra           => Laws.Fields.sqr rd ra
  | .kmul rd ra rb rc    => Laws.Fields.kmul rd ra rb rc
  | .ksqr rd ra rc       => Laws.Fields.ksqr rd ra rc
  | .precompr2 rd ra     => Laws.Fields.precompr2 rd ra
  | .ctxload ra          => Laws.Fields.ctxload ra
  | .redc rd ra          => Laws.Fields.redc rd ra
  | .tomont rd ra        => Laws.Fields.tomont rd ra
  | .frommont rd ra      => Laws.Fields.frommont rd ra
  | .montmul rd ra rb    => Laws.Fields.montmul rd ra rb
  | .montsqr rd ra       => Laws.Fields.montsqr rd ra
  | .modexp rd ra rb     => Laws.Fields.modexp rd ra rb
  | .modexpl rd ra rb    => Laws.Fields.modexpl rd ra rb

/-- The decoder gives a well-formed command back from its word (R91 to R94). -/
theorem decode_encode {i : Instr} (h : i.wellFormed = true) : decode (encode i) = .ok i := by
  have hf := fieldsOf_encode i h
  cases i
  all_goals
    simp only [Laws.Fields.fieldsOf, Laws.Fields.expected, Instr.opcode, List.cons.injEq] at hf
    obtain ⟨hop, hrd, hra, hrb, hrc, -⟩ := hf
    simp [decode, hop, hrd, hra, hrb, hrc, withReservedZero]

/-- A command that passes its checks is latched (R212 step 7). -/
theorem issue_of_checks {s : State} {i : Instr} {w : Word} (herr : s.err = false) (hd : decode w = .ok i)
    (hi : issueError i s = none) : s.issue w = s.accept w := by
  simp [State.issue, herr, hd, hi]

/-- `STATUS` can be read at any time (R64). -/
theorem hostRead_regStatus (s : State) : s.hostRead regStatus = s.answer (statusWord s) := by
  simp [State.hostRead, State.readReg]

theorem steps_succ_of_next {s t : State} (k : Nat) (h : step s = .next t) : steps (k + 1) s = steps k t := by
  simp only [steps, h]

theorem steps_one (s : State) : steps 1 s = step s := by
  simp only [steps]
  cases step s <;> rfl

/-- Polling while a command is in flight, then the engine's turn: each poll hands the host the same `STATUS`, and the
engine completes the command. -/
theorem steps_polls {i : Instr} (rest : List Turn) (polls : Nat) {s : State} (hb : s.busy = true)
    (hd : decode s.cmd = .ok i)
    (hs : s.schedule = List.replicate polls (.read regStatus) ++ .engine :: rest) :
    steps (polls + 1) s =
      exec i { s with
        schedule := rest
        readOut  := if polls = 0 then s.readOut else some (statusWord s) } := by
  induction polls generalizing s with
  | zero =>
    rw [steps_one, step_of_nextTurn (m := .engine) (by simp [Claims.NextTurn, hs]), takeTurn,
      engineTurn_of_busy (s := s.dropTurn) hb hd, State.dropTurn, hs]
    rfl
  | succ polls ih =>
    have hstep : step s = .next (s.dropTurn.answer (statusWord s)) := by
      rw [step_of_nextTurn (m := .read regStatus) (by simp [Claims.NextTurn, hs, List.replicate_succ]), takeTurn,
        hostRead_regStatus]
      rfl
    rw [steps_succ_of_next _ hstep,
      ih (s := s.dropTurn.answer (statusWord s)) hb hd (by simp [hs, List.replicate_succ])]
    simp only [State.answer_readOut, if_neg (Nat.succ_ne_zero polls)]
    congr 2
    split <;> rfl

/-- The host issues a command that passes its checks, polls, and the engine completes it (R40, R100). -/
theorem steps_commandLine {s : State} {i : Instr} (polls : Nat) (rest : List Turn) (hw : i.wellFormed = true)
    (hb : s.busy = false) (herr : s.err = false) (hi : issueError i s = none)
    (hs : s.schedule = .write regCmd (encode i) :: (List.replicate polls (.read regStatus) ++ .engine :: rest)) :
    steps (polls + 2) s =
      exec i { s.accept (encode i) with
        schedule := rest
        readOut  := if polls = 0 then s.readOut else some (statusWord (s.accept (encode i))) } := by
  have hd := decode_encode hw
  have hissue : s.dropTurn.hostWrite regCmd (encode i) = s.dropTurn.accept (encode i) := by
    rw [hostWrite_regCmd, State.dropTurn_busy, hb]
    exact issue_of_checks herr hd hi
  have hstep : step s = .next (s.dropTurn.accept (encode i)) := by
    rw [step_of_nextTurn (m := .write regCmd (encode i)) (by simp [Claims.NextTurn, hs]), takeTurn, hissue]
  rw [steps_succ_of_next _ hstep, steps_polls rest polls (i := i) rfl hd (by simp [hs])]
  rfl

end Sys2Proof.Machine
end

section
/-! PROOF. What a step can do to the Montgomery context (spec/10_state.md R24, R33, R34). -/

open Sys2Proof.Claims

namespace Sys2Proof.Machine

/-- The issue of a command leaves the context alone. -/
theorem issue_context (s : State) (w : Word) : SameContext s (s.issue w) := by
  obtain ⟨-, hw⟩ | ⟨-, e, -, hw⟩ | ⟨-, i, e, -, -, hw⟩ | ⟨-, i, -, -, hw⟩ := issue_cases s w
  all_goals rw [hw]; exact ⟨rfl, rfl, rfl, rfl, rfl⟩

/-- A host read leaves the context alone. -/
theorem hostRead_context (s : State) (reg : BitVec 15) : SameContext s (s.hostRead reg) := by
  obtain ⟨v, hv⟩ | ⟨-, -, hv⟩ := hostRead_cases s reg
  all_goals rw [hv]; exact ⟨rfl, rfl, rfl, rfl, rfl⟩

/-- A host write that is not a write of `LEN` while no command runs leaves the context alone. -/
theorem hostWrite_context (s : State) (reg : BitVec 15) (v : Word) :
    SameContext s (s.hostWrite reg v) ∨ (s.busy = false ∧ reg = regLen ∧ s.hostWrite reg v = s.setLen v) := by
  obtain hw | ⟨-, -, hw⟩ | ⟨-, -, -, hw⟩ | ⟨hb, hr, hw⟩ | ⟨-, -, hw⟩ | ⟨-, w, -, -, hw⟩ := hostWrite_cases s reg v
  · rw [hw]; exact .inl (SameContext.rfl s)
  · rw [hw]; exact .inl (issue_context s v)
  · rw [hw]; exact .inl ⟨rfl, rfl, rfl, rfl, rfl⟩
  · exact .inr ⟨hb, hostReg_eq_len.1 hr, hw⟩
  · rw [hw]; exact .inl ⟨rfl, rfl, rfl, rfl, rfl⟩
  · rw [hw]; exact .inl ⟨rfl, rfl, rfl, rfl, rfl⟩

/-- No command but `CTXLOAD` writes the context, and `CTXLOAD` never clears `CTXV`. -/
theorem exec_context {i : Instr} {s t : State} (h : exec i s = .next t) :
    SameContext s t ∨ ((∃ ra, i = .ctxload ra) ∧ t.ctxv = true) := by
  cases hi : issueError i s with
  | some e =>
    rw [exec_of_issueError hi] at h
    cases h
    exact .inl ⟨rfl, rfl, rfl, rfl, rfl⟩
  | none =>
    by_cases hc : ∃ ra, i = .ctxload ra
    · obtain ⟨ra, rfl⟩ := hc
      obtain ⟨n, -, -, -, rfl⟩ | ⟨-, rfl | rfl⟩ := ctxload_cases h hi
      · exact .inr ⟨⟨ra, rfl⟩, rfl⟩
      · exact .inr ⟨⟨ra, rfl⟩, rfl⟩
      · exact .inl ⟨rfl, rfl, rfl, rfl, rfl⟩
    · exact .inl ((exec_completion h hi).context fun ra hra => hc ⟨ra, hra⟩)

/-- The engine's turn writes the context only with a `CTXLOAD` in flight. -/
theorem engineTurn_context {s t : State} (h : engineTurn s = .next t) :
    SameContext s t ∨ (s.busy = true ∧ (∃ ra, decode s.cmd = .ok (.ctxload ra)) ∧ t.ctxv = true) := by
  obtain ⟨-, rfl⟩ | ⟨hb, i, hd, hx⟩ | ⟨-, e, -, rfl⟩ := engineTurn_cases h
  · exact .inl (SameContext.rfl _)
  · obtain hsame | ⟨⟨ra, rfl⟩, hv⟩ := exec_context hx
    · exact .inl hsame
    · exact .inr ⟨hb, ⟨ra, hd⟩, hv⟩
  · exact .inl ⟨rfl, rfl, rfl, rfl, rfl⟩

/-- A step leaves the context alone, or it is the engine's completion of a `CTXLOAD`, a write of `LEN` while no command
runs, or a reset. -/
theorem step_context {s t : State} (h : step s = .next t) :
    SameContext s t ∨
    (EnginesTurn s ∧ s.busy = true ∧ (∃ ra, decode s.cmd = .ok (.ctxload ra)) ∧ t.ctxv = true) ∨
    (s.busy = false ∧ ∃ v, NextTurn s (.write regLen v) ∧ t = s.dropTurn.setLen v) ∨
    (NextTurn s .reset ∧ t = s.dropTurn.takeReset) := by
  obtain ⟨hm, ht⟩ | ⟨reg, -, rfl⟩ | ⟨reg, v, hm, rfl⟩ | hreset := step_turns h
  · obtain ⟨h1, h2, h3, h4, h5⟩ | hload := engineTurn_context ht
    · exact .inl ⟨h1, h2, h3, h4, h5⟩
    · exact .inr (.inl ⟨hm, hload⟩)
  · obtain ⟨h1, h2, h3, h4, h5⟩ := hostRead_context s.dropTurn reg
    exact .inl ⟨h1, h2, h3, h4, h5⟩
  · obtain ⟨h1, h2, h3, h4, h5⟩ | ⟨hb, rfl, hw⟩ := hostWrite_context s.dropTurn reg v
    · exact .inl ⟨h1, h2, h3, h4, h5⟩
    · exact .inr (.inr (.inl ⟨hb, v, hm, hw⟩))
  · exact .inr (.inr (.inr hreset))

/-- A write of `LEN` while no command runs. -/
theorem hostWrite_regLen {s : State} (hb : s.busy = false) (v : Word) : s.hostWrite regLen v = s.setLen v := by
  simp [State.hostWrite, hb]

end Sys2Proof.Machine
end

section
/-! PROOF. `CY` and `MASK`: a command that does not write the flag neither reads nor changes it, and one that writes it
does the same whatever it held (spec/10_state.md R27, R28). -/

open Sys2Proof.Claims

namespace Sys2Proof.Machine

/-- An update of a field that the effect of the command neither reads nor writes. -/
structure Blind (i : Instr) (p : State → State) : Prop extends Passive i p where
  ctxN     : ∀ s, (p s).ctxN = s.ctxN
  ctxNinv  : ∀ s, (p s).ctxNinv = s.ctxNinv
  ctxR2    : ∀ s, (p s).ctxR2 = s.ctxR2
  bbits    : ∀ s, (p s).bbits = s.bbits
  store    : ∀ s base ws, (p s).store base ws = p (s.store base ws)
  forget   : ∀ s r, (p s).forget r = p (s.forget r)
  load     : ∀ s n, (p s).loadContext n = p (s.loadContext n)
  poison   : ∀ s ra, (p s).poisonContext ra = p (s.poisonContext ra)
  setCy    : writesCy i = true → ∀ s c, { p s with cy := c } = p { s with cy := c }
  setMask  : writesMask i = true → ∀ s m, { p s with mask := m } = p { s with mask := m }

/-- `CY` for every command but `ADD` and `SUB`. -/
theorem blind_cy {i : Instr} (c : Bool) (h : writesCy i = false) : Blind i fun s => { s with cy := c } where
  toPassive := passive_cy c h
  ctxN      := fun _ => rfl
  ctxNinv   := fun _ => rfl
  ctxR2     := fun _ => rfl
  bbits     := fun _ => rfl
  store     := fun _ _ _ => rfl
  forget    := fun _ _ => rfl
  load      := fun _ _ => rfl
  poison    := fun _ _ => rfl
  setCy     := fun hw => absurd (h.symm.trans hw) nofun
  setMask   := fun _ _ _ => rfl

/-- `MASK` for every command but `LTMASK`. -/
theorem blind_mask {i : Instr} (m : Word) (h : writesMask i = false) : Blind i fun s => { s with mask := m } where
  toPassive := passive_mask m h
  ctxN      := fun _ => rfl
  ctxNinv   := fun _ => rfl
  ctxR2     := fun _ => rfl
  bbits     := fun _ => rfl
  store     := fun _ _ _ => rfl
  forget    := fun _ _ => rfl
  load      := fun _ _ => rfl
  poison    := fun _ _ => rfl
  setCy     := fun _ _ _ => rfl
  setMask   := fun hw => absurd (h.symm.trans hw) nofun

/-- A command does the same with and without an update it is blind to. -/
theorem Blind.exec {i : Instr} {p : State → State} (h : Blind i p) {s t : State} (ht : exec i s = .next t) :
    exec i (p s) = .next (p t) := by
  have hop : ∀ base n, (p s).operand base n = s.operand base n := fun base n => by
    rw [State.operand, State.operand, h.lmem]
  have hN : ∀ n, (p s).modulus n = s.modulus n := fun n => by rw [State.modulus, State.modulus, h.ctxN]
  have hR : ∀ n, (p s).rSquared n = s.rSquared n := fun n => by rw [State.rSquared, State.rSquared, h.ctxR2]
  cases i
  case precompr2 rd ra => exact h.modulusCommand h.unspecified (fun _ => h.store _ _ _) ht
  case ctxload ra => exact h.modulusCommand (fun _ => h.poison _ _) (fun _ => h.load _ _) ht
  case add | sub =>
    simp only [Machine.exec, execAdd, execSub] at ht ⊢
    refine h.command ?_ ht
    simp only [hop, h.store, h.setCy rfl]
    split <;> rfl
  case ltmask =>
    simp only [Machine.exec, execLtmask] at ht ⊢
    refine h.command ?_ ht
    simp only [hop, h.setMask rfl]
    split <;> rfl
  all_goals
    simp only [Machine.exec, execAddmodn, execMul, execSqr, execKmul, execKsqr, execRedc, execTomont, execFrommont,
      execMontmul, execMontsqr, execModexp, execModexpl] at ht ⊢
    refine h.command ?_ ht
    simp only [hop, hN, hR, h.ctxNinv, h.bbits, h.store, h.forget]
    repeat' split
  all_goals rfl

theorem writesCy_eq_true {i : Instr} : writesCy i = true ↔ ∃ rd ra rb, i = .add rd ra rb ∨ i = .sub rd ra rb := by
  cases i <;> simp [writesCy]

theorem writesMask_eq_true {i : Instr} : writesMask i = true ↔ ∃ ra rb, i = .ltmask ra rb := by
  cases i <;> simp [writesMask]

/-- A command that does not write `CY` leaves it. -/
theorem exec_cy {i : Instr} {s t : State} (hw : writesCy i = false) (h : exec i s = .next t) : t.cy = s.cy := by
  cases hi : issueError i s with
  | some e => rw [exec_of_issueError hi] at h; cases h; rfl
  | none => exact (exec_completion h hi).cy hw

/-- A command that does not write `MASK` leaves it. -/
theorem exec_mask {i : Instr} {s t : State} (hw : writesMask i = false) (h : exec i s = .next t) : t.mask = s.mask := by
  cases hi : issueError i s with
  | some e => rw [exec_of_issueError hi] at h; cases h; rfl
  | none => exact (exec_completion h hi).mask hw

/-- An update of a field that the command writes and does not read. -/
structure Overwritten (i : Instr) (p : State → State) : Prop where
  issue       : ∀ s, issueError i (p s) = issueError i s
  limbCount   : ∀ s, (p s).limbCount = s.limbCount
  promised    : ∀ s, completionPromised i (p s) = completionPromised i s
  freeCtr     : ∀ s, (p s).freeCtr = s.freeCtr
  unspecified : ∀ s, (p s).completeUnspecified i = s.completeUnspecified i
  skipFree    : ∀ s, (p s).skipFree = p s.skipFree

theorem overwritten_cy {i : Instr} (c : Bool) (h : writesCy i = true) : Overwritten i fun s => { s with cy := c } :=
  ⟨fun _ => rfl, fun _ => rfl, fun _ => rfl, fun _ => rfl, fun _ => by simp only [State.completeUnspecified, h]; rfl,
    fun _ => rfl⟩

theorem overwritten_mask {i : Instr} (m : Word) (h : writesMask i = true) :
    Overwritten i fun s => { s with mask := m } :=
  ⟨fun _ => rfl, fun _ => rfl, fun _ => rfl, fun _ => rfl, fun _ => by simp only [State.completeUnspecified, h]; rfl,
    fun _ => rfl⟩

/-- A command that overwrites the field does the same whatever it held, and keeps it while it has not completed. The
three cases are those of `command_cases`: the command's own effect, results unspecified, and not completed. -/
theorem Overwritten.command_cases {i : Instr} {p : State → State} (h : Overwritten i p) {s t : State}
    {f : Nat → Option State} {g : Nat → Option State} (hg : g s.limbCount = f s.limbCount) (hi : issueError i s = none)
    (ht : command i s f = .next t) :
    ((∃ u, f s.limbCount = some u ∧ t = u.complete) ∧ command i (p s) g = .next t) ∨
    ((∃ u : State, t = u.completeUnspecified i) ∧ command i (p s) g = .next t) ∨
    (t = s.skipFree ∧ command i (p s) g = .next (p t)) := by
  simp only [command, h.issue, h.limbCount, h.promised, h.unspecified, hi, hg] at ht ⊢
  by_cases hp : completionPromised i s = true
  · simp only [if_pos hp] at ht ⊢
    by_cases ha : aliasingPermitted i s.limbCount = true
    · simp only [if_pos ha] at ht ⊢
      cases hf : f s.limbCount with
      | none => rw [hf] at ht; cases ht; exact .inr (.inl ⟨⟨s, rfl⟩, rfl⟩)
      | some u => rw [hf] at ht; cases ht; exact .inl ⟨⟨u, rfl, rfl⟩, rfl⟩
    · simp only [if_neg ha] at ht ⊢
      cases ht
      exact .inr (.inl ⟨⟨s, rfl⟩, rfl⟩)
  · simp only [if_neg hp, State.perhaps, h.freeCtr, h.skipFree, h.unspecified] at ht ⊢
    by_cases hf : Config.freeBit s.freeCtr = true
    · simp only [if_pos hf] at ht ⊢
      cases ht
      exact .inr (.inl ⟨⟨s.skipFree, rfl⟩, rfl⟩)
    · simp only [if_neg hf] at ht ⊢
      cases ht
      exact .inr (.inr ⟨rfl, rfl⟩)

/-- `ADD` and `SUB` do the same whatever `CY` was, once they have completed. -/
theorem exec_overwrites_cy {i : Instr} {s t : State} (c : Bool) (hw : writesCy i = true) (hi : issueError i s = none)
    (h : exec i s = .next t) :
    exec i { s with cy := c } = .next t ∨ (t = s.skipFree ∧ exec i { s with cy := c } = .next { t with cy := c }) := by
  obtain ⟨rd, ra, rb, rfl | rfl⟩ := writesCy_eq_true.1 hw
  all_goals
    simp only [exec, execAdd, execSub] at h ⊢
    obtain ⟨-, hc⟩ | ⟨-, hc⟩ | hc := (overwritten_cy c hw).command_cases rfl hi h
    · exact .inl hc
    · exact .inl hc
    · exact .inr hc

/-- The verdict of `lt_mask` is all-ones or all-zero (R28, R114). -/
theorem ltMaskBuf_cases {a b : List Word} (h : a.length = b.length) :
    ltMaskBuf a b = 0#64 ∨ ltMaskBuf a b = BitVec.allOnes 64 := by
  rw [ltMaskBuf, ← maskOf_false, ltScan_spec false h]
  exact maskOf_false ▸ maskOf_cases _

/-- `LTMASK` does the same whatever `MASK` was, and leaves all-ones or all-zero there, once it has completed. -/
theorem ltmask_overwrites_mask {ra rb : Nat} {s t : State} (m : Word) (hi : issueError (.ltmask ra rb) s = none)
    (h : exec (.ltmask ra rb) s = .next t) :
    (t.busy = false ∧ (t.mask = 0#64 ∨ t.mask = BitVec.allOnes 64) ∧
      exec (.ltmask ra rb) { s with mask := m } = .next t) ∨
    (t = s.skipFree ∧ exec (.ltmask ra rb) { s with mask := m } = .next { t with mask := m }) := by
  simp only [exec, execLtmask] at h ⊢
  obtain ⟨⟨u, hu, rfl⟩, hc⟩ | ⟨⟨u, rfl⟩, hc⟩ | hc := (overwritten_mask m rfl).command_cases rfl hi h
  · split at hu
    · next a b ha hb =>
      cases hu
      exact .inl ⟨rfl, ltMaskBuf_cases ((operand_length ha).trans (operand_length hb).symm), hc⟩
    · cases hu
  · exact .inl ⟨rfl, maskOf_cases _, hc⟩
  · exact .inr hc

/-- `ADD` leaves the carry out in `CY` (R111). -/
theorem add_runs {rd ra rb : Nat} {s : State} {a b : List Word} (h : Runs (.add rd ra rb) s)
    (ha : s.operand ra s.limbCount = some a) (hb : s.operand rb s.limbCount = some b) :
    exec (.add rd ra rb) s = .next ({ s.store rd (bnAdd a b).1 with cy := (bnAdd a b).2 } : State).complete := by
  simp only [exec, execAdd]
  exact command_runs h nofun (operandsHeld_iff.2 (by simp [readRegions, ha, hb])) (by simp only [ha, hb])

/-- `SUB` leaves the borrow out in `CY` (R112). -/
theorem sub_runs {rd ra rb : Nat} {s : State} {a b : List Word} (h : Runs (.sub rd ra rb) s)
    (ha : s.operand ra s.limbCount = some a) (hb : s.operand rb s.limbCount = some b) :
    exec (.sub rd ra rb) s = .next ({ s.store rd (bnSub a b).1 with cy := (bnSub a b).2 } : State).complete := by
  simp only [exec, execSub]
  exact command_runs h nofun (operandsHeld_iff.2 (by simp [readRegions, ha, hb])) (by simp only [ha, hb])

/-- The carry out as a number: a sum is its remainder and the carry's worth. -/
theorem bnAdd_split {a b : List Word} (h : a.length = b.length) :
    val a + val b =
      (val a + val b) % 2 ^ (64 * a.length) + (bnAdd a b).2.toNat * 2 ^ (64 * a.length) := by
  have hs := bnAdd_spec h
  have hl := val_lt (bnAdd a b).1
  rw [bnAdd_length h] at hl
  have hm : (val a + val b) % 2 ^ (64 * a.length) = val (bnAdd a b).1 := by
    rw [← hs, Nat.add_mul_mod_self_left, Nat.mod_eq_of_lt hl]
  rw [hm, ← hs, Nat.mul_comm]

/-- The issue of a command, also one that fails its checks, leaves `CY`. -/
theorem issue_cy (s : State) (w : Word) : (s.issue w).cy = s.cy := by
  obtain ⟨-, hw⟩ | ⟨-, e, -, hw⟩ | ⟨-, i, e, -, -, hw⟩ | ⟨-, i, -, -, hw⟩ := issue_cases s w
  all_goals simp [hw]

end Sys2Proof.Machine
end

section
/-! PROOF. Commands outside their operand ranges, and commands that read a word without a value
(spec/93_implementation_defined.md U3, U5, U7). -/

open Sys2Proof.Claims

namespace Sys2Proof.Machine

/-- A command whose operands are held and whose precondition on their values fails completes with everything it writes
unspecified (U3, U5). -/
theorem command_unmet {i : Instr} {s : State} {effect : Nat → Option State} (h : Runs i s)
    (hp : needsCtx i = true → s.ctxPoisoned = false) (hv : operandsHeld i s = true) (he : effect s.limbCount = none) :
    command i s effect = .next (s.completeUnspecified i) := by
  simp [command, h.issued, completionPromised_iff.2 ⟨hp, hv⟩, h.regions, he]

/-- A command with a source word without a value: its completion is not promised (U7). -/
theorem command_of_not_held {i : Instr} {s : State} {effect : Nat → Option State} (hi : issueError i s = none)
    (hv : operandsHeld i s = false) :
    command i s effect = .next (s.perhaps fun u => u.completeUnspecified i) := by
  simp [command, hi, completionPromised, hv]

theorem addmodn_unmet {rd ra rb rc : Nat} {s : State} {a b n : List Word} (h : Runs (.addmodn rd ra rb rc) s)
    (ha : s.operand ra s.limbCount = some a) (hb : s.operand rb s.limbCount = some b)
    (hn : s.operand rc s.limbCount = some n) (hlt : val n ≤ val a ∨ val n ≤ val b) :
    exec (.addmodn rd ra rb rc) s = .next (s.completeUnspecified (.addmodn rd ra rb rc)) := by
  simp only [exec, execAddmodn]
  refine command_unmet h nofun (operandsHeld_iff.2 (by simp [readRegions, ha, hb, hn])) ?_
  simp only [ha, hb, hn]
  exact if_neg (by omega)

theorem montmul_unmet {rd ra rb : Nat} {s : State} {a b : List Word} (h : Runs (.montmul rd ra rb) s)
    (hp : s.ctxPoisoned = false) (ha : s.operand ra s.limbCount = some a) (hb : s.operand rb s.limbCount = some b)
    (hlt : val (s.modulus s.limbCount) * 2 ^ (64 * s.limbCount) ≤ val a * val b) :
    exec (.montmul rd ra rb) s = .next (s.completeUnspecified (.montmul rd ra rb)) := by
  simp only [exec, execMontmul]
  refine command_unmet h (fun _ => hp) (operandsHeld_iff.2 (by simp [readRegions, ha, hb])) ?_
  simp only [ha, hb]
  exact if_neg hlt.not_gt

theorem montsqr_unmet {rd ra : Nat} {s : State} {a : List Word} (h : Runs (.montsqr rd ra) s)
    (hp : s.ctxPoisoned = false) (ha : s.operand ra s.limbCount = some a)
    (hlt : val (s.modulus s.limbCount) * 2 ^ (64 * s.limbCount) ≤ val a * val a) :
    exec (.montsqr rd ra) s = .next (s.completeUnspecified (.montsqr rd ra)) := by
  simp only [exec, execMontsqr]
  refine command_unmet h (fun _ => hp) (operandsHeld_iff.2 (by simp [readRegions, ha])) ?_
  simp only [ha]
  exact if_neg hlt.not_gt

theorem redc_unmet {rd ra : Nat} {s : State} {c : List Word} (h : Runs (.redc rd ra) s)
    (hp : s.ctxPoisoned = false) (hc : s.operand ra (2 * s.limbCount) = some c)
    (hlt : val (s.modulus s.limbCount) * 2 ^ (64 * s.limbCount) ≤ val c) :
    exec (.redc rd ra) s = .next (s.completeUnspecified (.redc rd ra)) := by
  simp only [exec, execRedc]
  refine command_unmet h (fun _ => hp) (operandsHeld_iff.2 (by simp [readRegions, hc])) ?_
  simp only [hc]
  exact if_neg hlt.not_gt

/-- The source regions of `ADD` are those of its two fields. -/
theorem add_not_held {rd ra rb a : Nat} {s : State}
    (ha : inRegion ⟨ra, s.limbCount⟩ a = true ∨ inRegion ⟨rb, s.limbCount⟩ a = true) (hm : s.lmem.read a = none) :
    operandsHeld (.add rd ra rb) s = false := by
  obtain ha | ha := ha
  · exact operandsHeld_of_read_none (r := ⟨ra, s.limbCount⟩) (by simp [readRegions]) ha hm
  · exact operandsHeld_of_read_none (r := ⟨rb, s.limbCount⟩) (by simp [readRegions]) ha hm

/-- A completion with everything unspecified is the model's form of "any value". -/
theorem leftOpen_unspecified (i : Instr) (s : State) : LeftOpen i s (s.skipFree.completeUnspecified i) := by
  have hc := (Completion.unspecified i s.skipFree).of_skipFree
  refine ⟨rfl, hc.host, ⟨rfl, rfl, rfl, rfl, rfl⟩, fun a ha => ?_, fun r hr a ha => ?_, ?_, ?_⟩
  · rw [State.completeUnspecified_lmem, Memory.read_forgetAll, if_neg]
    · rfl
    · simpa using ha
  · rw [State.completeUnspecified_lmem, Memory.read_forgetAll, if_pos]
    exact List.any_eq_true.2 ⟨r, hr, ha⟩
  · cases hw : writesCy i with
    | false => exact .inl (hc.cy hw)
    | true => exact .inr (writesCy_eq_true.1 hw)
  · cases hw : writesMask i with
    | false => exact .inl (hc.mask hw)
    | true =>
      rw [State.completeUnspecified_mask, if_pos hw]
      exact .inr ⟨writesMask_eq_true.1 hw, (maskOf_cases _).symm⟩

/-- `CTXLOAD` of a modulus with a word without a value: it has not completed, or the context is poisoned (U1, U7). -/
theorem ctxload_not_held {ra a : Nat} {s t : State} (hi : issueError (.ctxload ra) s = none)
    (ha : inRegion ⟨ra, s.limbCount⟩ a = true) (hm : s.lmem.read a = none) (h : exec (.ctxload ra) s = .next t) :
    t = s.skipFree.poisonContext ra ∨ t = s.skipFree := by
  simp only [inRegion, Bool.and_eq_true, decide_eq_true_eq] at ha
  obtain ⟨n, ho, -⟩ | ⟨-, ht⟩ := ctxload_cases h hi
  · rw [State.operand, Memory.readBuf_of_read_none ha.1 ha.2 hm] at ho
    cases ho
  · exact ht

end Sys2Proof.Machine
end

section
/-! PROOF. The obligations on the state, the steps and the flags, each from the lemmas above. -/

open Sys2Proof Sys2Proof.Machine Sys2Proof.Claims

namespace Sys2Proof.Proofs

/-- Settles O8: each of the updates a step is made of keeps the invariant (`Inv.step`). -/
theorem stepKeepsInv : Obligations.StepKeepsInv := fun _ _ => Inv.step

/-- Settles O11: the write latches the command (`steps_commandLine`), and the polls hand out its `STATUS`
(`steps_polls`). -/
theorem commandLine : Obligations.CommandLine := fun _ _ polls rest hw hb herr hi =>
  steps_commandLine polls rest hw hb herr hi rfl

/-- Settles O23, from what a step can do to the context (`step_context`). -/
theorem contextValidFlag : Obligations.ContextValidFlag := by
  refine ⟨fun s t h h0 h1 => ?_, fun s t h h1 h0 => ?_, fun s v hb => hostWrite_regLen hb v⟩
  · obtain hsame | ⟨hm, hb, hload, -⟩ | ⟨-, v, -, rfl⟩ | ⟨-, rfl⟩ := step_context h
    · rw [hsame.ctxv, h0] at h1; cases h1
    · exact ⟨hm, hb, hload⟩
    · cases h1
    · cases h1
  · obtain hsame | ⟨-, -, -, hv⟩ | ⟨hb, v, hm, -⟩ | ⟨hm, -⟩ := step_context h
    · rw [hsame.ctxv, h1] at h0; cases h0
    · rw [hv] at h0; cases h0
    · exact .inl ⟨hb, v, hm⟩
    · exact .inr hm

/-- Settles O24, from what a step can do to the context (`step_context`): a write of `LEN` clears `CTXV` only. -/
theorem contextImmutable : Obligations.ContextImmutable := fun s t h => by
  obtain hsame | ⟨hm, hb, hload, -⟩ | ⟨-, v, -, rfl⟩ | ⟨hm, -⟩ := step_context h
  · exact .inl ⟨hsame.ctxN, hsame.ctxNinv, hsame.ctxR2⟩
  · exact .inr (.inl ⟨hm, hb, hload⟩)
  · exact .inl ⟨rfl, rfl, rfl⟩
  · exact .inr (.inr hm)

/-- Settles O43: the values are those of `bn_add` and `bn_sub`; every other command is blind to `CY` (`blind_cy`), and
`ADD` and `SUB` overwrite it (`exec_overwrites_cy`). -/
theorem carryFlag : Obligations.CarryFlag := by
  refine ⟨fun rd ra rb s a b hadd hsub ha hb => ?_, fun i s t c hne h => ?_, fun i s t c hi2 hi h => ?_, fun s w => ?_, rfl⟩
  · have hlen : a.length = b.length := (operand_length ha).trans (operand_length hb).symm
    refine ⟨_, _, add_runs hadd ha hb, sub_runs hsub ha hb, ?_, ?_⟩
    · rw [← operand_length ha]
      exact bnAdd_split hlen
    · simp [bnSub_borrow hlen]
  · have hw : writesCy i = false := by
      rw [← Bool.not_eq_true, writesCy_eq_true]
      rintro ⟨rd, ra, rb, hi | hi⟩
      · exact (hne rd ra rb).1 hi
      · exact (hne rd ra rb).2 hi
    exact ⟨exec_cy hw h, (blind_cy c hw).exec h⟩
  · exact exec_overwrites_cy c (writesCy_eq_true.2 hi2) hi h
  · rw [hostWrite_regCmd]
    split
    · rfl
    · exact issue_cy s w

/-- Settles O44: every other command is blind to `MASK` (`blind_mask`), and `LTMASK` overwrites it
(`ltmask_overwrites_mask`). -/
theorem maskRegister : Obligations.MaskRegister := by
  refine ⟨fun i s t m hne h => ?_, fun ra rb s t m hi h => ?_, fun s v => ?_⟩
  · have hw : writesMask i = false := by
      rw [← Bool.not_eq_true, writesMask_eq_true]
      rintro ⟨ra, rb, hi⟩
      exact hne ra rb hi
    exact ⟨exec_mask hw h, (blind_mask m hw).exec h⟩
  · obtain ⟨hb, hm, hx⟩ | hx := ltmask_overwrites_mask m hi h
    · exact .inl ⟨hb, hm.symm, hx⟩
    · exact .inr hx
  · simp [State.hostWrite]

/-- Settles O51: outside its operand range a command leaves what it writes unspecified (`command_unmet`); with a source
word without a value its completion is not promised (`exec_not_promised`). -/
theorem unmetPreconditions : Obligations.UnmetPreconditions := by
  refine ⟨fun rd ra rb rc s a b n h ha hb hn hlt => addmodn_unmet h ha hb hn hlt,
    fun rd ra rb s a b h hp ha hb hlt => montmul_unmet h hp ha hb hlt,
    fun rd ra s a h hp ha hlt => montsqr_unmet h hp ha (by rwa [← sq]),
    fun rd ra s c h hp hc hlt => redc_unmet h hp hc hlt,
    fun rd ra rb a s hi ha hm => ?_, fun i s t a hne hi hr hm h => ?_, fun ra a s t hi ha hm h => ?_⟩
  · simp only [exec, execAdd]
    exact command_of_not_held hi (add_not_held ha hm)
  · obtain ⟨r, hr, ha⟩ := hr
    have hp : completionPromised i s = false := by
      rw [completionPromised, operandsHeld_of_read_none hr ha hm, Bool.and_false]
    obtain rfl | rfl := exec_not_promised hne hi hp h
    · exact .inr (leftOpen_unspecified i s)
    · exact .inl rfl
  · have hh := (exec_completion h hi).host
    obtain rfl | rfl := ctxload_not_held hi ha hm h
    · exact ⟨hh, rfl, rfl, rfl, .inr ⟨rfl, rfl, rfl⟩⟩
    · exact ⟨hh, rfl, rfl, rfl, .inl rfl⟩

/-- Settles O6: the initial state and a reset turn both give every register its value of R39. -/
theorem resetState : Obligations.ResetState := by
  rintro s t (rfl | h)
  · exact ⟨fun _ => rfl, rfl, rfl, rfl, rfl, rfl, rfl, rfl, rfl, rfl, rfl, rfl, rfl, rfl⟩
  · simp only [takeTurn, Host.Outcome.next.injEq] at h
    subst h
    exact ⟨fun _ => rfl, rfl, rfl, rfl, rfl, rfl, rfl, rfl, rfl, rfl, rfl, rfl, rfl, rfl⟩

/-- Settles O7 (`Inv.resetWith`); the default parameters of R7 are legal. -/
theorem resetMeetsInv : Obligations.ResetMeetsInv :=
  ⟨Inv.resetWith (p := Params.default) (by decide), fun _ => Inv.resetWith⟩

/-- Settles O9: a step of the engine is its turn (`step_of_enginesTurn`), which runs the latch if it holds a command in
flight. -/
theorem stepRunsDecoded : Obligations.StepRunsDecoded := by
  refine ⟨fun s i hm hb hd => ?_, fun s hm hb => ?_, fun s nbits w i hd => ?_⟩
  · rw [step_of_enginesTurn hm, engineTurn_of_busy (s := s.dropTurn) hb hd]
  · rw [step_of_enginesTurn hm, engineTurn_of_idle (s := s.dropTurn) hb]
  · have hm : NextTurn (s.withFetchWord nbits w) .engine := rfl
    rw [step_of_enginesTurn (.inr hm), engineTurn_of_busy (s := (s.withFetchWord nbits w).dropTurn) rfl hd]
    rfl

/-- Settles O19: the flags are bits 3 to 0 (`statusFlags_testBit`), `ERRCODE` is bits 15 to 8 (`statusWord_getLsbD`). -/
theorem statusBits : Obligations.StatusBits := by
  intro s k
  rw [statusWord_getLsbD, statusFlags_testBit]
  rcases Nat.lt_or_ge k 8 with hlow | hhigh
  · rw [if_pos hlow, if_neg (c := 8 ≤ k ∧ k ≤ 15) (by omega)]
  · rw [if_neg (by omega), if_neg (by omega), if_neg (by omega), if_neg (by omega), if_neg (by omega)]
    rcases Nat.lt_or_ge 15 k with hk | hk
    · rw [if_neg (by omega), BitVec.getLsbD_of_ge _ _ (by omega)]
    · rw [if_pos ⟨hhigh, hk⟩]

end Sys2Proof.Proofs
end

section
/-! PROOF. The host port (spec/20_memory.md R61, R63, R64, R67): what a read and a write of one register number do, while
a command runs and while none does, and the writes of a `LOADBN`. -/

open Sys2Proof.Claims

namespace Sys2Proof.Machine

/-- While a command runs, a host write does nothing (R64). -/
theorem hostWrite_of_busy {s : State} (hb : s.busy = true) (reg : BitVec 15) (v : Word) : s.hostWrite reg v = s := by
  simp [State.hostWrite, hb]

/-- While a command runs, every register but `STATUS` reads 0 (R64). -/
theorem hostRead_of_busy {s : State} {reg : BitVec 15} (hb : s.busy = true) (hr : reg ≠ regStatus) :
    s.hostRead reg = s.answer 0 := by
  have hne : hostReg s.params reg ≠ .status := fun h => hr (hostReg_eq_status.1 h)
  simp [State.hostRead, hb, hne]

/-- While no command runs, a read hands over the value of the register the number names. -/
theorem hostRead_of_value {s : State} {reg : BitVec 15} {r : HostReg} {x : Word} (hb : s.busy = false)
    (hr : hostReg s.params reg = r) (hx : s.readReg r = some x) : s.hostRead reg = s.answer x := by
  simp [State.hostRead, hb, hr, hx]

/-- The registers a host write leaves as they are: the read-only ones and the unmapped numbers (R61, R63). -/
def HostReg.ignoresWrites : HostReg → Bool
  | .cmd | .ctrl | .len | .bbits | .lmem _ => false
  | .status | .mask | .ctxNinv | .errCmd | .ctxN _ | .ctxR2 _ | .unmapped => true

theorem hostWrite_of_ignored {s : State} {reg : BitVec 15} {r : HostReg} (hr : hostReg s.params reg = r)
    (hi : r.ignoresWrites = true) (v : Word) : s.hostWrite reg v = s := by
  cases r with
  | cmd | ctrl | len | bbits | lmem => cases hi
  | status | mask | ctxNinv | errCmd | ctxN | ctxR2 | unmapped => simp [State.hostWrite, hr]

/-- A register that ignores writes: what a read hands over, and that a write does nothing. -/
theorem hostAccess_of_ignored {s : State} {reg : BitVec 15} {r : HostReg} {x : Word} (hb : s.busy = false)
    (hr : hostReg s.params reg = r) (hi : r.ignoresWrites = true) (hx : s.readReg r = some x) (v : Word) :
    s.hostRead reg = s.answer x ∧ s.hostWrite reg v = s :=
  ⟨hostRead_of_value hb hr hx, hostWrite_of_ignored hr hi v⟩

/-- A write of `CTRL` while no command runs clears the error if its bit 0 is set (R26). -/
theorem hostWrite_regCtrl {s : State} (hb : s.busy = false) (v : Word) :
    s.hostWrite regCtrl v = if v.getLsbD 0 then s.clearError else s := by
  simp [State.hostWrite, hb]

theorem hostWrite_regBbits {s : State} (hb : s.busy = false) (v : Word) : s.hostWrite regBbits v = s.setBbits v := by
  simp [State.hostWrite, hb]

/-- A write through the `LMEM` window while no command runs. -/
theorem hostWrite_of_lmem {s : State} {reg : BitVec 15} {a : Nat} (hb : s.busy = false)
    (hr : hostReg s.params reg = .lmem a) (v : Word) : s.hostWrite reg v = s.setWord a v := by
  simp [State.hostWrite, hb, hr]

/-- The turns of a `LOADBN` store the buffer, and nothing else happens (R67, R100). -/
theorem steps_loadBuf (rest : List Turn) (ws : List Word) {s : State} {base : Nat} (hb : s.busy = false)
    (hm : s.params.memWords ≤ 16384) (hfit : base + ws.length ≤ s.params.memWords)
    (hs : s.schedule = loadBufTurns base ws ++ rest) :
    steps ws.length s = .next { s with schedule := rest, lmem := s.lmem.writeBuf base ws } := by
  induction ws generalizing s base with
  | nil =>
    obtain rfl : s.schedule = rest := hs
    rfl
  | cons w ws ih =>
    rw [List.length_cons] at hfit
    have hreg : hostReg s.params (regLmem base) = .lmem base := hostReg_regLmem (by omega) (by omega)
    have hstep : step s = .next (s.dropTurn.setWord base w) := by
      rw [step_of_nextTurn (m := .write (regLmem base) w) (by rw [NextTurn, hs]; rfl), takeTurn,
        hostWrite_of_lmem (s := s.dropTurn) hb hreg]
    rw [List.length_cons, steps_succ_of_next _ hstep,
      ih (s := s.dropTurn.setWord base w) (base := base + 1) hb hm
        (show base + 1 + ws.length ≤ s.params.memWords by omega) (by simp [hs, loadBufTurns])]
    rfl

end Sys2Proof.Machine
end

section
/-! PROOF. The frame of a command that is not `CTXLOAD` or `LTMASK` (spec/20_memory.md R72), whatever its operands hold. -/

namespace Sys2Proof.Machine

/-- Outside its written regions, `BUSY` and, if it writes it, `CY`, such a command changes nothing. -/
theorem exec_frame {i : Instr} {s t : State} (h : exec i s = .next t) (hi : issueError i s = none)
    (hc : ∀ ra, i ≠ .ctxload ra) (hm : writesMask i = false) (hf : needsCtx i = true → ContextFiles s) :
    SameHostSide s t ∧ SameContext s t ∧ SameLmemOutside (writtenRegions i s.limbCount) s t ∧ t.mask = s.mask :=
  have hk := exec_completion h hi
  ⟨hk.host, hk.context hc, hk.outside hf, hk.mask hm⟩

/-- The same with `CY`, for a command that does not write it. -/
theorem exec_frame_cy {i : Instr} {s t : State} (h : exec i s = .next t) (hi : issueError i s = none)
    (hc : ∀ ra, i ≠ .ctxload ra) (hm : writesMask i = false) (hy : writesCy i = false)
    (hf : needsCtx i = true → ContextFiles s) :
    SameHostSide s t ∧ SameContext s t ∧ SameLmemOutside (writtenRegions i s.limbCount) s t ∧ t.mask = s.mask ∧
      t.cy = s.cy := by
  obtain ⟨hhost, hctx, hout, hmask⟩ := exec_frame h hi hc hm hf
  exact ⟨hhost, hctx, hout, hmask, exec_cy hy h⟩

end Sys2Proof.Machine
end

section
/-! PROOF. The serialization contract (spec/20_memory.md R68 to R70): the number a byte string denotes, how its parts
relate to it, and both conversions in terms of that number. -/

namespace Sys2Proof.Machine

/-! The number of a byte string. -/

@[simp] theorem bytesVal_nil : bytesVal [] = 0 := rfl

@[simp] theorem bytesVal_cons (x : Byte) (bs : List Byte) :
    bytesVal (x :: bs) = x.toNat * 256 ^ bs.length + bytesVal bs := rfl

theorem bytesVal_append (xs ys : List Byte) : bytesVal (xs ++ ys) = bytesVal xs * 256 ^ ys.length + bytesVal ys := by
  induction xs with
  | nil => simp
  | cons x xs ih => rw [List.cons_append, bytesVal_cons, bytesVal_cons, ih, List.length_append, Nat.pow_add]; ring

theorem bytesVal_lt (bs : List Byte) : bytesVal bs < 256 ^ bs.length := by
  induction bs with
  | nil => simp
  | cons x bs ih =>
    have hx : x.toNat + 1 ≤ 256 := x.isLt
    rw [bytesVal_cons, List.length_cons, Nat.pow_succ']
    calc x.toNat * 256 ^ bs.length + bytesVal bs
        < (x.toNat + 1) * 256 ^ bs.length := by rw [Nat.add_one_mul]; omega
      _ ≤ 256 * 256 ^ bs.length := Nat.mul_le_mul_right _ hx

/-- A string splits its number at `256^k`, where `k` bytes are left: the front is the quotient, the rest the remainder. -/
theorem bytesVal_take_drop (k : Nat) (bs : List Byte) :
    bytesVal (bs.take k) = bytesVal bs / 256 ^ (bs.length - k) ∧
    bytesVal (bs.drop k) = bytesVal bs % 256 ^ (bs.length - k) := by
  have hlt := bytesVal_lt (bs.drop k)
  have hsplit := bytesVal_append (bs.take k) (bs.drop k)
  rw [List.take_append_drop] at hsplit
  rw [List.length_drop] at hlt hsplit
  have hpos : 0 < 256 ^ (bs.length - k) := by positivity
  rw [eq_comm, eq_comm (b := _ % _)]
  exact (Nat.div_mod_unique hpos).2 ⟨by rw [hsplit]; ring, hlt⟩

/-- A string denotes 0 exactly when every byte is 0. -/
theorem bytesVal_eq_zero {bs : List Byte} : bytesVal bs = 0 ↔ ∀ x ∈ bs, x = 0 := by
  induction bs with
  | nil => simp
  | cons x bs ih =>
    have hpos : (256 : Nat) ^ bs.length ≠ 0 := by positivity
    have hx : x.toNat = 0 ↔ x = 0 := BitVec.toNat_inj (y := 0#8)
    rw [bytesVal_cons, Nat.add_eq_zero_iff, Nat.mul_eq_zero, or_iff_left hpos, hx, ih, List.forall_mem_cons]

/-- A string is determined by its length and its number. -/
theorem eq_of_bytesVal_eq {xs ys : List Byte} (hl : xs.length = ys.length) (hv : bytesVal xs = bytesVal ys) : xs = ys := by
  induction xs generalizing ys with
  | nil => exact (List.eq_nil_of_length_eq_zero hl.symm).symm
  | cons x xs ih =>
    obtain _ | ⟨y, ys⟩ := ys
    · cases hl
    have hl : xs.length = ys.length := Nat.succ.inj hl
    have hpos : 0 < 256 ^ ys.length := by positivity
    have hxs := (Nat.div_mod_unique (d := x.toNat) hpos).2 ⟨rfl, hl ▸ bytesVal_lt xs⟩
    have hys := (Nat.div_mod_unique (d := y.toNat) hpos).2 ⟨rfl, bytesVal_lt ys⟩
    have hv' : bytesVal xs + 256 ^ ys.length * x.toNat = bytesVal ys + 256 ^ ys.length * y.toNat := by
      rw [bytesVal_cons, bytesVal_cons, hl] at hv
      linarith
    rw [hv'] at hxs
    rw [BitVec.eq_of_toNat_eq (hxs.1.symm.trans hys.1), ih hl (hxs.2.symm.trans hys.2)]

/-- Padding with zeros on the left does not change the number (R69). -/
theorem bytesVal_padLeft (k : Nat) (bs : List Byte) : bytesVal (List.replicate k 0 ++ bs) = bytesVal bs := by
  have hzero : bytesVal (List.replicate k 0) = 0 := bytesVal_eq_zero.2 fun _ => List.eq_of_mem_replicate
  rw [bytesVal_append, hzero, Nat.zero_mul, Nat.zero_add]

/-- Eight bytes to a limb: the radix of bytes and the radix of limbs. -/
theorem byteRadix (n : Nat) : 256 ^ (8 * n) = 2 ^ (64 * n) := by
  rw [show 256 = 2 ^ 8 from rfl, ← Nat.pow_mul, ← Nat.mul_assoc]

/-! The bytes of a buffer (R68). -/

@[simp] theorem limbBytes_length (w : Word) : (limbBytes w).length = 8 := by simp [limbBytes]

theorem limbBytes_getElem? (w : Word) {k : Nat} (hk : k < 8) :
    (limbBytes w)[k]? = some (BitVec.ofNat 8 (w.toNat / 2 ^ (8 * (7 - k)))) := by
  simp [limbBytes, hk]

@[simp] theorem bytesVal_limbBytes (w : Word) : bytesVal (limbBytes w) = w.toNat := by
  have hw := w.isLt
  have hsum : bytesVal (limbBytes w) =
      w.toNat / 2 ^ 56 % 2 ^ 8 * 256 ^ 7 + (w.toNat / 2 ^ 48 % 2 ^ 8 * 256 ^ 6 + (w.toNat / 2 ^ 40 % 2 ^ 8 * 256 ^ 5 +
      (w.toNat / 2 ^ 32 % 2 ^ 8 * 256 ^ 4 + (w.toNat / 2 ^ 24 % 2 ^ 8 * 256 ^ 3 + (w.toNat / 2 ^ 16 % 2 ^ 8 * 256 ^ 2 +
      (w.toNat / 2 ^ 8 % 2 ^ 8 * 256 ^ 1 + (w.toNat / 2 ^ 0 % 2 ^ 8 * 256 ^ 0 + 0))))))) := rfl
  omega

theorem bufferBytes_cons (w : Word) (b : List Word) : bufferBytes (w :: b) = bufferBytes b ++ limbBytes w := by
  simp [bufferBytes]

@[simp] theorem bufferBytes_length (b : List Word) : (bufferBytes b).length = 8 * b.length := by
  induction b with
  | nil => rfl
  | cons w b ih => simp [bufferBytes_cons, ih, Nat.mul_add]

/-- The string denotes the buffer's value. -/
@[simp] theorem bytesVal_bufferBytes (b : List Word) : bytesVal (bufferBytes b) = val b := by
  induction b with
  | nil => rfl
  | cons w b ih => rw [bufferBytes_cons, bytesVal_append, ih, limbBytes_length, bytesVal_limbBytes, val_cons]; ring

/-- Byte `k` from the top of limb `i` stands in the string at `8(L-1-i) + k`. -/
theorem bufferBytes_getElem? {b : List Word} {i k : Nat} (hi : i < b.length) (hk : k < 8) :
    (bufferBytes b)[8 * (b.length - 1 - i) + k]? = some (BitVec.ofNat 8 ((b.getD i 0).toNat / 2 ^ (8 * (7 - k)))) := by
  induction b generalizing i with
  | nil => cases hi
  | cons w b ih =>
    rw [bufferBytes_cons, List.length_cons, Nat.add_sub_cancel]
    cases i with
    | zero =>
      rw [List.getElem?_append_right (by simp), bufferBytes_length, Nat.sub_zero, Nat.add_sub_cancel_left,
        limbBytes_getElem? w hk]
      rfl
    | succ i =>
      rw [List.length_cons] at hi
      rw [List.getElem?_append_left (by rw [bufferBytes_length]; omega), List.getD_cons_succ,
        show b.length - (i + 1) = b.length - 1 - i by omega, ih (by omega)]

theorem toBytesBE_of_len {b : List Word} {len : Nat} (h : 8 * (b.length - 1) < len) (h' : len ≤ 8 * b.length) :
    toBytesBE b len = some ((bufferBytes b).drop (8 * b.length - len)) := if_pos ⟨h, h'⟩

/-- At the full width no byte is dropped. -/
theorem toBytesBE_full {b : List Word} (h : 1 ≤ b.length) : toBytesBE b (8 * b.length) = some (bufferBytes b) := by
  rw [toBytesBE_of_len (by omega) le_rfl, Nat.sub_self, List.drop_zero]

/-- The last `len` bytes of the string denote the value modulo `256^len`. -/
theorem bytesVal_bufferBytes_drop {b : List Word} {len : Nat} (h : len ≤ 8 * b.length) :
    bytesVal ((bufferBytes b).drop (8 * b.length - len)) = val b % 256 ^ len := by
  rw [(bytesVal_take_drop _ _).2, bytesVal_bufferBytes, bufferBytes_length, Nat.sub_sub_self h]

/-- The dropped bytes are zero exactly when the value fits in the others. -/
theorem bufferBytes_take_zero {b : List Word} {len : Nat} (h : len ≤ 8 * b.length) :
    (∀ x ∈ (bufferBytes b).take (8 * b.length - len), x = 0) ↔ val b < 256 ^ len := by
  rw [← bytesVal_eq_zero, (bytesVal_take_drop _ _).1, bytesVal_bufferBytes, bufferBytes_length, Nat.sub_sub_self h,
    Nat.div_eq_zero_iff, or_iff_right (by positivity)]

/-! The buffer of a byte string (R69). -/

theorem limbs_eq_map (n v : Nat) : limbs n v = (List.range n).map fun i => BitVec.ofNat 64 (v / 2 ^ (64 * i)) := by
  induction n generalizing v with
  | zero => rfl
  | succ n ih =>
    rw [limbs, ih, List.range_succ_eq_map, List.map_cons, List.map_map, Nat.mul_zero, Nat.pow_zero, Nat.div_one]
    refine congrArg _ (List.map_congr_left fun i _ => ?_)
    rw [Function.comp_apply, radix_succ, Nat.div_div_eq_div_mul]

/-- The eight bytes that stand for limb `i` in a string of `8n` bytes. -/
theorem limb_of_bytes {p : List Byte} {n i : Nat} (hp : p.length = 8 * n) (hi : i < n) :
    BitVec.ofNat 64 (bytesVal ((p.drop (8 * (n - 1 - i))).take 8)) = BitVec.ofNat 64 (bytesVal p / 2 ^ (64 * i)) := by
  have hwindow : bytesVal ((p.drop (8 * (n - 1 - i))).take 8) = bytesVal p / 2 ^ (64 * i) % 2 ^ 64 := by
    rw [(bytesVal_take_drop _ _).1, (bytesVal_take_drop _ _).2, List.length_drop, hp,
      show 8 * n - 8 * (n - 1 - i) = 8 * (i + 1) by omega, show 8 * (i + 1) - 8 = 8 * i by omega, byteRadix, byteRadix,
      radix_succ, Nat.mul_comm (2 ^ 64), Nat.mod_mul_right_div_self]
  rw [hwindow]
  exact BitVec.eq_of_toNat_eq (by simp only [BitVec.toNat_ofNat, Nat.mod_mod])

/-- A string of 1 to `8·LMAX` bytes becomes the buffer of `ceil(len / 8)` limbs that holds its number. -/
theorem fromBytesBE_eq_limbs {lmax : Nat} {bs : List Byte} (h1 : 1 ≤ bs.length) (h2 : bs.length ≤ 8 * lmax) :
    fromBytesBE lmax bs = some (limbs ((bs.length + 7) / 8) (bytesVal bs)) := by
  rw [fromBytesBE, if_neg (by omega), limbs_eq_map]
  refine congrArg some (List.map_congr_left fun i hi => ?_)
  rw [limb_of_bytes (by rw [List.length_append, List.length_replicate]; omega) (List.mem_range.1 hi), bytesVal_padLeft]

end Sys2Proof.Machine
end

section
/-! PROOF. The obligations on the memory, the host port and serialization, each from the lemmas above. -/

open Sys2Proof Sys2Proof.Machine Sys2Proof.Claims

namespace Sys2Proof.Proofs

/-- Settles O18: the register a number names (`hostReg_ctxN`, `hostReg_window` and the like) says what a read hands over
(`hostRead_of_value`), and which writes are ignored (`hostAccess_of_ignored`). -/
theorem hostRegisterMap : Obligations.HostRegisterMap := by
  intro s reg v hp hb n reads readOnly
  have named : ∀ k : BitVec 15, n = k.toNat → reg = k := fun _ => BitVec.eq_of_toNat_eq
  have ignored : ∀ {r : HostReg} {x : Word}, hostReg s.params reg = r → r.ignoresWrites = true →
      s.readReg r = some x → reads x ∧ readOnly := fun hr hi hx => hostAccess_of_ignored hb hr hi hx v
  refine ⟨fun h => ?cmd, fun h => ?status, fun h => ?ctrl, fun h => ?len, fun h => ?bbits, fun h => ?mask,
    fun h => ?ctxNinv, fun h => ?errCmd, fun h => ?gap, fun i h hi => ?ctxN, fun i h hi hi' => ?aboveCtxN,
    fun i h hi => ?ctxR2, fun i h hi hi' => ?aboveCtxR2, fun h => ?gapHigh, fun a x h ha hx => ?lmemRead,
    fun a h ha => ?lmemWrite, fun a h ha => ?aboveLmem⟩
  case cmd =>
    obtain rfl := named regCmd h
    refine ⟨hostRead_of_value hb (hostReg_regCmd _) rfl, fun i herr hd hi => ?_⟩
    rw [hostWrite_regCmd, hb]
    exact issue_of_checks herr hd hi
  case status =>
    obtain rfl := named regStatus h
    exact ignored (hostReg_regStatus _) rfl rfl
  case ctrl =>
    obtain rfl := named regCtrl h
    refine ⟨hostRead_of_value hb (hostReg_regCtrl _) rfl, fun h0 => ?_, fun h0 => ?_⟩
    · rw [hostWrite_regCtrl hb, if_pos h0]
      rfl
    · rw [hostWrite_regCtrl hb, h0]
      rfl
  case len =>
    obtain rfl := named regLen h
    exact ⟨hostRead_of_value hb (hostReg_regLen _) rfl, hostWrite_regLen hb v⟩
  case bbits =>
    obtain rfl := named regBbits h
    exact ⟨hostRead_of_value hb (hostReg_regBbits _) rfl, hostWrite_regBbits hb v⟩
  case mask =>
    obtain rfl := named 0x0005#15 h
    exact ignored (hostReg_mask _) rfl rfl
  case ctxNinv =>
    obtain rfl := named 0x0006#15 h
    exact ignored (hostReg_ctxNinv _) rfl rfl
  case errCmd =>
    obtain rfl := named 0x0007#15 h
    exact ignored (hostReg_errCmd _) rfl rfl
  case gap => exact ignored (hostReg_gap h.1 (by omega)) rfl rfl
  case ctxN =>
    have hlmax : s.params.lmax ≤ 4096 := by omega
    exact ignored ((hostReg_ctxN h (by omega)).trans (if_pos hi)) rfl rfl
  case aboveCtxN => exact ignored ((hostReg_ctxN h hi').trans (if_neg (by omega))) rfl rfl
  case ctxR2 =>
    have hlmax : s.params.lmax ≤ 4096 := by omega
    exact ignored ((hostReg_ctxR2 h (by omega)).trans (if_pos hi)) rfl rfl
  case aboveCtxR2 => exact ignored ((hostReg_ctxR2 h hi').trans (if_neg (by omega))) rfl rfl
  case gapHigh => exact ignored (hostReg_gap_high h.1 (by omega)) rfl rfl
  case lmemRead => exact hostRead_of_value hb ((hostReg_window h).trans (if_pos ha)) hx
  case lmemWrite => exact hostWrite_of_lmem hb ((hostReg_window h).trans (if_pos ha)) v
  case aboveLmem => exact ignored ((hostReg_window h).trans (if_neg (by omega))) rfl rfl

/-- Settles O21: the turns store the buffer (`steps_loadBuf`), which reads back (`Memory.readBuf_writeBuf`), and leave
every other word (`Memory.read_writeBuf_outside`). -/
theorem loadBuffer : Obligations.LoadBuffer := fun s base ws rest hb hm hfit =>
  ⟨s.lmem.writeBuf base ws, steps_loadBuf rest ws hb hm hfit rfl, Memory.readBuf_writeBuf _ _ _,
    fun _ => Memory.read_writeBuf_outside _⟩

/-- Settles O38, from `exec_frame`; `ADDMODN` does not write `CY`. -/
theorem frameArithmetic : Obligations.FrameArithmetic := by
  rintro i rd s t (⟨ra, rb, rfl | rfl⟩ | ⟨ra, rb, rc, rfl⟩) hi h
  case inr =>
    obtain ⟨hhost, hctx, hout, hmask, hcy⟩ := exec_frame_cy h hi nofun rfl rfl nofun
    exact ⟨hhost, hctx, hout, hmask, fun _ => hcy⟩
  all_goals
    obtain ⟨hhost, hctx, hout, hmask⟩ := exec_frame h hi nofun rfl nofun
    exact ⟨hhost, hctx, hout, hmask, nofun⟩

/-- Settles O40, from `exec_frame_cy`: the regions are those of R93's table. -/
theorem frameMultiplier : Obligations.FrameMultiplier := by
  refine ⟨?_, ?_⟩
  · rintro i rd s t (⟨ra, rb, rfl⟩ | ⟨ra, rfl⟩) hi h
    all_goals exact exec_frame_cy h hi nofun rfl rfl nofun
  · rintro i rd rc s t (⟨ra, rb, rfl⟩ | ⟨ra, rfl⟩) hi h
    all_goals exact exec_frame_cy h hi nofun rfl rfl nofun

/-- Settles O41, from `exec_frame_cy`: the regions are those of R93's table. -/
theorem frameMontgomery : Obligations.FrameMontgomery := by
  refine ⟨?_, fun rd ra s t hn hr hi h => exec_frame_cy h hi nofun rfl rfl fun _ => ⟨hn, hr⟩⟩
  rintro i rd s t (⟨ra, rfl | rfl | rfl | rfl⟩ | ⟨ra, rb, rfl⟩) hn hr hi h
  all_goals exact exec_frame_cy h hi nofun rfl rfl fun _ => ⟨hn, hr⟩

/-- Settles O53: the string is `bufferBytes`, its last `len` bytes denote the value modulo `256^len`
(`bytesVal_bufferBytes_drop`), and the others are zero when that is the value (`bufferBytes_take_zero`). -/
theorem bufferToBytes : Obligations.BufferToBytes := by
  refine fun b hb => ⟨bufferBytes b, toBytesBE_full hb, bufferBytes_length b, bytesVal_bufferBytes b, fun i k hi hk => ?_,
    fun len hlow hhigh => ⟨_, toBytesBE_of_len hlow hhigh, rfl, ?_, ?_, (bufferBytes_take_zero hhigh).symm⟩⟩
  · rw [bufferBytes_getElem? hi hk]
    exact congrArg some (BitVec.eq_of_toNat_eq (by simp only [BitVec.toNat_ofNat]; omega))
  · rw [List.length_drop, bufferBytes_length, Nat.sub_sub_self hhigh]
  · rw [bytesVal_bufferBytes_drop hhigh]
    exact Nat.mod_eq_iff_lt (by positivity)

/-- Settles O54: a string is read as the limbs of its number (`fromBytesBE_eq_limbs`), a buffer is written as a string of
its value, and both are determined by length and number (`limbs_val`, `eq_of_bytesVal_eq`). -/
theorem serializationRoundTrip : Obligations.SerializationRoundTrip := by
  refine ⟨fun lmax b h1 hmax => ⟨bufferBytes b, toBytesBE_full h1, bufferBytes_length b, ?_⟩, fun lmax bytes h1 hmax => ?_⟩
  · rw [fromBytesBE_eq_limbs (by rw [bufferBytes_length]; omega) (by rw [bufferBytes_length]; omega),
      bufferBytes_length, bytesVal_bufferBytes, show (8 * b.length + 7) / 8 = b.length by omega, limbs_val]
  · have hfrom := fromBytesBE_eq_limbs h1 hmax
    generalize hn : (bytes.length + 7) / 8 = n at hfrom
    have hfit : bytes.length ≤ 8 * n := by omega
    have hval : val (limbs n (bytesVal bytes)) = bytesVal bytes := val_limbs_of_lt <| by
      rw [← byteRadix]
      exact (bytesVal_lt bytes).trans_le (Nat.pow_le_pow_right (by omega) hfit)
    generalize hb : limbs n (bytesVal bytes) = b at hfrom hval
    have hlen : b.length = n := hb ▸ limbs_length _ _
    subst hlen
    refine ⟨b, bufferBytes b, hfrom, rfl, hval, toBytesBE_full (by omega), (bytesVal_bufferBytes b).trans hval, ?_⟩
    rw [toBytesBE_of_len (by omega) hfit]
    refine congrArg some (eq_of_bytesVal_eq ?_ ?_)
    · rw [List.length_drop, bufferBytes_length, Nat.sub_sub_self hfit]
    · rw [bytesVal_bufferBytes_drop hfit, hval, Nat.mod_eq_of_lt (bytesVal_lt bytes)]

/-- Settles O10: a step takes the turn that is next (`step_of_nextTurn`). -/
theorem stepRunsHost : Obligations.StepRunsHost :=
  ⟨fun _ _ => step_of_nextTurn, fun _ _ _ => step_of_nextTurn, fun _ => step_of_nextTurn⟩

/-- Settles O17, from `hostWrite_of_busy` and `hostRead_of_busy`. -/
theorem busyLockout : Obligations.BusyLockout := by
  refine fun s reg v hb => ⟨hostWrite_of_busy hb reg v, ?_⟩
  by_cases hr : reg = regStatus
  · rw [if_pos hr, hr]
    exact hostRead_regStatus s
  · rw [if_neg hr]
    exact hostRead_of_busy hb hr

end Sys2Proof.Proofs
end

section
/-! PROOF. The decoder against the opcode map of spec/30_encoding.md R93 written as a table (`rowOf`): what it answers for
each row and for no row (R94, R95), and that the command it answers is the one the word encodes (R90). -/

open Sys2Proof.Claims

namespace Sys2Proof.Machine

@[simp] theorem fitsField_fieldRd (w : Word) : fitsField (fieldRd w) = true := fitsField_iff.2 (fieldRd_lt w)

@[simp] theorem fitsField_fieldRa (w : Word) : fitsField (fieldRa w) = true := fitsField_iff.2 (fieldRa_lt w)

@[simp] theorem fitsField_fieldRb (w : Word) : fitsField (fieldRb w) = true := fitsField_iff.2 (fieldRb_lt w)

@[simp] theorem fitsField_fieldRc (w : Word) : fitsField (fieldRc w) = true := fitsField_iff.2 (fieldRc_lt w)

/-- A command the decoder answers is well-formed, and the word is its encoding: the fields it does not use are zero. -/
theorem encode_of_decode {w : Word} {i : Instr} (h : decode w = .ok i) : i.wellFormed = true ∧ encode i = w := by
  have hpack := packWord_fields w
  simp only [decode] at h
  split at h
  case h_18 => cases h
  case h_3 hop | h_7 hop =>
    cases h
    exact ⟨by simp [Instr.wellFormed], by rwa [hop] at hpack⟩
  all_goals
    next hop =>
    simp only [withReservedZero_ok, Bool.and_eq_true, beq_iff_eq] at h
    obtain ⟨hzero, rfl⟩ := h
    simp only [hop, hzero] at hpack
    exact ⟨by simp [Instr.wellFormed], hpack⟩

/-- The row of a word is found by the opcode the decoder sees. -/
theorem rowOf_of_fieldOp {w : Word} {op : Nat} (h : fieldOp w = op) : rowOf w = rows.find? fun r => r.op == op := by
  subst h
  rfl

/-- R94 is met when each field is used by the row or 0; here with the decoder's names for the fields. -/
theorem not_reservedViolated (r : Row) (w : Word) : (!reservedViolated r w) =
    ((r.rd != 0 || fieldRd w == 0) && (r.ra != 0 || fieldRa w == 0) && (r.rb != 0 || fieldRb w == 0) &&
      (r.rc != 0 || fieldRc w == 0)) := by
  simp [reservedViolated, addressFields, fieldRd, fieldRa, fieldRb, fieldRc, bne, Bool.and_assoc]

/-- A word has no row exactly when its opcode is one of those R95 lists. -/
theorem rowOf_eq_none_iff (w : Word) : rowOf w = none ↔ illegalOp (fieldOp w) = true := by
  simp only [rowOf_of_fieldOp rfl, List.find?_eq_none, rows, List.cons_append, List.nil_append, List.forall_mem_cons,
    beq_iff_eq, List.not_mem_nil, false_imp_iff, implies_true, and_true, illegalOp, Bool.or_eq_true, decide_eq_true_eq]
  omega

/-- The decoder goes by the table: a word without a row is refused as `E_OP`, and a word with one is a command under the
condition that the fields the row does not use are zero. -/
theorem decode_eq_of_table (w : Word) :
    (rowOf w = none ∧ decode w = .error .op) ∨
    ∃ r, rowOf w = some r ∧ ∃ i, decode w = withReservedZero (!reservedViolated r w) i := by
  simp only [decode]
  split
  case h_18 =>
    refine .inl ⟨?_, rfl⟩
    simp only [rowOf_eq_none_iff, illegalOp]
    grind
  all_goals
    next hop =>
    refine .inr ⟨_, rowOf_of_fieldOp hop, ?_⟩
    simp only [not_reservedViolated, Nat.reduceBNe, Bool.true_or, Bool.false_or, Bool.true_and, Bool.and_true]
    exact ⟨_, rfl⟩

/-- Everything the decoder can answer, by the row and the unused fields of the word (R94, R95). -/
theorem decode_cases (w : Word) :
    (rowOf w = none ∧ decode w = .error .op) ∨
    (∃ r, rowOf w = some r ∧ reservedViolated r w = true ∧ decode w = .error .rsvd) ∨
    (∃ r i, rowOf w = some r ∧ reservedViolated r w = false ∧ decode w = .ok i) := by
  obtain hop | ⟨r, hr, i, hd⟩ := decode_eq_of_table w
  · exact .inl hop
  cases hv : reservedViolated r w <;> rw [hv] at hd
  · exact .inr (.inr ⟨r, i, hr, hv, hd⟩)
  · exact .inr (.inl ⟨r, hr, hv, hd⟩)

/-- A word the decoder refuses is not executed when the host issues it: its error is raised and nothing else changes
(R212 steps 1 and 2, R214). -/
theorem hostWrite_regCmd_of_error {s : State} {w : Word} {e : IssueError} (hb : s.busy = false) (herr : s.err = false)
    (hd : decode w = .error e) : s.hostWrite regCmd w = raised s (errorCode e) w := by
  have hissue : s.issue w = s.takeError e w := by simp [State.issue, herr, hd]
  rw [hostWrite_regCmd, hb, hissue]
  cases s
  cases hb
  rfl

end Sys2Proof.Machine
end

section
/-! PROOF. The obligations on the encoding (spec/30_encoding.md), each from the lemmas above. -/

open Sys2Proof Sys2Proof.Machine Sys2Proof.Claims

namespace Sys2Proof.Proofs

/-- Settles O2: every field of the encoding is the operand put into it (`decode_encode`). -/
theorem decodeEncode : Obligations.DecodeEncode := fun _ => decode_encode

/-- Settles O3, case by case of `decode_cases`: a command the decoder answers is well-formed with this encoding
(`encode_of_decode`), and no other command has it, nor any command the encoding of a refused word, since the decoder would
give that command back (`decode_encode`). -/
theorem totalDecoder : Obligations.TotalDecoder := by
  intro w
  have hdec : ∀ j : Instr, j.wellFormed = true → encode j = w → decode w = .ok j := fun j hj hjw => hjw ▸ decode_encode hj
  obtain ⟨-, hd⟩ | ⟨r, -, -, hd⟩ | ⟨r, i, -, -, hd⟩ := decode_cases w
  · exact .inr ⟨.inl hd, fun j hj hjw => nomatch hd.symm.trans (hdec j hj hjw)⟩
  · exact .inr ⟨.inr hd, fun j hj hjw => nomatch hd.symm.trans (hdec j hj hjw)⟩
  · obtain ⟨hwf, henc⟩ := encode_of_decode hd
    exact .inl ⟨i, hd, hwf, henc, fun j hj hjw => Except.ok.inj ((hdec j hj hjw).symm.trans hd)⟩

/-- Settles O4: by `decode_cases` the decoder refuses as `E_OP` exactly the words without a row, whose opcodes are those of
R95 (`rowOf_eq_none_iff`), and a refused word is not executed (`hostWrite_regCmd_of_error`). -/
theorem illegalOpcode : Obligations.IllegalOpcode := by
  refine ⟨by decide +kernel, fun w => ?_⟩
  have hiff : illegalOp (opOf w) = true ↔ decode w = .error .op := by
    refine (rowOf_eq_none_iff w).symm.trans ?_
    obtain ⟨hr, hd⟩ | ⟨r, hr, -, hd⟩ | ⟨r, i, hr, -, hd⟩ := decode_cases w
    all_goals simp [hr, hd]
  exact ⟨hiff, fun h s hb herr => hostWrite_regCmd_of_error hb herr (hiff.1 h)⟩

/-- Settles O5: the row of the word picks the case of `decode_cases`, and a refused word is not executed
(`hostWrite_regCmd_of_error`). -/
theorem reservedFields : Obligations.ReservedFields := by
  intro w r hr
  obtain ⟨hr', -⟩ | ⟨r', hr', hv, hd⟩ | ⟨r', i, hr', hv, hd⟩ := decode_cases w
  all_goals cases hr'.symm.trans hr
  · exact ⟨fun _ => ⟨hd, fun s hb herr => hostWrite_regCmd_of_error hb herr hd⟩, fun h => (nomatch hv.symm.trans h)⟩
  · exact ⟨fun h => (nomatch hv.symm.trans h), fun _ => ⟨i, hd⟩⟩

/-- Settles O1: each word decoded by evaluation. -/
theorem specWordsDecode : Obligations.SpecWordsDecode :=
  ⟨rfl, rfl, rfl, rfl, rfl, rfl, rfl, rfl, rfl⟩

end Sys2Proof.Proofs
end

section
/-! PROOF. What the commands of the arithmetic core leave when they run (spec/40_arith_core.md), and what joins `SUB` to
`ADD` and to `LTMASK` (R115). -/

namespace Sys2Proof.Machine

/-- The mask of a bit in the spec's own words (R12, R28). -/
theorem maskOf_eq_ite (c : Bool) : maskOf c = if c = true then 0xFFFFFFFFFFFFFFFF else 0 := by
  cases c
  · exact maskOf_false
  · exact maskOf_true

theorem maskOf_eq_ones_iff {c : Bool} : maskOf c = 0xFFFFFFFFFFFFFFFF ↔ c = true := by cases c <;> decide

/-- `lt_mask` (R114) is the mask of the comparison: equal operands keep the all-zero accumulator. -/
theorem ltMaskBuf_eq {a b : List Word} (h : a.length = b.length) :
    ltMaskBuf a b = maskOf (decide (val a < val b)) := by
  rw [ltMaskBuf, ← maskOf_false, ltScan_spec false h]
  split
  · next heq => rw [heq, decide_eq_false (lt_irrefl _)]
  · rfl

/-- The stored sum modulo `n` (R113). -/
theorem addModN_limbs {n a b : List Word} (ha : a.length = n.length) (hb : b.length = n.length)
    (han : val a < val n) (hbn : val b < val n) : addModN n a b = limbs n.length ((val a + val b) % val n) :=
  eq_limbs (addModN_length ha hb) (addModN_spec ha hb han hbn)

/-- R115 on buffers: the carry out of the sum and the borrow of the difference are the same multiple of the radix, so
subtracting `b` from the low limbs of `a + b` gives `a`. -/
theorem bnSub_bnAdd {a b : List Word} (h : a.length = b.length) : (bnSub (bnAdd a b).1 b).1 = a := by
  have hls := bnAdd_length h
  have hsb := hls.trans h
  have hld := (bnSub_length hsb).trans hls
  refine eq_of_val_eq hld ?_
  have hadd := bnAdd_spec h
  have hsub := bnSub_spec hsb
  have hd := val_lt (bnSub (bnAdd a b).1 b).1
  rw [hls] at hsub
  rw [hld] at hd
  have hcarried : val (bnSub (bnAdd a b).1 b).1 + 2 ^ (64 * a.length) * (bnAdd a b).2.toNat =
      val a + 2 ^ (64 * a.length) * (bnSub (bnAdd a b).1 b).2.toNat := by omega
  have hmod := congrArg (· % 2 ^ (64 * a.length)) hcarried
  simpa only [Nat.add_mul_mod_self_left, Nat.mod_eq_of_lt hd, Nat.mod_eq_of_lt (val_lt a)] using hmod

/-- A command that passes its checks and whose regions are permitted does so in every state with the same host side. -/
theorem Runs.of_same {i : Instr} {s t : State} (h : Runs i s) (hh : SameHostSide s t) (hv : t.ctxv = s.ctxv) :
    Runs i t :=
  ⟨(issueError_congr i hh hv).trans h.issued, by rw [hh.limbCount]; exact h.regions⟩

/-- A stored buffer is the operand at its base. -/
theorem operand_store (s : State) (rd : Nat) {ws : List Word} {n : Nat} (h : ws.length = n) :
    (s.store rd ws).operand rd n = some ws := by
  subst h
  exact Memory.readBuf_writeBuf _ _ _

/-- A store leaves an operand in a disjoint region alone. -/
theorem operand_store_disjoint (s : State) {rd base k n : Nat} {ws : List Word} (h : ws.length = k)
    (hd : regionsDisjoint ⟨rd, k⟩ ⟨base, n⟩ = true) : (s.store rd ws).operand base n = s.operand base n := by
  subst h
  exact Memory.readBuf_writeBuf_disjoint _ hd

/-- `ADDMODN` of operands below the modulus stores what `add_mod_n` computes (R113). -/
theorem addmodn_runs {rd ra rb rc : Nat} {s : State} {a b n : List Word} (h : Runs (.addmodn rd ra rb rc) s)
    (ha : s.operand ra s.limbCount = some a) (hb : s.operand rb s.limbCount = some b)
    (hn : s.operand rc s.limbCount = some n) (han : val a < val n) (hbn : val b < val n) :
    exec (.addmodn rd ra rb rc) s = .next (s.store rd (addModN n a b)).complete := by
  simp only [exec, execAddmodn]
  refine command_runs h nofun (operandsHeld_iff.2 (by simp [readRegions, ha, hb, hn])) ?_
  simp only [ha, hb, hn]
  exact if_pos ⟨han, hbn⟩

/-- `LTMASK` leaves the verdict of `lt_mask` in `MASK` (R114). -/
theorem ltmask_runs {ra rb : Nat} {s : State} {a b : List Word} (h : Runs (.ltmask ra rb) s)
    (ha : s.operand ra s.limbCount = some a) (hb : s.operand rb s.limbCount = some b) :
    exec (.ltmask ra rb) s = .next ({ s with mask := ltMaskBuf a b } : State).complete := by
  simp only [exec, execLtmask]
  exact command_runs h nofun (operandsHeld_iff.2 (by simp [readRegions, ha, hb])) (by simp only [ha, hb])

end Sys2Proof.Machine
end

section
/-! PROOF. The obligations on the arithmetic core, each from the lemmas above. -/

open Sys2Proof Sys2Proof.Machine Sys2Proof.Claims

namespace Sys2Proof.Proofs

/-- Settles O25: `ADD` runs `bn_add` (`add_runs`), whose limbs and carry are those of the sum. -/
theorem addResult : Obligations.AddResult := by
  intro rd ra rb s a b h ha hb
  have hlen : a.length = b.length := (operand_length ha).trans (operand_length hb).symm
  rw [add_runs h ha hb, bnAdd_limbs hlen, bnAdd_carry hlen, operand_length ha]
  rfl

/-- Settles O26: `SUB` runs `bn_sub` (`sub_runs`), whose limbs and borrow are those of the difference. -/
theorem subResult : Obligations.SubResult := by
  intro rd ra rb s a b h ha hb
  have hlen : a.length = b.length := (operand_length ha).trans (operand_length hb).symm
  rw [sub_runs h ha hb, bnSub_limbs hlen, bnSub_borrow hlen, operand_length ha]
  rfl

/-- Settles O27: `ADDMODN` runs `add_mod_n` (`addmodn_runs`), which is the sum modulo `n` (`addModN_limbs`). -/
theorem addmodnResult : Obligations.AddmodnResult := by
  intro rd ra rb rc s a b n h ha hb hn han hbn
  rw [addmodn_runs h ha hb hn han hbn, addModN_limbs ((operand_length ha).trans (operand_length hn).symm)
    ((operand_length hb).trans (operand_length hn).symm) han hbn, operand_length hn]
  rfl

/-- Settles O28: `LTMASK` runs the scan (`ltmask_runs`), which is the mask of the comparison (`ltMaskBuf_eq`). -/
theorem ltmaskResult : Obligations.LtmaskResult := by
  intro ra rb s a b h ha hb
  rw [ltmask_runs h ha hb, ltMaskBuf_eq ((operand_length ha).trans (operand_length hb).symm), maskOf_eq_ite]
  simp only [decide_eq_true_eq]
  rfl

/-- Settles O45: the sum is read back beside the untouched `b`, so that the first law is that of the buffers
(`bnSub_bnAdd`); the borrow (`bnSub_borrow`) and the verdict (`ltMaskBuf_eq`) are the same comparison. -/
theorem arithmeticLaws : Obligations.ArithmeticLaws := by
  refine ⟨fun rd ra rb re s a b hadd hsub ha hb hd => ?_, fun rd ra rb s a b hsub hlt ha hb => ?_⟩
  all_goals have hlen : a.length = b.length := (operand_length ha).trans (operand_length hb).symm
  · have hsum : (bnAdd a b).1.length = s.limbCount := (bnAdd_length hlen).trans (operand_length ha)
    refine ⟨_, _, add_runs hadd ha hb, sub_runs (a := (bnAdd a b).1) (b := b) ?runs ?sum ?kept, ?difference⟩
    case runs => exact hsub.of_same ⟨rfl, rfl, rfl, rfl, rfl, rfl, rfl, rfl, rfl⟩ rfl
    case sum => exact operand_store s rd hsum
    case kept => exact (operand_store_disjoint s hsum hd).trans hb
    case difference =>
      rw [bnSub_bnAdd hlen]
      exact operand_store _ re (operand_length ha)
  · refine ⟨_, _, sub_runs hsub ha hb, ltmask_runs hlt ha hb, ?_⟩
    simp only [State.complete_cy, State.complete_mask]
    rw [bnSub_borrow hlen, ltMaskBuf_eq hlen, maskOf_eq_ones_iff]

end Sys2Proof.Proofs
end

section
/-! PROOF. What the commands of the multiplier leave when they run (spec/41_multiplier.md): each of the four stores
`bn_mul` of its operands (R140), and a Karatsuba command that may run has its schoolbook command beside it. -/

namespace Sys2Proof.Machine

theorem bnMul_length_of_equal {a b : List Word} {n : Nat} (ha : a.length = n) (hb : b.length = n) :
    (bnMul a b).length = 2 * n := by
  rw [bnMul_length, ha, hb, Nat.two_mul]

/-- The product of two buffers of `n` limbs (R130). -/
theorem bnMul_limbs {a b : List Word} {n : Nat} (ha : a.length = n) (hb : b.length = n) :
    bnMul a b = limbs (2 * n) (val a * val b) :=
  eq_limbs (bnMul_length_of_equal ha hb) (bnMul_val a b)

/-- `MUL` stores the schoolbook product (R131). -/
theorem mul_runs {rd ra rb : Nat} {s : State} {a b : List Word} (h : Runs (.mul rd ra rb) s)
    (ha : s.operand ra s.limbCount = some a) (hb : s.operand rb s.limbCount = some b) :
    exec (.mul rd ra rb) s = .next (s.store rd (bnMul a b)).complete := by
  simp only [exec, execMul]
  exact command_runs h nofun (operandsHeld_iff.2 (by simp [readRegions, ha, hb])) (by simp only [ha, hb])

/-- `SQR` stores the product of its operand with itself (R133). -/
theorem sqr_runs {rd ra : Nat} {s : State} {a : List Word} (h : Runs (.sqr rd ra) s)
    (ha : s.operand ra s.limbCount = some a) :
    exec (.sqr rd ra) s = .next (s.store rd (bnMul a a)).complete := by
  simp only [exec, execSqr, ← bnSqr_eq_bnMul]
  exact command_runs h nofun (operandsHeld_iff.2 (by simp [readRegions, ha])) (by simp only [ha])

/-- `KMUL` stores the schoolbook product too, and leaves its scratch region without values (R136, R139, R140). -/
theorem kmul_runs {rd ra rb rc : Nat} {s : State} {a b : List Word} (h : Runs (.kmul rd ra rb rc) s)
    (ha : s.operand ra s.limbCount = some a) (hb : s.operand rb s.limbCount = some b) :
    exec (.kmul rd ra rb rc) s =
      .next ((s.store rd (bnMul a b)).forget ⟨rc, Config.karatsubaScratch * s.limbCount⟩).complete := by
  have hlen : a.length = b.length := (operand_length ha).trans (operand_length hb).symm
  simp only [exec, execKmul, ← karaMul_eq_bnMul a.length hlen]
  exact command_runs h nofun (operandsHeld_iff.2 (by simp [readRegions, ha, hb])) (by simp only [ha, hb])

/-- `KSQR` stores the product of its operand with itself, and leaves its scratch region without values (R138 to R140). -/
theorem ksqr_runs {rd ra rc : Nat} {s : State} {a : List Word} (h : Runs (.ksqr rd ra rc) s)
    (ha : s.operand ra s.limbCount = some a) :
    exec (.ksqr rd ra rc) s =
      .next ((s.store rd (bnMul a a)).forget ⟨rc, Config.karatsubaScratch * s.limbCount⟩).complete := by
  simp only [exec, execKsqr, ← karaSqr_eq_bnMul a.length a]
  exact command_runs h nofun (operandsHeld_iff.2 (by simp [readRegions, ha])) (by simp only [ha])

/-! The same operands for another command. -/

/-- A command that asks for nothing a checked command did not ask for passes its issue checks too (R212). -/
theorem issueError_none_of_subset {i j : Instr} {s : State} (h : issueError i s = none)
    (hb : readsBbits j = true → readsBbits i = true) (hc : needsCtx j = true → needsCtx i = true)
    (hr : commandRegions j s.limbCount ⊆ commandRegions i s.limbCount) : issueError j s = none := by
  obtain ⟨h1, hmax, hbits, hctx, hregions⟩ := issueError_none h
  have hlen : ¬(s.limbCount = 0 ∨ s.params.lmax < s.limbCount) := by omega
  have hbbits : ¬(readsBbits j = true ∧ 64 * s.limbCount < s.bbits.toNat) := fun ⟨hj, hlt⟩ => by
    have := hbits (hb hj)
    omega
  have hnoCtx : ¬(needsCtx j = true ∧ s.ctxv = false) := fun ⟨hj, hv⟩ => nomatch hv.symm.trans (hctx (hc hj))
  have haddr : ¬(commandRegions j s.limbCount).any (fun r => decide (s.params.memWords < r.base + r.len)) = true := by
    rw [List.any_eq_true]
    rintro ⟨r, hmem, hlt⟩
    exact (hregions r (hr hmem)).not_gt (of_decide_eq_true hlt)
  rw [issueError, if_neg hlen, if_neg hbbits, if_neg hnoCtx, if_neg haddr]

/-- The destination of `KMUL` is apart from both sources, and from the scratch (R243). -/
theorem Runs.kmul_apart {rd ra rb rc : Nat} {s : State} (h : Runs (.kmul rd ra rb rc) s) :
    aliasingPermitted (.mul rd ra rb) s.limbCount = true ∧
    regionsDisjoint ⟨rd, 2 * s.limbCount⟩ ⟨rc, Config.karatsubaScratch * s.limbCount⟩ = true := by
  have hr := h.regions
  simp only [aliasingPermitted, Bool.and_eq_true] at hr ⊢
  obtain ⟨⟨⟨hsources, hscratch⟩, -⟩, -⟩ := hr
  exact ⟨hsources, hscratch⟩

/-- The destination of `KSQR` is apart from the source, and from the scratch (R243). -/
theorem Runs.ksqr_apart {rd ra rc : Nat} {s : State} (h : Runs (.ksqr rd ra rc) s) :
    aliasingPermitted (.sqr rd ra) s.limbCount = true ∧
    regionsDisjoint ⟨rd, 2 * s.limbCount⟩ ⟨rc, Config.karatsubaScratch * s.limbCount⟩ = true := by
  have hr := h.regions
  simp only [aliasingPermitted, Bool.and_eq_true] at hr ⊢
  exact hr.1

/-- Where `KMUL` may run, so may `MUL` of the same operands: it has the same regions but the scratch. -/
theorem Runs.mul_of_kmul {rd ra rb rc : Nat} {s : State} (h : Runs (.kmul rd ra rb rc) s) : Runs (.mul rd ra rb) s where
  issued := issueError_none_of_subset h.issued nofun nofun (by simp [commandRegions, writtenRegions, readRegions])
  regions := h.kmul_apart.1

/-- Where `KSQR` may run, so may `SQR` of the same operand. -/
theorem Runs.sqr_of_ksqr {rd ra rc : Nat} {s : State} (h : Runs (.ksqr rd ra rc) s) : Runs (.sqr rd ra) s where
  issued := issueError_none_of_subset h.issued nofun nofun (by simp [commandRegions, writtenRegions, readRegions])
  regions := h.ksqr_apart.1

/-- Where `SQR` may run, so may `MUL` of the operand with itself. -/
theorem Runs.mul_of_sqr {rd ra : Nat} {s : State} (h : Runs (.sqr rd ra) s) : Runs (.mul rd ra ra) s where
  issued := issueError_none_of_subset h.issued nofun nofun (by simp [commandRegions, writtenRegions, readRegions])
  regions := by
    have hr : regionsDisjoint ⟨rd, 2 * s.limbCount⟩ ⟨ra, s.limbCount⟩ = true := h.regions
    simp only [aliasingPermitted, hr, Bool.and_self]

/-! The result beside the scratch. -/

theorem Memory.readBuf_forget_disjoint (m : Memory) {base n : Nat} {r : Region}
    (h : regionsDisjoint ⟨base, n⟩ r = true) : (m.forget r).readBuf base n = m.readBuf base n := by
  rw [regionsDisjoint_iff] at h
  simp only at h
  refine Memory.readBuf_congr fun a h1 h2 => ?_
  rw [Memory.read_forget, if_neg]
  simp only [inRegion, Bool.and_eq_true, decide_eq_true_eq]
  omega

/-- A stored buffer is still the operand at its base after a region apart from it has lost its values. -/
theorem operand_store_forget (s : State) (rd : Nat) {ws : List Word} {n : Nat} {r : Region} (hl : ws.length = n)
    (hd : regionsDisjoint ⟨rd, n⟩ r = true) : ((s.store rd ws).forget r).operand rd n = some ws :=
  (Memory.readBuf_forget_disjoint _ hd).trans (operand_store s rd hl)

end Sys2Proof.Machine
end

section
/-! PROOF. The obligations on the multiplier, each from the lemmas above. -/

open Sys2Proof Sys2Proof.Machine Sys2Proof.Claims

namespace Sys2Proof.Proofs

/-- Settles O29: both commands store `bn_mul` of their operands (`mul_runs`, `sqr_runs`), which is the exact product
(`bnMul_limbs`). -/
theorem mulSqrResult : Obligations.MulSqrResult := by
  refine ⟨fun rd ra rb s a b h ha hb => ?_, fun rd ra s a h ha => ?_⟩
  · rw [mul_runs h ha hb, bnMul_limbs (operand_length ha) (operand_length hb)]
    rfl
  · rw [sqr_runs h ha, bnMul_limbs (operand_length ha) (operand_length ha), sq]
    rfl

/-- Settles O30: the Karatsuba recursion gives the same product (`kmul_runs`, `ksqr_runs`), with the scratch forgotten. -/
theorem kmulKsqrResult : Obligations.KmulKsqrResult := by
  refine ⟨fun rd ra rb rc s a b h ha hb => ?_, fun rd ra rc s a h ha => ?_⟩
  · rw [kmul_runs h ha hb, bnMul_limbs (operand_length ha) (operand_length hb)]
    rfl
  · rw [ksqr_runs h ha, bnMul_limbs (operand_length ha) (operand_length ha), sq]
    rfl

/-- Settles O46: the schoolbook commands may run where the Karatsuba ones may (`Runs.mul_of_kmul`, `Runs.sqr_of_ksqr`), all
store the same buffer, and the scratch is apart from it (`operand_store_forget`). -/
theorem karatsubaEqualsSchoolbook : Obligations.KaratsubaEqualsSchoolbook := by
  refine ⟨fun rd ra rb rc s a b h ha hb => ?_, fun rd ra rc s a h ha => ?_⟩
  · have hl := bnMul_length_of_equal (operand_length ha) (operand_length hb)
    exact ⟨_, _, bnMul a b, kmul_runs h ha hb, mul_runs h.mul_of_kmul ha hb,
      operand_store_forget s rd hl h.kmul_apart.2, operand_store s rd hl⟩
  · have hl := bnMul_length_of_equal (operand_length ha) (operand_length ha)
    exact ⟨_, _, _, bnMul a a, ksqr_runs h ha, sqr_runs h.sqr_of_ksqr ha, mul_runs h.sqr_of_ksqr.mul_of_sqr ha ha,
      operand_store_forget s rd hl h.ksqr_apart.2, operand_store s rd hl, operand_store s rd hl⟩

end Sys2Proof.Proofs
end

section
/-! PROOF. What the commands of the Montgomery Engine leave when they run (spec/42_montgomery.md), in terms of the
functions they are made of: R163 to R171. -/

namespace Sys2Proof.Machine

/-- A command that runs does so whatever `LMEM` holds and `BUSY` is. -/
theorem Runs.with_memory {i : Instr} {s : State} (h : Runs i s) (m : Memory) (b : Bool) :
    Runs i { s with lmem := m, busy := b } :=
  h.of_same ⟨rfl, rfl, rfl, rfl, rfl, rfl, rfl, rfl, rfl⟩ rfl

/-- `PRECOMPR2` of a legal modulus stores `precompute_r2` of it (R165). -/
theorem precompr2_runs {rd ra : Nat} {s : State} {n : List Word} (h : Runs (.precompr2 rd ra) s)
    (hn : s.operand ra s.limbCount = some n) (hodd : val n % 2 = 1) (h3 : 3 ≤ val n) :
    exec (.precompr2 rd ra) s = .next (s.store rd (precomputeR2 n)).complete :=
  modulusCommand_runs h hn hodd h3

/-- `CTXLOAD` of a legal modulus loads the context of it (R166). -/
theorem ctxload_runs {ra : Nat} {s : State} {n : List Word} (h : Runs (.ctxload ra) s)
    (hn : s.operand ra s.limbCount = some n) (hodd : val n % 2 = 1) (h3 : 3 ≤ val n) :
    exec (.ctxload ra) s = .next (s.loadContext n).complete :=
  modulusCommand_runs h hn hodd h3

/-- `REDC` below the bound stores what `reduction` leaves of its source, and then the reduced value (R167). -/
theorem redc_runs {rd ra : Nat} {s : State} {c : List Word} (h : Runs (.redc rd ra) s) (hp : s.ctxPoisoned = false)
    (hc : s.operand ra (2 * s.limbCount) = some c)
    (hlt : val c < val (s.modulus s.limbCount) * 2 ^ (64 * s.limbCount)) :
    exec (.redc rd ra) s = .next ((s.store ra (reduction (s.modulus s.limbCount) s.ctxNinv c).2).store rd
      (reduction (s.modulus s.limbCount) s.ctxNinv c).1).complete := by
  simp only [exec, execRedc]
  refine command_runs h (fun _ => hp) (operandsHeld_iff.2 (by simp [readRegions, hc])) ?_
  simp only [hc]
  exact if_pos hlt

/-- `TOMONT` stores `to_montgomery` of its operand (R168). -/
theorem tomont_runs {rd ra : Nat} {s : State} {a : List Word} (h : Runs (.tomont rd ra) s) (hp : s.ctxPoisoned = false)
    (ha : s.operand ra s.limbCount = some a) :
    exec (.tomont rd ra) s =
      .next (s.store rd (toMont (s.modulus s.limbCount) s.ctxNinv (s.rSquared s.limbCount) a)).complete := by
  simp only [exec, execTomont]
  exact command_runs h (fun _ => hp) (operandsHeld_iff.2 (by simp [readRegions, ha])) (by simp only [ha])

/-- `FROMMONT` stores `from_montgomery` of its operand (R169). -/
theorem frommont_runs {rd ra : Nat} {s : State} {a : List Word} (h : Runs (.frommont rd ra) s)
    (hp : s.ctxPoisoned = false) (ha : s.operand ra s.limbCount = some a) :
    exec (.frommont rd ra) s = .next (s.store rd (fromMont (s.modulus s.limbCount) s.ctxNinv a)).complete := by
  simp only [exec, execFrommont]
  exact command_runs h (fun _ => hp) (operandsHeld_iff.2 (by simp [readRegions, ha])) (by simp only [ha])

/-- `MONTMUL` below the bound stores `mont_mul` of its operands (R170). -/
theorem montmul_runs {rd ra rb : Nat} {s : State} {a b : List Word} (h : Runs (.montmul rd ra rb) s)
    (hp : s.ctxPoisoned = false) (ha : s.operand ra s.limbCount = some a) (hb : s.operand rb s.limbCount = some b)
    (hlt : val a * val b < val (s.modulus s.limbCount) * 2 ^ (64 * s.limbCount)) :
    exec (.montmul rd ra rb) s = .next (s.store rd (montMul (s.modulus s.limbCount) s.ctxNinv a b)).complete := by
  simp only [exec, execMontmul]
  refine command_runs h (fun _ => hp) (operandsHeld_iff.2 (by simp [readRegions, ha, hb])) ?_
  simp only [ha, hb]
  exact if_pos hlt

/-- `MONTSQR` below the bound stores `mont_mul` of its operand with itself (R171). -/
theorem montsqr_runs {rd ra : Nat} {s : State} {a : List Word} (h : Runs (.montsqr rd ra) s)
    (hp : s.ctxPoisoned = false) (ha : s.operand ra s.limbCount = some a)
    (hlt : val a * val a < val (s.modulus s.limbCount) * 2 ^ (64 * s.limbCount)) :
    exec (.montsqr rd ra) s = .next (s.store rd (montMul (s.modulus s.limbCount) s.ctxNinv a a)).complete := by
  simp only [exec, execMontsqr, montSqr_eq_montMul]
  refine command_runs h (fun _ => hp) (operandsHeld_iff.2 (by simp [readRegions, ha])) ?_
  simp only [ha]
  exact if_pos hlt

end Sys2Proof.Machine
end

section
/-! PROOF. The values those functions return with a legal context, for operands of the length of the modulus. -/

namespace Sys2Proof.Machine

/-- The low word of a buffer. -/
theorem val_mod_word (n : List Word) : val n % 2 ^ 64 = (n.headD 0#64).toNat := by
  cases n with
  | nil => rfl
  | cons x xs => rw [val_cons, List.headD_cons, Nat.add_mul_mod_self_left, Nat.mod_eq_of_lt x.isLt]

/-- The word inverse of an odd modulus, in the numbers of R161. -/
theorem modInvWord_mul_val {n : List Word} (hodd : val n % 2 = 1) :
    (modInvWord (n.headD 0#64)).toNat * (val n % 2 ^ 64) % 2 ^ 64 = 2 ^ 64 - 1 := by
  have h := congrArg BitVec.toNat (modInvWord_spec (head_odd hodd))
  rwa [BitVec.toNat_mul, BitVec.toNat_allOnes, ← val_mod_word] at h

/-- The Montgomery form of `x`, as a buffer. -/
theorem IsMont.eq_limbs {n v : List Word} {x : Nat} (h : IsMont n x v) :
    v = limbs n.length (x * 2 ^ (64 * n.length) % val n) :=
  Machine.eq_limbs h.length ((Nat.mod_eq_of_lt h.reduced).symm.trans h.form)

theorem ContextFor.isMont_limbs {n r2 : List Word} {nInv : Word} (h : ContextFor n nInv r2) (x : Nat) :
    IsMont n x (limbs n.length (x * 2 ^ (64 * n.length) % val n)) := by
  have hlt : x * 2 ^ (64 * n.length) % val n < val n := Nat.mod_lt _ h.pos
  have hv := val_limbs_of_lt (hlt.trans (val_lt n))
  exact ⟨limbs_length _ _, hv.trans_lt hlt, by rw [hv]; exact Nat.mod_modEq _ _⟩

/-- The product of two Montgomery forms is below the bound of REDC (R170). -/
theorem IsMont.mul_lt {n u v : List Word} {x y : Nat} (hu : IsMont n x u) (hv : IsMont n y v) :
    val u * val v < val n * 2 ^ (64 * n.length) :=
  Nat.mul_lt_mul'' hu.reduced (hv.reduced.trans (val_lt n))

/-- The product of any `L`-limb number with `R² mod N` is below the bound of REDC (R168). -/
theorem ContextReady.mul_rSquared_lt {s : State} {a : List Word} (h : ContextReady s) (ha : a.length = s.limbCount) :
    val a * val (s.rSquared s.limbCount) < val (s.modulus s.limbCount) * 2 ^ (64 * s.limbCount) := by
  have hr2 : val (s.rSquared s.limbCount) < val (s.modulus s.limbCount) := by
    rw [h.legal.r2Val]
    exact Nat.mod_lt _ h.legal.pos
  rw [Nat.mul_comm (val (s.modulus _))]
  exact Nat.mul_lt_mul'' (ha ▸ val_lt a) hr2

/-! The operand of `FROMMONT`, extended to double width (R169). -/

theorem extended_length {a : List Word} {n : Nat} (ha : a.length = n) : (a ++ List.replicate n 0#64).length = 2 * n := by
  rw [List.length_append, List.length_replicate, ha, Nat.two_mul]

theorem extended_val (a : List Word) (n : Nat) : val (a ++ List.replicate n 0#64) = val a := by
  rw [val_append, val_replicate_zero, Nat.mul_zero, Nat.add_zero]

/-- Any `L`-limb number is below the bound of REDC. -/
theorem ContextReady.extended_lt {s : State} {a : List Word} (h : ContextReady s) (ha : a.length = s.limbCount) :
    val (a ++ List.replicate s.limbCount 0#64) < val (s.modulus s.limbCount) * 2 ^ (64 * s.limbCount) := by
  rw [extended_val]
  exact (ha ▸ val_lt a).trans_le (Nat.le_mul_of_pos_left _ h.legal.pos)

theorem ContextReady.fromMont_eq {s : State} (h : ContextReady s) (a : List Word) :
    fromMont (s.modulus s.limbCount) s.ctxNinv a =
      (reduction (s.modulus s.limbCount) s.ctxNinv (a ++ List.replicate s.limbCount 0#64)).1 := by
  rw [fromMont, h.length]

/-! REDC and the Montgomery product with the context of the state. -/

/-- What `reduction` returns with the context of the state, as a stored buffer: the number below `N` that `R` multiplies
to the input modulo `N` (R164). -/
theorem ContextReady.reduction_limbs {s : State} {c : List Word} (h : ContextReady s) (hc : c.length = 2 * s.limbCount)
    (hlt : val c < val (s.modulus s.limbCount) * 2 ^ (64 * s.limbCount)) :
    ∃ r, r < val (s.modulus s.limbCount) ∧
      r * 2 ^ (64 * s.limbCount) % val (s.modulus s.limbCount) = val c % val (s.modulus s.limbCount) ∧
      (reduction (s.modulus s.limbCount) s.ctxNinv c).1 = limbs s.limbCount r := by
  have hv := h.legal.reduction_value (c := c)
  rw [h.length] at hv
  obtain ⟨hl, hr, hmod⟩ := hv hc hlt
  exact ⟨_, hr, hmod, eq_limbs hl rfl⟩

/-- `mont_mul` below the bound, as a stored buffer: the number below `N` that `R` multiplies to the product modulo `N`
(R170). -/
theorem ContextReady.montMul_limbs {s : State} {a b : List Word} (h : ContextReady s) (ha : a.length = s.limbCount)
    (hb : b.length = s.limbCount) (hlt : val a * val b < val (s.modulus s.limbCount) * 2 ^ (64 * s.limbCount)) :
    ∃ r, r < val (s.modulus s.limbCount) ∧
      r * 2 ^ (64 * s.limbCount) % val (s.modulus s.limbCount) = val a * val b % val (s.modulus s.limbCount) ∧
      montMul (s.modulus s.limbCount) s.ctxNinv a b = limbs s.limbCount r := by
  have hred := h.reduction_limbs (bnMul_length_of_equal ha hb)
  rw [bnMul_val] at hred
  exact hred hlt

end Sys2Proof.Machine
end

section
/-! PROOF. A composite command beside its composition (spec/42_montgomery.md R173): a REDC of the product in a free region
leaves the state of the composite command, but for the words of that region. -/

namespace Sys2Proof.Machine

/-- The two states hold the same buffer of `n` limbs at `rd`, and differ in nothing but the `LMEM` words of `q`. -/
def AgreeBeside (q : Region) (rd n : Nat) (u v : State) : Prop :=
  u.operand rd n = v.operand rd n ∧ (∃ r, v.operand rd n = some r) ∧ SameLmemOutside [q] u v ∧
    u = { v with lmem := u.lmem }

/-- A store in one of the regions changes nothing outside them. -/
theorem SameLmemOutside.of_store {rs : List Region} {t s : State} (h : SameLmemOutside rs t s) {p k : Nat}
    {ws : List Word} (hl : ws.length = k) (hr : ⟨p, k⟩ ∈ rs) : SameLmemOutside rs (t.store p ws) s := fun a ha =>
  (h a ha).trans (Memory.read_writeBuf_outside _ (hl ▸ ha _ hr)).symm

/-- The same store on both sides. -/
theorem SameLmemOutside.store_both {rs : List Region} {t s : State} (h : SameLmemOutside rs t s) (rd : Nat)
    (ws : List Word) : SameLmemOutside rs (t.store rd ws) (s.store rd ws) := fun a ha => by
  simp only [State.store_lmem, Memory.read_writeBuf, h a ha]

/-- States that differ in the words of `q` and in `BUSY` only agree once both have stored a result and completed. -/
theorem agreeBeside_store {s t : State} {q : Region} {n : Nat} {ws : List Word} (rd : Nat) (hl : ws.length = n)
    (hout : SameLmemOutside [q] t s) (hrest : t.complete = { s.complete with lmem := t.lmem }) :
    AgreeBeside q rd n (t.store rd ws).complete (s.store rd ws).complete :=
  ⟨(operand_store t rd hl).trans (operand_store s rd hl).symm, ⟨ws, operand_store s rd hl⟩, hout.store_both rd ws,
    congrArg (State.store · rd ws) hrest⟩

/-- REDC of a value `c` in the region `(p, 2L)`, in a state that differs from `s` in the words of that region and in `BUSY`
only, leaves what a command of `s` leaves that stores the reduced value of `c`. -/
theorem redc_agrees {s : State} {rd p : Nat} {c : List Word} (m : Memory) (b : Bool) (hs : ContextReady s)
    (hr : Runs (.redc rd p) s) (hout : SameLmemOutside [⟨p, 2 * s.limbCount⟩] { s with lmem := m, busy := b } s)
    (hc : m.readBuf p (2 * s.limbCount) = some c)
    (hlt : val c < val (s.modulus s.limbCount) * 2 ^ (64 * s.limbCount)) :
    ∃ u, exec (.redc rd p) { s with lmem := m, busy := b } = .next u ∧
      AgreeBeside ⟨p, 2 * s.limbCount⟩ rd s.limbCount u
        (s.store rd (reduction (s.modulus s.limbCount) s.ctxNinv c).1).complete := by
  have hlen := reduction_length (c := c) (nInv := s.ctxNinv) hs.legal.nonempty
  rw [hs.length] at hlen
  obtain ⟨hres, hleft⟩ := hlen (Memory.readBuf_length hc)
  exact ⟨_, redc_runs (hr.with_memory m b) hs.unpoisoned hc hlt,
    agreeBeside_store rd hres (hout.of_store hleft (List.mem_singleton_self _)) rfl⟩

/-- A command that stores a product `c` at `(p, 2L)`, then REDC of it, beside a command that stores the reduced value of
`c` at once. -/
theorem product_then_redc {s : State} {first whole : Instr} {rd p : Nat} {c : List Word} (hs : ContextReady s)
    (hr : Runs (.redc rd p) s) (hc : c.length = 2 * s.limbCount)
    (hlt : val c < val (s.modulus s.limbCount) * 2 ^ (64 * s.limbCount))
    (hfirst : exec first s = .next (s.store p c).complete)
    (hwhole : exec whole s = .next (s.store rd (reduction (s.modulus s.limbCount) s.ctxNinv c).1).complete) :
    ∃ t u v, exec first s = .next t ∧ exec (.redc rd p) t = .next u ∧ exec whole s = .next v ∧
      AgreeBeside ⟨p, 2 * s.limbCount⟩ rd s.limbCount u v := by
  have hsame : SameLmemOutside [⟨p, 2 * s.limbCount⟩] s s := fun _ _ => rfl
  obtain ⟨u, hu, hag⟩ := redc_agrees (s.lmem.writeBuf p c) false hs hr (hsame.of_store hc (List.mem_singleton_self _))
    (operand_store s p hc) hlt
  exact ⟨_, u, _, hfirst, hu, hwhole, hag⟩

end Sys2Proof.Machine
end

section
/-! PROOF. The Montgomery Engine: each of its obligations from the lemmas above. -/

open Sys2Proof Sys2Proof.Machine Sys2Proof.Claims

namespace Sys2Proof.Proofs

/-- Settles O31: `PRECOMPR2` runs `precompute_r2` (`precompr2_runs`), which is `2^(128L) mod N` (`precomputeR2_spec`). -/
theorem precompr2Result : Obligations.Precompr2Result := by
  intro rd ra s n h hn hodd h3
  rw [precompr2_runs h hn hodd h3, precomputeR2_spec hodd h3, operand_length hn]
  rfl

/-- Settles O32: `CTXLOAD` builds the context (`ctxload_runs`) of the word inverse (`modInvWord_mul_val`) and
`2^(128L) mod N` (`precomputeR2_spec`). -/
theorem ctxloadResult : Obligations.CtxloadResult := by
  intro ra s n h hn hodd h3
  refine ⟨_, modInvWord_mul_val hodd, ?_⟩
  rw [ctxload_runs h hn hodd h3, State.loadContext, padTo, padTo, precomputeR2_length, precomputeR2_spec hodd h3,
    operand_length hn]
  rfl

/-- Settles O33: `REDC` stores both results of `reduction` (`redc_runs`), which are those of R164 (`reduction_spec`). -/
theorem redcResult : Obligations.RedcResult := by
  intro rd ra s c h hs hc hlt
  have hspec := reduction_spec (c := c) hs.legal.nonempty hs.legal.inverse
  rw [hs.length] at hspec
  obtain ⟨hl, -, hmod, q, hi, c0, hq, hhi, hleft, hsum, hval⟩ := hspec (operand_length hc) hlt
  refine ⟨q, hi, c0, hq, hhi, hsum, hval ▸ hmod, ?_⟩
  rw [redc_runs h hs.unpoisoned hc hlt, hleft, eq_limbs hl hval]
  rfl

/-- Settles O34: `TOMONT` runs `to_montgomery` (`tomont_runs`), which is the Montgomery form (`toMont_spec`). -/
theorem tomontResult : Obligations.TomontResult := by
  intro rd ra s a h hs ha
  rw [tomont_runs h hs.unpoisoned ha, hs.legal.toMont_spec ((operand_length ha).trans hs.length.symm), hs.length]
  rfl

/-- Settles O35: `FROMMONT` runs REDC of its operand (`frommont_runs`), which is always below the bound (`extended_lt`). -/
theorem frommontResult : Obligations.FrommontResult := by
  intro rd ra s a h hs ha
  obtain ⟨r, hr, hmod, hred⟩ := hs.reduction_limbs (extended_length (operand_length ha))
    (hs.extended_lt (operand_length ha))
  rw [extended_val] at hmod
  refine ⟨r, hr, hmod, ?_⟩
  rw [frommont_runs h hs.unpoisoned ha, hs.fromMont_eq, hred]
  rfl

/-- Settles O36: both commands run `mont_mul` (`montmul_runs`, `montsqr_runs`), which is REDC of the product. -/
theorem montmulMontsqrResult : Obligations.MontmulMontsqrResult := by
  refine ⟨fun rd ra rb s a b h hs ha hb hlt => ?_, fun rd ra s a h hs ha hlt => ?_⟩
  · obtain ⟨r, hr, hmod, hmul⟩ := hs.montMul_limbs (operand_length ha) (operand_length hb) hlt
    refine ⟨r, hr, hmod, ?_⟩
    rw [montmul_runs h hs.unpoisoned ha hb hlt, hmul]
    rfl
  · rw [sq] at hlt ⊢
    obtain ⟨r, hr, hmod, hmul⟩ := hs.montMul_limbs (operand_length ha) (operand_length ha) hlt
    refine ⟨r, hr, hmod, ?_⟩
    rw [montsqr_runs h hs.unpoisoned ha hlt, hmul]
    rfl

/-- Settles O47: products and conversions of Montgomery forms (`isMont_mul`, `isMont_toMont`, `fromMont_of_isMont`), read
off the buffers the commands store. -/
theorem montgomeryForms : Obligations.MontgomeryForms := by
  refine ⟨fun rd ra rb x y s h hs ha hb => ?_, fun rd ra re s a hto hfrom hs ha => ?_⟩
  · have hx := hs.legal.isMont_limbs x
    have hy := hs.legal.isMont_limbs y
    have hxy := (hs.legal.isMont_mul hx hy).eq_limbs
    have hlt := hx.mul_lt hy
    rw [hs.length] at hxy hlt
    rw [montmul_runs h hs.unpoisoned ha hb hlt, hxy]
    rfl
  · have hform := hs.legal.isMont_toMont ((operand_length ha).trans hs.length.symm)
    have hback := hs.legal.fromMont_of_isMont hform
    rw [hs.length] at hback
    have hstored := operand_store s rd (hform.length.trans hs.length)
    refine ⟨_, _, tomont_runs hto hs.unpoisoned ha, frommont_runs (hfrom.with_memory _ _) hs.unpoisoned hstored, ?_⟩
    exact (operand_store _ re (hback ▸ limbs_length _ _)).trans (congrArg some hback)

/-- Settles O48: each composite command stores the reduced value of a product that its first command leaves at `(p, 2L)`
(`product_then_redc`); `FROMMONT` has its operand extended there already (`redc_agrees`). -/
theorem compositeCommands : Obligations.CompositeCommands := by
  intro s rd ra rb p hs hr
  refine ⟨fun a hto hmul ha hb => ?_, fun a b hmont hmul ha hb hlt => ?_, fun a hmont hsqr ha hlt => ?_,
    fun a hfrom ha hc => ?_⟩
  · exact product_then_redc hs hr (bnMul_length_of_equal (operand_length ha) (operand_length hb))
      ((bnMul_val a _).trans_lt (hs.mul_rSquared_lt (operand_length ha))) (mul_runs hmul ha hb)
      (tomont_runs hto hs.unpoisoned ha)
  · exact product_then_redc hs hr (bnMul_length_of_equal (operand_length ha) (operand_length hb))
      ((bnMul_val a b).trans_lt hlt) (mul_runs hmul ha hb) (montmul_runs hmont hs.unpoisoned ha hb hlt)
  · rw [sq] at hlt
    exact product_then_redc hs hr (bnMul_length_of_equal (operand_length ha) (operand_length ha))
      ((bnMul_val a a).trans_lt hlt) (sqr_runs hsqr ha) (montsqr_runs hmont hs.unpoisoned ha hlt)
  · obtain ⟨u, hu, hag⟩ := redc_agrees s.lmem s.busy hs hr (fun _ _ => rfl) hc (hs.extended_lt (operand_length ha))
    have hrun := frommont_runs hfrom hs.unpoisoned ha
    rw [hs.fromMont_eq] at hrun
    exact ⟨u, _, hu, hrun, hag⟩

end Sys2Proof.Proofs
end

section
/-! PROOF. What the commands of the Exponentiation Engine leave when they run with a legal context
(spec/43_exponentiation.md R190 to R193). -/

namespace Sys2Proof.Machine

/-- `val(a)^e mod val(N)` as the stored buffer, `N` the modulus of the context and `e` the low `BBITS` bits of `b`
(R190). -/
def State.power (s : State) (a b : List Word) : List Word :=
  limbs s.limbCount (val a ^ (val b % 2 ^ s.bbits.toNat) % val (s.modulus s.limbCount))

theorem State.power_length (s : State) (a b : List Word) : (s.power a b).length = s.limbCount := limbs_length _ _

/-- Square and multiply with the context of the state (R192). -/
theorem ContextReady.modExp_eq_power {s : State} {a : List Word} (h : ContextReady s) (ha : a.length = s.limbCount)
    (b : List Word) :
    modExp (s.modulus s.limbCount) s.ctxNinv (s.rSquared s.limbCount) a b s.bbits.toNat = s.power a b := by
  rw [h.legal.modExp_spec (ha.trans h.length.symm), h.length, State.power]

/-- The ladder with the context of the state (R193). -/
theorem ContextReady.modExpLadder_eq_power {s : State} {a : List Word} (h : ContextReady s)
    (ha : a.length = s.limbCount) (b : List Word) :
    modExpLadder (s.modulus s.limbCount) s.ctxNinv (s.rSquared s.limbCount) a b s.bbits.toNat = s.power a b := by
  rw [h.legal.modExpLadder_spec (ha.trans h.length.symm), h.length, State.power]

/-- `MODEXP` stores the modular power (R192). -/
theorem modexp_runs {rd ra rb : Nat} {s : State} {a b : List Word} (h : Runs (.modexp rd ra rb) s)
    (hs : ContextReady s) (ha : s.operand ra s.limbCount = some a) (hb : s.operand rb s.limbCount = some b) :
    exec (.modexp rd ra rb) s = .next (s.store rd (s.power a b)).complete := by
  simp only [exec, execModexp]
  refine command_runs h (fun _ => hs.unpoisoned) (operandsHeld_iff.2 (by simp [readRegions, ha, hb])) ?_
  simp only [ha, hb, hs.modExp_eq_power (operand_length ha)]

/-- `MODEXPL` stores the same power (R193). -/
theorem modexpl_runs {rd ra rb : Nat} {s : State} {a b : List Word} (h : Runs (.modexpl rd ra rb) s)
    (hs : ContextReady s) (ha : s.operand ra s.limbCount = some a) (hb : s.operand rb s.limbCount = some b) :
    exec (.modexpl rd ra rb) s = .next (s.store rd (s.power a b)).complete := by
  simp only [exec, execModexpl]
  refine command_runs h (fun _ => hs.unpoisoned) (operandsHeld_iff.2 (by simp [readRegions, ha, hb])) ?_
  simp only [ha, hb, hs.modExpLadder_eq_power (operand_length ha)]

/-- Where `MODEXP` may run, so may `MODEXPL` with the same fields: it has the same checks and the same regions. -/
theorem Runs.modexpl_of_modexp {rd ra rb : Nat} {s : State} (h : Runs (.modexp rd ra rb) s) :
    Runs (.modexpl rd ra rb) s where
  issued := issueError_none_of_subset h.issued id id (List.Subset.refl _)
  regions := h.regions

end Sys2Proof.Machine
end

section
/-! PROOF. The Exponentiation Engine: each of its obligations from the lemmas above. -/

open Sys2Proof Sys2Proof.Machine Sys2Proof.Claims

namespace Sys2Proof.Proofs

/-- Settles O37: both commands store the power (`modexp_runs`, `modexpl_runs`), and `MODEXPL` may run where `MODEXP` may
(`modexpl_of_modexp`). -/
theorem modexpModexplResult : Obligations.ModexpModexplResult := fun _ _ _ _ _ _ h hs ha hb =>
  ⟨modexp_runs h hs ha hb, modexpl_runs h.modexpl_of_modexp hs ha hb⟩

/-- Settles O42, from `exec_frame_cy`: the region is that of R93's table. -/
theorem frameExponentiation : Obligations.FrameExponentiation := by
  rintro i rd s t ⟨ra, rb, rfl | rfl⟩ hn hr hi h
  all_goals exact exec_frame_cy h hi nofun rfl rfl fun _ => ⟨hn, hr⟩

/-- Settles O49: both commands store the same power, and it reads back from `(rd, L)` (`operand_store`). -/
theorem exponentiationsAgree : Obligations.ExponentiationsAgree := fun _ _ _ s a b h hl hs ha hb =>
  have hexp := modexp_runs h hs ha hb
  ⟨hexp.trans (modexpl_runs hl hs ha hb).symm, _, s.power a b, hexp, operand_store s _ (s.power_length a b),
    s.power_length a b⟩

end Sys2Proof.Proofs
end

section
/-! PROOF. The issue checks of spec/60_exceptions.md R212 for a command the decoder accepts, read off the opcode map of
spec/30_encoding.md R93 written as a table (`rowOf`). -/

open Sys2Proof.Claims

namespace Sys2Proof.Machine

/-- R66 is violated when the region of one of the used fields does not fit; here with the decoder's names for the
fields. -/
theorem regionViolated_eq (r : Row) (w : Word) (L m : Nat) : regionViolated r w L m =
    ((r.rd != 0 && decide (m < fieldRd w + r.rd * L)) || ((r.ra != 0 && decide (m < fieldRa w + r.ra * L)) ||
      ((r.rb != 0 && decide (m < fieldRb w + r.rb * L)) || (r.rc != 0 && decide (m < fieldRc w + r.rc * L))))) := by
  simp only [regionViolated, addressFields, List.any_cons, List.any_nil, Bool.or_false]
  rfl

/-- A command is what the row of its word describes: it reads `BBITS`, needs the context and names the regions as the row
says (R92, R93). -/
theorem row_of_encode {i : Instr} {r : Row} (h : i.wellFormed = true) (hr : rowOf (encode i) = some r) :
    readsBbits i = r.bbits ∧ needsCtx i = r.ctx ∧
    ∀ L m, ((commandRegions i L).any fun q => decide (m < q.base + q.len)) = regionViolated r (encode i) L m := by
  have hf := fieldsOf_encode i h
  cases i
  all_goals
    simp only [Laws.Fields.fieldsOf, Laws.Fields.expected, Instr.opcode, List.cons.injEq] at hf
    obtain ⟨hop, hrd, hra, hrb, hrc, -⟩ := hf
    obtain rfl := Option.some.inj ((rowOf_of_fieldOp hop).symm.trans hr)
    refine ⟨rfl, rfl, fun L m => ?_⟩
    rw [regionViolated_eq, hrd, hra, hrb, hrc]
    simp [commandRegions, writtenRegions, readRegions, Config.karatsubaScratch, Bool.or_assoc, Bool.or_comm,
      Bool.or_left_comm]

/-- Checks 3 to 6 of R212 in the terms of the row. -/
theorem issueError_of_row {s : State} {w : Word} {r : Row} {i : Instr} (hr : rowOf w = some r) (hd : decode w = .ok i) :
    issueError i s =
      if s.len.toNat = 0 ∨ s.params.lmax < s.len.toNat then some .len
      else if r.bbits = true ∧ 64 * s.len.toNat < s.bbits.toNat then some .bbits
      else if r.ctx = true ∧ s.ctxv = false then some .noCtx
      else if regionViolated r w s.len.toNat s.params.memWords then some .addr
      else none := by
  obtain ⟨hwf, rfl⟩ := encode_of_decode hd
  obtain ⟨hbbits, hctx, hregions⟩ := row_of_encode hwf hr
  simp only [issueError, State.limbCount, hbbits, hctx, hregions]

/-- While no command runs, taking an error is R214's entry. -/
theorem takeError_of_idle {s : State} (hb : s.busy = false) (e : IssueError) (w : Word) :
    s.takeError e w = raised s (errorCode e) w := by
  cases s
  cases hb
  rfl

/-- The write of a word that decodes: the first check that fails is raised, and a command that passes them is latched
(R212, R214). -/
theorem hostWrite_regCmd_of_decode {s : State} {w : Word} {i : Instr} (hb : s.busy = false) (herr : s.err = false)
    (hd : decode w = .ok i) :
    s.hostWrite regCmd w = (issueError i s).elim (s.accept w) fun e => raised s (errorCode e) w := by
  rw [hostWrite_regCmd, hb]
  cases hi : issueError i s with
  | none => exact issue_of_checks herr hd hi
  | some e =>
    have hissue : s.issue w = s.takeError e w := by simp [State.issue, herr, hd, hi]
    exact hissue.trans (takeError_of_idle hb e w)

end Sys2Proof.Machine
end

section
/-! PROOF. What a step can do to the recorded error (spec/60_exceptions.md R210, R213 to R217). -/

open Sys2Proof.Claims

namespace Sys2Proof.Machine

/-- `t` has the recorded error of `s`, or none if `s` has none. -/
structure SameError (s t : State) : Prop where
  err     : t.err = s.err
  errCode : t.errCode = s.errCode
  errCmd  : t.errCmd = s.errCmd

/-- The turn of the schedule is no part of the error. -/
theorem SameError.of_dropTurn {s t : State} (h : SameError s.dropTurn t) : SameError s t :=
  ⟨h.err, h.errCode, h.errCmd⟩

/-- With no error recorded there is nothing to clear (R216). -/
theorem Inv.clearError_eq {s : State} (h : Inv s) (herr : s.err = false) : s.clearError = s := by
  obtain ⟨hcode, hcmd⟩ := h.noError herr
  cases s
  cases herr
  cases hcode
  cases hcmd
  rfl

/-- The engine's turn raises and clears nothing: the command in flight has passed its checks (R210). -/
theorem Inv.engineTurn_error {s t : State} (h : Inv s) (ht : Machine.engineTurn s = .next t) : SameError s t := by
  obtain ⟨-, rfl⟩ | ⟨hb, i, hd, ht⟩ | ⟨hb, e, hd, -⟩ := engineTurn_cases ht
  · exact ⟨rfl, rfl, rfl⟩
  · obtain ⟨-, j, hj, hi⟩ := h.inFlight hb
    obtain rfl : j = i := Except.ok.inj (hj.symm.trans hd)
    have hh := (exec_completion ht hi).host
    exact ⟨hh.err, hh.errCode, hh.errCmd⟩
  · obtain ⟨-, j, hj, -⟩ := h.inFlight hb
    cases hj.symm.trans hd

/-- A host read leaves the error alone. -/
theorem hostRead_error (s : State) (reg : BitVec 15) : SameError s (s.hostRead reg) := by
  obtain ⟨v, hv⟩ | ⟨-, -, hv⟩ := hostRead_cases s reg
  all_goals rw [hv]; exact ⟨rfl, rfl, rfl⟩

/-- The issue of a command leaves the error alone, or raises one where none is recorded. -/
theorem issue_error (s : State) (w : Word) :
    SameError s (s.issue w) ∨ (s.err = false ∧ ∃ e, s.issue w = s.takeError e w) := by
  obtain ⟨-, hw⟩ | ⟨herr, e, -, hw⟩ | ⟨herr, i, e, -, -, hw⟩ | ⟨-, i, -, -, hw⟩ := issue_cases s w
  · rw [hw]; exact .inl ⟨rfl, rfl, rfl⟩
  · exact .inr ⟨herr, e, hw⟩
  · exact .inr ⟨herr, e, hw⟩
  · rw [hw]; exact .inl ⟨rfl, rfl, rfl⟩

/-- A host write leaves the error alone, or it is a write of `CMD` that raises one while no command runs and none is
recorded, or a `CLRERR`. -/
theorem hostWrite_error (s : State) (reg : BitVec 15) (v : Word) :
    SameError s (s.hostWrite reg v) ∨
    (reg = regCmd ∧ s.busy = false ∧ s.err = false ∧ ∃ e, s.hostWrite reg v = s.takeError e v) ∨
    (reg = regCtrl ∧ v.getLsbD 0 = true ∧ s.hostWrite reg v = s.clearError) := by
  obtain hw | ⟨hb, hr, hw⟩ | ⟨-, hr, h0, hw⟩ | ⟨-, -, hw⟩ | ⟨-, -, hw⟩ | ⟨-, w, -, -, hw⟩ := hostWrite_cases s reg v
  · rw [hw]; exact .inl ⟨rfl, rfl, rfl⟩
  · obtain hsame | ⟨herr, e, hi⟩ := issue_error s v
    · rw [hw]; exact .inl hsame
    · exact .inr (.inl ⟨hostReg_eq_cmd.1 hr, hb, herr, e, hw.trans hi⟩)
  · exact .inr (.inr ⟨hostReg_eq_ctrl.1 hr, h0, hw⟩)
  · rw [hw]; exact .inl ⟨rfl, rfl, rfl⟩
  · rw [hw]; exact .inl ⟨rfl, rfl, rfl⟩
  · rw [hw]; exact .inl ⟨rfl, rfl, rfl⟩

/-- A step leaves the error alone, or it is a write of `CMD` that raises one while no command runs and none is recorded, a
`CLRERR`, or a reset. -/
theorem Inv.step_error {s t : State} (h : Inv s) (ht : Machine.step s = .next t) :
    SameError s t ∨
    (s.busy = false ∧ s.err = false ∧ ∃ w e, NextTurn s (.write regCmd w) ∧ t = s.dropTurn.takeError e w) ∨
    (∃ v, NextTurn s (.write regCtrl v) ∧ v.getLsbD 0 = true ∧ t = s.dropTurn.clearError) ∨
    (NextTurn s .reset ∧ t = s.dropTurn.takeReset) := by
  obtain ⟨-, ht⟩ | ⟨reg, -, rfl⟩ | ⟨reg, v, hm, rfl⟩ | hreset := step_turns ht
  · exact .inl (h.dropTurn.engineTurn_error ht).of_dropTurn
  · exact .inl (hostRead_error _ reg).of_dropTurn
  · obtain hsame | ⟨rfl, hb, herr, e, hw⟩ | ⟨rfl, h0, hw⟩ := hostWrite_error s.dropTurn reg v
    · exact .inl hsame.of_dropTurn
    · exact .inr (.inl ⟨hb, herr, v, e, hm, hw⟩)
    · exact .inr (.inr (.inl ⟨v, hm, h0, hw⟩))
  · exact .inr (.inr (.inr hreset))

/-- `CTRL` reads 0, also while a command runs (R26, R64). -/
theorem hostRead_regCtrl (s : State) : s.hostRead regCtrl = s.answer 0 := by
  cases hb : s.busy with
  | false => exact hostRead_of_value hb (hostReg_regCtrl _) rfl
  | true => exact hostRead_of_busy hb (by decide)

/-- What a read hands over (R62 to R64, U7). -/
theorem hostRead_readOut (s : State) (reg : BitVec 15) : (s.hostRead reg).readOut =
    some (if s.busy && hostReg s.params reg != .status then 0#64
      else (s.readReg (hostReg s.params reg)).getD (Config.freeWord s.freeCtr)) := by
  simp only [State.hostRead]
  split
  · rfl
  · cases s.readReg (hostReg s.params reg) <;> rfl

/-- Of the readable registers only `STATUS` shows `ERR` and `ERRCODE` (R23). -/
theorem readReg_with_error {r : HostReg} (hr : r ≠ .status) (s : State) (err : Bool) (code : BitVec 8) :
    State.readReg { s with err := err, errCode := code } r = s.readReg r := by
  cases r with
  | status => exact absurd rfl hr
  | cmd | ctrl | len | bbits | mask | ctxNinv | errCmd | ctxN | ctxR2 | lmem | unmapped => rfl

end Sys2Proof.Machine
end

section
/-! PROOF. The obligations on errors (spec/60_exceptions.md), each from the lemmas above. -/

open Sys2Proof Sys2Proof.Machine Sys2Proof.Claims

namespace Sys2Proof.Proofs

/-- Settles O12: the engine's turn always answers a next state, and the error of a state that has none stays none
(`Inv.engineTurn_error`). -/
theorem acceptedNeverFails : Obligations.AcceptedNeverFails := by
  intro s h hb hm
  obtain ⟨t, ht⟩ : ∃ t, engineTurn s.dropTurn = .next t := takeTurn_total .engine s.dropTurn
  have hsame := (h.dropTurn.engineTurn_error ht).of_dropTurn
  obtain ⟨herr, -⟩ := h.inFlight hb
  obtain ⟨hcode, hcmd⟩ := h.noError herr
  exact ⟨t, (step_of_enginesTurn hm).trans ht, hsame.err.trans herr, hsame.errCode.trans hcode, hsame.errCmd.trans hcmd⟩

/-- Settles O13: `decode_cases` gives checks 1 and 2 with their error entry (`hostWrite_regCmd_of_error`), and for a word
that decodes checks 3 to 6 are those of its row (`issueError_of_row`). -/
theorem issueChecks : Obligations.IssueChecks := by
  intro s w hb herr
  obtain ⟨hr, hd⟩ | ⟨r, hr, hv, hd⟩ | ⟨r, i, hr, hv, hd⟩ := decode_cases w
  · rw [hr]
    exact hostWrite_regCmd_of_error hb herr hd
  · simp only [hr, hv, if_true]
    exact hostWrite_regCmd_of_error hb herr hd
  · rw [hostWrite_regCmd_of_decode hb herr hd, issueError_of_row hr hd]
    simp only [hr, hv, Bool.false_eq_true, if_false]
    split_ifs <;> rfl

/-- Settles O14: a write of `CMD` is not issued, a step changes the error only in the cases of `Inv.step_error`, and no
other write and no read but that of `STATUS` looks at it. -/
theorem stickyError : Obligations.StickyError := by
  refine ⟨fun s w herr => ?_, fun s t h herr ht => ?_,
    fun s v herr hb => ⟨hostWrite_regLen hb v, hostWrite_regBbits hb v, fun a ha ha' => ?_⟩, fun s reg hreg => ?_⟩
  · simp [hostWrite_regCmd, State.issue, herr]
  · obtain ⟨h1, h2, h3⟩ | ⟨-, herr', -⟩ | ⟨v, hm, h0, -⟩ | ⟨hm, -⟩ := h.step_error ht
    · exact .inl ⟨h1.trans herr, h2, h3⟩
    · cases herr.symm.trans herr'
    · exact .inr (.inl ⟨v, hm, h0⟩)
    · exact .inr (.inr hm)
  · exact hostWrite_of_lmem hb (hostReg_regLmem ha ha') v
  · have hne : hostReg s.params reg ≠ .status := fun h => hreg (hostReg_eq_status.1 h)
    simp only [hostRead_readOut, readReg_with_error hne]

/-- Settles O16: of the cases of `Inv.step_error` only the write of `CMD` leaves an error where there was none. -/
theorem errorsOnlyAtIssue : Obligations.ErrorsOnlyAtIssue := by
  intro s t h ht herr herr'
  obtain hsame | ⟨hb, -, w, e, hm, rfl⟩ | ⟨v, -, -, rfl⟩ | ⟨-, rfl⟩ := h.step_error ht
  · cases herr'.symm.trans (hsame.err.trans herr)
  · exact ⟨hb, rfl, w, hm, rfl, rfl, rfl⟩
  · cases herr'
  · cases herr'

/-- Settles O15: a write of `CTRL` is `hostWrite_regCtrl`, and does nothing while a command runs; with no error recorded
there is nothing to clear (`Inv.clearError_eq`). -/
theorem clearError : Obligations.ClearError := by
  refine ⟨fun s v hb h0 => ?_, fun s v h herr => ?_, fun s v h0 => ?_, hostRead_regCtrl⟩
  · rw [hostWrite_regCtrl hb, if_pos h0]
    rfl
  · cases hb : s.busy
    · rw [hostWrite_regCtrl hb, h.clearError_eq herr, ite_self]
    · exact hostWrite_of_busy hb _ v
  · cases hb : s.busy
    · rw [hostWrite_regCtrl hb, h0]
      rfl
    · exact hostWrite_of_busy hb _ v

end Sys2Proof.Proofs
end

section
/-! PROOF. Overlapping regions (spec/70_reset_and_hazards.md R243) and what a command with a forbidden overlap does
(spec/93_implementation_defined.md U4). -/

open Sys2Proof.Claims

namespace Sys2Proof.Machine

/-- Two nonempty regions are disjoint exactly when no word address lies in both: the higher base would (R65). -/
theorem regionsDisjoint_iff_apart {b n c m : Nat} (hn : 0 < n) (hm : 0 < m) :
    regionsDisjoint ⟨b, n⟩ ⟨c, m⟩ = true ↔ Apart b n c m := by
  simp only [regionsDisjoint_iff, Apart]
  constructor
  · intro h a
    omega
  · intro h
    have := h (max b c)
    omega

theorem identicalOrDisjoint_iff_sameOrApart {b c n : Nat} (hn : 0 < n) :
    identicalOrDisjoint ⟨b, n⟩ ⟨c, n⟩ = true ↔ SameOrApart b c n := by
  simp [identicalOrDisjoint, SameOrApart, regionsDisjoint_iff_apart hn hn]

/-- A completion with everything unspecified and no draw before it is the model's form of "any value". -/
theorem leftOpen_completeUnspecified (i : Instr) (s : State) : LeftOpen i s (s.completeUnspecified i) := by
  have hc := Completion.unspecified i s
  obtain ⟨-, -, -, houtside, hwritten, -, -⟩ := leftOpen_unspecified i s
  refine ⟨rfl, hc.host, ⟨rfl, rfl, rfl, rfl, rfl⟩, houtside, hwritten,
    (Bool.dichotomy (writesCy i)).imp hc.cy writesCy_eq_true.1, (Bool.dichotomy (writesMask i)).imp hc.mask fun hw => ?_⟩
  rw [State.completeUnspecified_mask, if_pos hw]
  exact ⟨writesMask_eq_true.1 hw, (maskOf_cases _).symm⟩

/-- A command whose completion is promised and whose regions overlap as R243 forbids (U4). -/
theorem command_of_forbidden {i : Instr} {s : State} {effect : Nat → Option State} (hi : issueError i s = none)
    (hp : completionPromised i s = true) (ha : aliasingPermitted i s.limbCount = false) :
    command i s effect = .next (s.completeUnspecified i) := by
  simp [command, hi, hp, ha]

/-- The same of a command that takes a legal modulus from `LMEM`. -/
theorem modulusCommand_of_forbidden {i : Instr} {ra : Nat} {s : State} {illegal : State → State}
    {effect : List Word → State} {n : List Word} (hi : issueError i s = none) (hn : s.operand ra s.limbCount = some n)
    (hodd : val n % 2 = 1) (h3 : 3 ≤ val n) (ha : aliasingPermitted i s.limbCount = false) :
    modulusCommand i ra s illegal effect = .next (s.completeUnspecified i) := by
  simp [modulusCommand, hi, hn, modulusLegal, hodd, h3, ha]

/-- What a forbidden overlap does, command by command; `LTMASK` and `CTXLOAD` write no region and have none. -/
theorem exec_of_forbidden {i : Instr} {s : State} (hi : issueError i s = none)
    (ha : aliasingPermitted i s.limbCount = false) (hp : completionPromised i s = true)
    (hn : ∀ rd ra n, i = .precompr2 rd ra → s.operand ra s.limbCount = some n → val n % 2 = 1 ∧ 3 ≤ val n) :
    exec i s = .next (s.completeUnspecified i) := by
  cases i with
  | ltmask | ctxload => cases ha
  | precompr2 rd ra =>
    obtain ⟨-, hheld⟩ := completionPromised_iff.1 hp
    obtain ⟨n, ho⟩ := operandsHeld_iff.1 hheld ⟨ra, s.limbCount⟩ (List.mem_singleton_self _)
    obtain ⟨hodd, h3⟩ := hn rd ra n rfl ho
    exact modulusCommand_of_forbidden hi ho hodd h3 ha
  | add | sub | addmodn | mul | sqr | kmul | ksqr | redc | tomont | frommont | montmul | montsqr | modexp
  | modexpl =>
    simp only [exec, execAdd, execSub, execAddmodn, execMul, execSqr, execKmul, execKsqr, execRedc, execTomont,
      execFrommont, execMontmul, execMontsqr, execModexp, execModexpl]
    exact command_of_forbidden hi hp ha

end Sys2Proof.Machine
end

section
/-! PROOF. A host read of a word that holds no value (spec/70_reset_and_hazards.md R248). -/

namespace Sys2Proof.Machine

/-- While no command runs, a read of a register that holds no value hands over a free value (U7). -/
theorem hostRead_of_no_value {s : State} {reg : BitVec 15} {r : HostReg} (hb : s.busy = false)
    (hr : hostReg s.params reg = r) (hx : s.readReg r = none) :
    s.hostRead reg = s.skipFree.answer (Config.freeWord s.freeCtr) := by
  simp [State.hostRead, hb, hr, hx]

end Sys2Proof.Machine
end

section
/-! PROOF. The obligations on overlaps and on words without a value (spec/70_reset_and_hazards.md), each from the lemmas
above. -/

open Sys2Proof Sys2Proof.Machine Sys2Proof.Claims

namespace Sys2Proof.Proofs

/-- Settles O50: the permitted overlaps are those of R243's table, since a disjointness check says that no address is
shared (`regionsDisjoint_iff_apart`); any other overlap completes with everything unspecified (`exec_of_forbidden`). -/
theorem overlapRule : Obligations.OverlapRule := by
  refine ⟨fun rd ra rb rc L h => ?_, fun i s hi ha hctx hheld hn => ?_⟩
  · have h2 : 0 < 2 * L := by omega
    have h4 : 0 < 4 * L := by omega
    simp only [aliasingPermitted, Config.karatsubaScratch, Bool.and_eq_true, and_assoc,
      identicalOrDisjoint_iff_sameOrApart h, regionsDisjoint_iff_apart h h, regionsDisjoint_iff_apart h h2,
      regionsDisjoint_iff_apart h2 h, regionsDisjoint_iff_apart h2 h4, regionsDisjoint_iff_apart h4 h, and_self]
  · exact ⟨_, exec_of_forbidden hi ha (completionPromised_iff.2 ⟨hctx, operandsHeld_iff.2 hheld⟩) hn,
      leftOpen_completeUnspecified i s⟩

/-- Settles O22: the register number names the word (`hostReg_regLmem`), which holds no value to hand over
(`hostRead_of_no_value`). -/
theorem unwrittenRead : Obligations.UnwrittenRead := fun _ _ hb ha ha' hm =>
  hostRead_of_no_value hb (hostReg_regLmem ha ha') hm

end Sys2Proof.Proofs
end

section
/-! PROOF. Reading the `LMEM` window (spec/20_memory.md R61 to R63), and the commands that an illegal modulus leaves open
(spec/93_implementation_defined.md U1, U6). -/

open Sys2Proof.Claims

namespace Sys2Proof.Machine

/-- What the host reads of the window while no command runs: the word, a free value where it holds none, and 0 beyond
`MEMWORDS` (R61, R63, R248). -/
theorem hostRead_regLmem_readOut {s : State} {w : Nat} (hb : s.busy = false) (hw : w < 16384) :
    (s.hostRead (regLmem w)).readOut =
      some (if w < s.params.memWords then (s.lmem.read w).getD (Config.freeWord s.freeCtr) else 0) := by
  by_cases hm : w < s.params.memWords
  · rw [if_pos hm]
    have hr := hostReg_regLmem hm hw
    cases hx : s.lmem.read w with
    | none => rw [hostRead_of_no_value hb hr hx]; rfl
    | some x => rw [hostRead_of_value hb hr hx]; rfl
  · rw [if_neg hm]
    have hn : (regLmem w).toNat = 16384 + w := Nat.mod_eq_of_lt (by omega)
    have hr : hostReg s.params (regLmem w) = .unmapped := by rw [hostReg_window hn, if_neg hm]
    rw [hostRead_of_value hb hr rfl]
    rfl

/-- `CTXLOAD` of an illegal modulus: the context is poisoned, or it has not completed (U1, U6). -/
theorem ctxload_illegal {ra : Nat} {s t : State} {n : List Word} (h : exec (.ctxload ra) s = .next t)
    (hi : issueError (.ctxload ra) s = none) (ho : s.operand ra s.limbCount = some n)
    (hn : val n % 2 = 0 ∨ val n < 3) : t = s.skipFree.poisonContext ra ∨ t = s.skipFree := by
  obtain ⟨m, hm, hodd, h3, -⟩ | ⟨-, ht⟩ := ctxload_cases h hi
  · cases ho.symm.trans hm
    omega
  · exact ht

/-- A command that takes its modulus from the context registers is not `CTXLOAD`. -/
theorem ne_ctxload_of_needsCtx {i : Instr} (h : needsCtx i = true) (ra : Nat) : i ≠ .ctxload ra := by
  rintro rfl
  cases h

/-- The completion of a command that uses a poisoned context is not promised (U1, U6). -/
theorem completionPromised_of_poisoned {i : Instr} {s : State} (h : needsCtx i = true) (hp : s.ctxPoisoned = true) :
    completionPromised i s = false := by
  simp [completionPromised, h, hp]

/-- A command that has not completed, or has with everything it writes unspecified, in the terms of the claims. -/
theorem notCompleted_or_leftOpen {i : Instr} {s t : State}
    (h : t = s.skipFree.completeUnspecified i ∨ t = s.skipFree) : NotCompleted s t ∨ LeftOpen i s t := by
  obtain rfl | rfl := h
  · exact .inr (leftOpen_unspecified i s)
  · exact .inl rfl

end Sys2Proof.Machine
end

section
/-! PROOF. The obligations on the `LMEM` window, on the commands that write registers only, and on illegal moduli, each
from the lemmas above. -/

open Sys2Proof Sys2Proof.Machine Sys2Proof.Claims

namespace Sys2Proof.Proofs

/-- Settles O20: the write is `setWord`, and a read of the window depends on the word it names only
(`hostRead_regLmem_readOut`). -/
theorem lmemWindow : Obligations.LmemWindow := by
  intro s a b v hbusy ha ha' hb'
  rw [hostWrite_of_lmem hbusy (hostReg_regLmem ha ha'), hostRead_regLmem_readOut (s := s.setWord a v) hbusy hb',
    hostRead_regLmem_readOut hbusy hb', State.setWord_params, State.setWord_lmem, State.setWord_freeCtr]
  by_cases h : b = a
  · rw [h, if_pos ha, Memory.read_write_same, if_pos rfl]
    rfl
  · rw [Memory.read_write_other _ v h, if_neg h]

/-- Settles O39, from `exec_completion`: neither command has a written region. -/
theorem frameRegistersOnly : Obligations.FrameRegistersOnly := by
  refine ⟨fun ra rb s t hi h => ?_, fun ra s t hi h => ?_⟩
  · have hk := exec_completion h hi
    exact ⟨hk.host, hk.context nofun, hk.cy rfl, fun a => hk.outside nofun a nofun⟩
  · have hk := exec_completion h hi
    exact ⟨hk.host, hk.cy rfl, hk.mask rfl, fun a => hk.outside nofun a nofun⟩

/-- Settles O52: `CTXLOAD` poisons the context or has not completed (`ctxload_illegal`), and of the modulus 1 it gives
two registers (`poisonContext_one`); for the other commands completion is not promised (`precompr2_illegal`,
`exec_not_promised`). -/
theorem illegalModulus : Obligations.IllegalModulus := by
  refine ⟨fun ra s t n hi ho hn h => ?_, fun rd ra s t n hi ho hn h => ?_, fun i s t hc hp hi h => ?_⟩
  · have hhost := (exec_completion h hi).host
    obtain rfl | rfl := ctxload_illegal h hi ho hn
    · refine ⟨hhost, rfl, rfl, rfl, .inr ⟨rfl, rfl, rfl, fun h1 => ?_⟩⟩
      rw [← operand_length ho]
      exact poisonContext_one (s := s.skipFree) ho h1
    · exact ⟨hhost, rfl, rfl, rfl, .inl rfl⟩
  · refine notCompleted_or_leftOpen (precompr2_illegal h hi fun m hm => ?_)
    cases ho.symm.trans hm
    omega
  · exact notCompleted_or_leftOpen
      (exec_not_promised (ne_ctxload_of_needsCtx hc) hi (completionPromised_of_poisoned hc hp) h)

end Sys2Proof.Proofs
end
